-- ==== Sys2Proof/Config.lean ====
section
/-! DEFINITION. What an implementation fixes (the parameters of spec rule R6), the widths of the command word's operand fields, and
the free values: opaque constants, with no body, for what the spec leaves at any value. -/

namespace Sys2Proof

/-- The bits of a command word's `idx` field (R59): no command carries more of an index or a count. -/
abbrev Config.idxField : Nat := 16

/-- How many pins a command word's 8-bit `pin` field can name (R59): no command reaches a port bit from here up. -/
abbrev Config.pinsNamed : Nat := 256

/-- The parameters of R6. They are arguments of the model (R31), fixed for a run: State carries
them and no step writes them (log entry 4). The defaults are `Machine.defaultParams`. -/
structure Params where
  /-- `T1H_NS`: high time of a 1-bit, ns. -/
  t1hNs : Nat
  /-- `T1L_NS`: low time of a 1-bit, ns. -/
  t1lNs : Nat
  /-- `T0H_NS`: high time of a 0-bit, ns. -/
  t0hNs : Nat
  /-- `T0L_NS`: low time of a 0-bit, ns. -/
  t0lNs : Nat
  /-- `LATCH_USEC`: minimum low time of a latch, microseconds. -/
  latchUsec : Nat
  /-- `TOL_NS`: the receiver's tolerance on a pulse width, ns. -/
  tolNs : Nat
  /-- `RX_LATCH_NS`: low time past which the receiver latches, ns. -/
  rxLatchNs : Nat
  /-- `F_CLK`: clock frequency of the block, Hz. -/
  fClk : Nat
  /-- `IDX_W`: width of an index and of a pixel count, bits (log entry 5). -/
  idxW : Nat
  /-- `PORT_W`: width of the output port, bits (log entry 5). -/
  portW : Nat
  /-- `MAX_PIXELS`: largest store the platform can allocate. -/
  maxPixels : Nat
  /-- `GAP_NS`: extra low time between two pixels inside SENDALL, ns. -/
  gapNs : Nat
  /-- `REINIT_CLEARS`: whether INIT with an unchanged count clears a Buffered store. -/
  reinitClears : Bool
deriving DecidableEq, Repr, Inhabited

/-- `F_CLK` of a machine coming out of `State.reset`: R6 gives it no default (D8), so it is a free value: nothing constrains it
(log entry 4). -/
opaque Config.fClk : Nat

/-- A free byte, for what R32 leaves at any value after a reset of a running machine: the three colour latches. The argument
is the draw's number (`State.draws`); log entry 12. -/
opaque Config.freeByte : Nat → BitVec 8

/-- A free level of the line, for what U2 leaves at any value when a reset cuts a command short; log entry 12. -/
opaque Config.freeLevel : Nat → Bool

end Sys2Proof
end

