-- ==== Sys2Proof/Word.lean ====
section
/-! DEFINITION. The word types of the block: what the spec treats as bits. -/

namespace Sys2Proof

/-- An 8-bit channel of a colour, or the pin field of a command word. -/
abbrev Byte := BitVec 8

/-- An index into the store or a pixel count, unsigned: the 16 bits a command word can carry, of which `Params.idxW` count
(R36, R59; log entry 5). -/
abbrev Idx := BitVec 16

/-- A value of the output port's registers (R22 to R24): one bit for each pin a command word can name, of which the low
`Params.portW` exist (log entry 5). -/
abbrev PortBits := BitVec 256

/-- A command word, `cmd[47:0]` (R59). -/
abbrev CmdWord := BitVec 48

/-- A response word, `rsp[24:0]` (R65). -/
abbrev RspWord := BitVec 25

/-- The widths above are those of the command word's fields. -/
theorem widths_are_config : Idx = BitVec Config.idxField ∧ PortBits = BitVec Config.pinsNamed := ⟨rfl, rfl⟩

end Sys2Proof
end

