-- ==== Sys2Proof/Machine/Timing.lean ====
section
/-! DEFINITION. Timing: the parameters' defaults (R6) and constraints (R7), the phases a `hold` can be asked for, the cycle
counts of R71, the clock validity of R72, and the phase counter TMR one clock period at a time (R105, R106, R114). -/

namespace Sys2Proof.Machine

/-- The defaults of R6. `F_CLK` has none: it is the free value `Config.fClk` (log entry 4). -/
def defaultParams : Params where
  t1hNs := 900
  t1lNs := 350
  t0hNs := 350
  t0lNs := 500
  latchUsec := 260
  tolNs := 150
  rxLatchNs := 50000
  fClk := Config.fClk
  idxW := 16
  portW := 8
  maxPixels := 2 ^ 16 - 1
  gapNs := 0
  reinitClears := false

/-- `LATCH_NS = LATCH_USEC * 1000` (R6). -/
def latchNs (p : Params) : Nat := p.latchUsec * 1000

/-- The phases the block holds the line for (R52 to R54, R93). -/
inductive Phase where
  /-- the high phase of a 1-bit -/
  | t1h
  /-- the low phase of a 1-bit -/
  | t1l
  /-- the high phase of a 0-bit, the one that is inhibited -/
  | t0h
  /-- the low phase of a 0-bit -/
  | t0l
  /-- the latch low period -/
  | latch
  /-- the low period between two pixels inside SENDALL, when `GAP_NS > 0` -/
  | gap
deriving DecidableEq, Repr

/-- The nominal duration of a phase, ns: the `n` of `hold(n, inh)` (R9, R70). -/
def nominalNs (p : Params) : Phase → Nat
  | .t1h => p.t1hNs
  | .t1l => p.t1lNs
  | .t0h => p.t0hNs
  | .t0l => p.t0lNs
  | .latch => latchNs p
  | .gap => p.gapNs

/-- `N(T)` of R71: the nearest whole number of clock periods, at least one. -/
def cycles (p : Params) (t : Nat) : Nat :=
  max 1 ((t * p.fClk + 500000000) / 1000000000)

/-- A clock period in the units widths are compared in, `1 / F_CLK` ns each (`P = 1000000000 / F_CLK` ns, R107): in them a
nanosecond is `F_CLK`, and every comparison stays in whole numbers. -/
def periodUnits : Nat := 1000000000

/-- `NL` of R71: the latch's clock periods, rounded up. -/
def latchCycles (p : Params) : Nat :=
  (latchNs p * p.fClk + 999999999) / 1000000000

/-- What TMR is loaded with at the start of a phase, before deferred service is added (R114): `N(T)` for a bit phase, `NL` for
a latch. The gap is not timed by TMR (R114 names bit phases and the latch only; log entry 9). -/
def phaseCycles (p : Params) : Phase → Nat
  | .latch => latchCycles p
  | .gap => 0
  | ph => cycles p (nominalNs p ph)

/-- Whether a phase is a bit phase, and so exactly as long as its count and the interrupt service in it (R107, R137). The latch
and the gap may last longer (R107, D31). -/
def isBitPhase : Phase → Bool
  | .latch => false
  | .gap => false
  | _ => true

/-- The realised width `n` periods has is within `TOL_NS` of `t` ns: the first line of R72, in integers. -/
def withinTolerance (p : Params) (t : Nat) : Bool :=
  decide (cycles p t * 1000000000 ≤ t * p.fClk + p.tolNs * p.fClk
    ∧ t * p.fClk ≤ cycles p t * 1000000000 + p.tolNs * p.fClk)

/-- `valid(F_CLK)` of R72. -/
def clockValid (p : Params) : Bool :=
  withinTolerance p p.t0hNs && withinTolerance p p.t0lNs && withinTolerance p p.t1hNs && withinTolerance p p.t1lNs
    && decide (cycles p p.t1lNs < cycles p p.t1hNs) && decide (cycles p p.t0hNs < cycles p p.t0lNs)

/-- The constraints (a), (b) and (d) of R7; (c) is `clockValid`. -/
def paramsOk (p : Params) : Bool :=
  decide (p.t1lNs < p.t1hNs) && decide (p.t0hNs < p.t0lNs) && decide (p.rxLatchNs < latchNs p)
    && decide (p.t0lNs + p.gapNs < p.rxLatchNs) && decide (p.t1lNs + p.gapNs < p.rxLatchNs)

/-- What the environment does in one clock period of a phase. -/
structure Period where
  /-- `stall` (R105) -/
  stall : Bool
  /-- the timing means of a latch or a gap, or a command that does not transmit, goes on for at least one more period (D31, U11;
  log entries 8, 9, 17) -/
  linger : Bool
  /-- what the timing means of a latch or a gap adds that is no whole number of periods, in units of `1 / F_CLK` ns: R107 asks
  whole periods of bit phases only (log entry 8) -/
  extra : Nat
deriving DecidableEq, Repr

/-- A period in which nothing from outside happens. -/
def Period.quiet : Period := ⟨false, false, 0⟩

/-- The phase counter and what belongs to it. -/
structure Timer where
  /-- `TMR`, the down-counter (R114) -/
  tmr : Nat
  /-- `IRQ_PENDING`, clock periods of deferred interrupt service (R29, R106) -/
  pending : Nat
  /-- ghost: clock periods the phase in progress has lasted (log entry 20) -/
  elapsed : Nat
  /-- ghost: the `s_j` of R107 so far, the clock periods of interrupt service in the phase in progress (log entry 20) -/
  service : Nat
  /-- ghost: what a latch or a gap has lasted besides whole periods, in units of `1 / F_CLK` ns (log entry 20) -/
  excess : Nat
deriving DecidableEq, Repr

/-- The timer at rest: `TMR` and `IRQ_PENDING` are 0 after reset (R32) and while `BUSY = 0` (R29). -/
def Timer.rest : Timer := ⟨0, 0, 0, 0, 0⟩

/-- The timer at the start of a phase of `n` clock periods. An inhibited phase is not lengthened; any other is lengthened by the
deferred service, which is then served (R106): TMR is loaded with its count and that service together, where R114 names the count alone
(DESIGN CHOICE: log entry 26). -/
def Timer.load (n : Nat) (inhibit : Bool) (t : Timer) : Timer :=
  if inhibit then ⟨n, t.pending, 0, 0, 0⟩ else ⟨n + t.pending, 0, 0, t.pending, 0⟩

/-- Whether `stall` is honoured in a period: only while `IRQ_INHIBIT = 0` (R105, R109). -/
def Period.honoured (inhibit : Bool) (p : Period) : Bool := p.stall && !inhibit

/-- One clock period of a phase (R105, R106): honoured, a stall freezes the counter; not honoured, it is added to `IRQ_PENDING`
and the counter counts. -/
def Timer.period (inhibit : Bool) (p : Period) (t : Timer) : Timer :=
  if p.honoured inhibit then
    { t with elapsed := t.elapsed + 1, service := t.service + 1, excess := t.excess + p.extra }
  else
    { t with
      tmr := t.tmr - 1
      pending := if p.stall then t.pending + 1 else t.pending
      elapsed := t.elapsed + 1
      excess := t.excess + p.extra }

/-- Whether the phase ends with this period, `t` being the timer after it: TMR has reached zero (R114) and the period was not
stalled. A latch or a gap may linger (D31, R107). -/
def Timer.over (bitPhase inhibit : Bool) (p : Period) (t : Timer) : Bool :=
  t.tmr == 0 && !p.honoured inhibit && (bitPhase || !p.linger)

/-- A whole phase: clock periods are taken from the list until the phase ends; the periods not taken are left. A list that runs
out stands for quiet periods from there on, so every phase ends (R136, D27; log entry 7). -/
def Timer.run (bitPhase inhibit : Bool) : List Period → Timer → Timer × List Period
  | [], t => ({ t with tmr := 0, elapsed := t.elapsed + max t.tmr 1 }, [])
  | p :: ps, t =>
    if (t.period inhibit p).over bitPhase inhibit p then (t.period inhibit p, ps)
    else Timer.run bitPhase inhibit ps (t.period inhibit p)

end Sys2Proof.Machine
end

