-- ==== Sys2Proof/Syntax.lean ====
section
/-! DEFINITION. The seven commands of spec/opcode_table.json as one inductive, and the ColorValue they carry. -/

namespace Sys2Proof

/-- A ColorValue (R8, R36): three 8-bit channels in the order red, green, blue. This is the order of the tuple, not of the
wire. -/
structure Colour where
  r : Byte
  g : Byte
  b : Byte
deriving DecidableEq, Repr, Inhabited

/-- The colour `(0, 0, 0)`: the blanking pulse's (R68), and what an entry never written reads as (R37). -/
def Colour.black : Colour := ⟨0, 0, 0⟩

/-- The seven commands (R61), one constructor per row of the opcode table. -/
inductive Instr where
  /-- INIT pin, count, buffered (R86). -/
  | init (pin : Byte) (count : Idx) (buffered : Bool)
  /-- SEND1 (r, g, b) (R78). -/
  | send1 (c : Colour)
  /-- LATCH (R81). -/
  | latch
  /-- SETAT index, (r, g, b) (R89). -/
  | setAt (index : Idx) (c : Colour)
  /-- SETALL (r, g, b) (R91). -/
  | setAll (c : Colour)
  /-- SENDALL (R93). -/
  | sendAll
  /-- GETAT index (R97). -/
  | getAt (index : Idx)
deriving DecidableEq, Repr

/-- A colour as the assembler writes it (R67), numbers in decimal. -/
def Colour.text (c : Colour) : String :=
  "(" ++ toString c.r.toNat ++ ", " ++ toString c.g.toNat ++ ", " ++ toString c.b.toNat ++ ")"

/-- One line of a command list in the assembler syntax of R67. -/
def Instr.text : Instr → String
  | .init pin count buffered =>
    "INIT " ++ toString pin.toNat ++ ", " ++ toString count.toNat ++ ", " ++ (if buffered then "1" else "0")
  | .send1 c => "SEND1 " ++ c.text
  | .latch => "LATCH"
  | .setAt index c => "SETAT " ++ toString index.toNat ++ ", " ++ c.text
  | .setAll c => "SETALL " ++ c.text
  | .sendAll => "SENDALL"
  | .getAt index => "GETAT " ++ toString index.toNat

end Sys2Proof
end

