-- ==== Sys2Proof/Machine/State.lean ====
section
/-! DEFINITION. The state of the block (spec/10_state.md), as plain data, the reasons a step can stop, and the state after
reset (R32, R120). -/

namespace Sys2Proof.Machine

/-- `SEQ.top` (R15). -/
inductive SeqTop where
  /-- no command in progress -/
  | idle
  /-- a 24-bit colour is being sent -/
  | pixel
  /-- the latch low period is being held -/
  | latching
deriving DecidableEq, Repr

/-- `SEQ.ph` (R15): which phase of a bit is on the wire. -/
inductive BitHalf where
  | hi
  | lo
deriving DecidableEq, Repr

/-- The sequencer position `SEQ` (R15), what stands in place of a program counter. -/
structure Seq where
  top : SeqTop
  /-- index of the store entry being sent, inside SENDALL; 0 otherwise -/
  pix : Idx
  /-- which byte of the colour is on the wire: 0 green, 1 red, 2 blue -/
  k : Fin 3
  /-- which bit of that byte is on the wire -/
  b : Fin 8
  ph : BitHalf
deriving DecidableEq, Repr

/-- The resting value `(IDLE, 0, 0, 7, HI)` (R16). -/
def Seq.rest : Seq := ⟨.idle, 0, 0, 7, .hi⟩

/-- An event of `TRACE` (R27): `level` true is H; `dur` the nominal duration in ns; `inh` the value of `IRQ_INHIBIT`. -/
structure Event where
  level : Bool
  dur : Nat
  inh : Bool
deriving DecidableEq, Repr

/-- One entry of the realised trace (R107), in step with one event of `TRACE`. It lasted `periods` clock periods of
`1000000000 / F_CLK` ns each, and besides `ns` ns (only a gap has any) and `excess` units of `1 / F_CLK` ns (only a gap or a latch
has any). `phase` and `seq` say what the block was at. -/
structure Span where
  phase : Phase
  level : Bool
  periods : Nat
  ns : Nat
  excess : Nat
  seq : Seq
deriving DecidableEq, Repr

/-- The command in progress, which R16 needs (`control returns to the command that started it`). Only the clocked sequencer
has one between two steps (log entry 16). -/
inductive Work where
  /-- a SEND1 -/
  | send1
  /-- a LATCH -/
  | latch
  /-- an INIT whose store step is still to come; `old` is R86's local: COUNT before it -/
  | init (count : Idx) (buffered : Bool) (old : Idx)
  /-- a SENDALL on a Buffered store; `inGap` while the gap before the next pixel is held -/
  | sendAll (inGap : Bool)
  /-- a command that drives no phase -/
  | quick (i : Instr)
deriving DecidableEq, Repr

/-- What the host does at the port, in order (R31, R66, R120, R131). -/
inductive HostEvent where
  /-- it presents a command word and lets the command complete -/
  | word (w : CmdWord)
  /-- it pulls `rst_n` low between two commands, or, on a busy block, at once -/
  | reset
  /-- it presents a command word and pulls `rst_n` low `periods` clock periods after the word is accepted -/
  | cutWord (w : CmdWord) (periods : Nat)
deriving DecidableEq, Repr

/-- The PixelStore's written entries (R28, R36): pairs of an index and a colour. Canonical form (log entry 10): indices strictly
rising, no entry black, since an index not listed reads as black (R37). -/
abbrev Memory := List (Nat × Colour)

/-- The whole state. INVENTORY.md's list says which rule names each field. -/
structure State where
  /-- the colour register file `x[R]`, `x[G]`, `x[B]` (R13) -/
  x : Colour
  /-- `SEQ` (R15) -/
  seq : Seq
  /-- `CONFIGURED`: INIT has run since reset (R18, R21) -/
  configured : Bool
  /-- `BUFFERED`: the store exists (R18, R21) -/
  buffered : Bool
  /-- `BUSY`: a command is in progress (R18, R19) -/
  busy : Bool
  /-- `IRQ_INHIBIT`: the host must take no interrupt (R18, R20) -/
  irqInhibit : Bool
  /-- `PORT_OUT` (R22) -/
  portOut : PortBits
  /-- `PORT_DIR` (R23) -/
  portDir : PortBits
  /-- `PINMASK` (R24) -/
  pinMask : PortBits
  /-- `COUNT` (R25) -/
  count : Idx
  /-- `STORE` (R28): its entries while `BUFFERED = 1`; empty while there is no store -/
  store : Memory
  /-- `TMR` and `IRQ_PENDING` (R29, R114), with two ghost counts -/
  timer : Timer
  /-- `rsp_valid` and `rsp` (R65, R66): the word while `rsp_valid = 1`, none while it is 0 (log entry 11) -/
  rsp : Option RspWord
  /-- `TRACE` (R27), oldest event first -/
  trace : List Event
  /-- ghost: the realised trace (R107), one span per event of `TRACE` (log entry 20) -/
  wire : List Span
  /-- the command in progress (R16; log entry 16) -/
  work : Option Work
  /-- the model's own: how many free values have been drawn (log entry 12) -/
  draws : Nat
  /-- the parameters of R6, arguments of the model; no step writes them (log entry 4) -/
  params : Params
  /-- input: the host's events to come (R31; log entry 6) -/
  host : List HostEvent
  /-- input: what the environment does in each coming clock period of a phase (R31; log entry 7) -/
  clock : List Period
deriving DecidableEq, Repr

/-- Reasons a step stops with a fault. There are none: the set of synchronous exceptions is empty, and no command can be left
half done by an error (R100). Nothing raises one. -/
inductive Fault where
deriving DecidableEq, Repr

/-- Reasons a command is refused: the spec gives it no meaning there (R102). -/
inductive Refusal where
  /-- The instruction has no meaning in the model yet. Safe: the machine stops. Raised by an arm of `exec`, of which none
  does. -/
  | notModelled (mnemonic : String)
  /-- U1: INIT asks for a store larger than `MAX_PIXELS`. Safe: the machine stops. Raised by INIT. -/
  | storeTooLarge
  /-- U3: INIT names a pin at or above `PORT_W`. Safe: the machine stops. Raised by INIT. -/
  | pinOutOfRange
  /-- U4: SEND1 or LATCH before any INIT since reset. Safe: the machine stops. Raised by SEND1 and LATCH. -/
  | notConfigured
deriving DecidableEq, Repr

/-- The machine right after reset (R32, R120). `x`, `portOut` and `portDir`, which the spec leaves at any value, are 0 here
(DESIGN CHOICE, unsafe: log entries 1, 2, 3); a claim about a run from reset quantifies over them (R31). -/
def State.reset : State where
  x := Colour.black
  seq := Seq.rest
  configured := false
  buffered := false
  busy := false
  irqInhibit := false
  portOut := 0
  portDir := 0
  pinMask := 0
  count := 0
  store := []
  timer := Timer.rest
  rsp := none
  trace := []
  wire := []
  work := none
  draws := 0
  params := defaultParams
  host := []
  clock := []

end Sys2Proof.Machine
end

