-- ==== Sys2Proof/Machine/Flags.lean ====
section
/-! DEFINITION. The four flags (R18) and the wires that follow from them. No command computes a flag from data. -/

namespace Sys2Proof.Machine

/-- `BUSY <- v` (R19). -/
def State.setBusy (v : Bool) (s : State) : State := { s with busy := v }

/-- `IRQ_INHIBIT <- v` (R20, R74). -/
def State.setInhibit (v : Bool) (s : State) : State := { s with irqInhibit := v }

/-- `CONFIGURED <- v` (R21). -/
def State.setConfigured (v : Bool) (s : State) : State := { s with configured := v }

/-- `BUFFERED <- v` (R21). -/
def State.setBuffered (v : Bool) (s : State) : State := { s with buffered := v }

/-- The port's `cmd_ready`, `not BUSY` (R66). -/
def State.cmdReady (s : State) : Bool := !s.busy

/-- The interrupt enable the host processor sees, `host_enable and not IRQ_INHIBIT` (R20, D12). The host's own enable is
outside the block. -/
def State.irqEnabled (hostEnable : Bool) (s : State) : Bool := hostEnable && !s.irqInhibit

/-- The line: the bit of `PORT_OUT` that `PINMASK` selects (R22); true is high. While no pin is selected (`PINMASK = 0`, from
reset to the first INIT) R22 names no line, and it reads as low here (DESIGN CHOICE, unsafe: log entry 24). -/
def State.line (s : State) : Bool := (s.portOut &&& s.pinMask) != 0

end Sys2Proof.Machine
end

