-- ==== Sys2Proof/WellFormed.lean ====
section
/-! DEFINITION. When a command's operands are all in range of the parameters' widths. The types bound every operand to its
field's width; what is left is INIT's pin, and an index or a count where `IDX_W` is narrower than its field. -/

namespace Sys2Proof

/-- R60: the pin field is `valid only if pin < PORT_W`. -/
def Instr.pinOk (p : Params) : Instr → Bool
  | .init pin _ _ => decide (pin.toNat < p.portW)
  | .send1 _ => true
  | .latch => true
  | .setAt _ _ => true
  | .setAll _ => true
  | .sendAll => true
  | .getAt _ => true

/-- R60: an index and a count are `IDX_W`-bit numbers. -/
def Instr.idxOk (p : Params) : Instr → Bool
  | .init _ count _ => decide (count.toNat < 2 ^ p.idxW)
  | .send1 _ => true
  | .latch => true
  | .setAt index _ => decide (index.toNat < 2 ^ p.idxW)
  | .setAll _ => true
  | .sendAll => true
  | .getAt index => decide (index.toNat < 2 ^ p.idxW)

/-- A command whose operands are all in range (R60, R69.2). An ill-formed one still has an encoding and still decodes (R61): a
pin out of range is refused by name (U3), and of an index or a count the machine reads the `IDX_W` low bits (log entry 5). -/
def Instr.wellFormed (p : Params) (i : Instr) : Bool := i.pinOk p && i.idxOk p

end Sys2Proof
end

