-- ==== Sys2Proof/Decode.lean ====
section
/-! DEFINITION. The command word (R59 to R64): its fields, the decoder, total on 48-bit words, and the encoder, which writes the
canonical word (R63: the ignored bits are 0). The host's `decodeTableWord` is the decoder on one word. -/

namespace Sys2Proof

/-- What a command word decodes to: a command, or a reserved operation code (R62: op 0x0 and 0x8 to 0xF). -/
inductive Decoded where
  | instr (i : Instr)
  | reservedOp (op : BitVec 4)
deriving DecidableEq, Repr

/-- `op`, bits 47:44 (R59). -/
def cmdOp (w : CmdWord) : BitVec 4 := w.extractLsb' 44 4

/-- `f`, bit 40: INIT's bufferEnabled (R59). -/
def cmdBuffered (w : CmdWord) : Bool := w.getLsbD 40

/-- `idx`, bits 39:24: an index, or INIT's pixelCount (R59, R60). -/
def cmdIdx (w : CmdWord) : Idx := w.extractLsb' 24 16

/-- The pin number, bits 7:0 (R59, R60). -/
def cmdPin (w : CmdWord) : Byte := w.extractLsb' 0 8

/-- The colour: red in bits 23:16, green in 15:8, blue in 7:0 (R59, R60, D7). -/
def cmdColour (w : CmdWord) : Colour :=
  ⟨w.extractLsb' 16 8, w.extractLsb' 8 8, w.extractLsb' 0 8⟩

/-- The opcode map of R61. The decoder looks at `op` alone; every word decodes, a reserved `op` by name (R62, R64). -/
def decode (w : CmdWord) : Decoded :=
  match (cmdOp w).toNat with
  | 1 => .instr (.init (cmdPin w) (cmdIdx w) (cmdBuffered w))
  | 2 => .instr (.send1 (cmdColour w))
  | 3 => .instr .latch
  | 4 => .instr (.setAt (cmdIdx w) (cmdColour w))
  | 5 => .instr (.setAll (cmdColour w))
  | 6 => .instr .sendAll
  | 7 => .instr (.getAt (cmdIdx w))
  | _ => .reservedOp (cmdOp w)

/-- A colour packed red, green, blue from the top (R13, R60, D7). -/
def packColour (c : Colour) : BitVec 24 := c.r ++ (c.g ++ c.b)

/-- A flag as a one-bit field. -/
def flagBit (f : Bool) : BitVec 1 := if f then 1 else 0

/-- The canonical word of a command: R61's pattern with every ignored bit 0 (R63). -/
def encode : Instr → CmdWord
  | .init pin count buffered => (0x1#4) ++ ((0#3) ++ (flagBit buffered ++ (count ++ ((0#16) ++ pin))))
  | .send1 c => (0x2#4) ++ ((0#20) ++ packColour c)
  | .latch => (0x3#4) ++ (0#44)
  | .setAt index c => (0x4#4) ++ ((0#4) ++ (index ++ packColour c))
  | .setAll c => (0x5#4) ++ ((0#20) ++ packColour c)
  | .sendAll => (0x6#4) ++ (0#44)
  | .getAt index => (0x7#4) ++ ((0#4) ++ (index ++ (0#24)))

/-- The bits of a word its command reads: R61's pattern with the `x` positions 0 (R63). For a reserved op, `op` alone. -/
def usedBits (op : BitVec 4) : CmdWord :=
  match op.toNat with
  | 1 => 0xF1FFFF0000FF
  | 2 => 0xF00000FFFFFF
  | 3 => 0xF00000000000
  | 4 => 0xF0FFFFFFFFFF
  | 5 => 0xF00000FFFFFF
  | 6 => 0xF00000000000
  | 7 => 0xF0FFFF000000
  | _ => 0xF00000000000

/-- The host's reading of a table row: the command word is one word of 48 bits, so a row's bits are the word's. -/
def decodeTableWord (nbits w : Nat) : Option Instr :=
  match decode (BitVec.ofNat 48 (w % 2 ^ nbits)) with
  | .instr i => some i
  | .reservedOp _ => none

end Sys2Proof
end

