-- ==== Sys2Proof/Machine/Operands.lean ====
section
/-! DEFINITION. Operand forms (R60, R69): the channels in wire order, the bits of a byte in wire order, the pin's mask, the
range test of an index, and the response word. -/

namespace Sys2Proof.Machine

/-- The channel that is byte `k` on the wire (R15, R39): green, then red, then blue. -/
def wireByte (k : Fin 3) (c : Colour) : Byte :=
  match k with
  | 0 => c.g
  | 1 => c.r
  | 2 => c.b

/-- The bit numbers of a byte in wire order, most significant first (R76). -/
def bitOrder : List (Fin 8) := [7, 6, 5, 4, 3, 2, 1, 0]

/-- The bits of a byte in wire order (R76). -/
def byteBits (v : Byte) : List Bool := bitOrder.map fun (b : Fin 8) => v.getLsbD b.val

/-- `wirebits(c)` of R51: the 24 bits of a colour in the order they are sent. -/
def wirebits (c : Colour) : List Bool := byteBits c.g ++ byteBits c.r ++ byteBits c.b

/-- `1 << pin` (R24, R69.2, D6); used for `pin < PORT_W` only. -/
def pinBit (pin : Byte) : PortBits := 1#256 <<< pin.toNat

/-- The index or the count a command's `idx` field gives: an `IDX_W`-bit number (R60). Where `IDX_W` is narrower than the field, its
low bits (DESIGN CHOICE, unsafe there: log entry 5). -/
def idxOperand (p : Params) (v : Idx) : Idx := BitVec.ofNat 16 (v.toNat % 2 ^ p.idxW)

/-- The range test `index < COUNT`, unsigned on `IDX_W` bits, on a store that exists (R40, D32). -/
def State.holdsIndex (s : State) (index : Idx) : Bool := s.buffered && decide (index < s.count)

/-- The response word (R65): `valid`, then the colour packed as in R60. -/
def rspOf (valid : Bool) (c : Colour) : RspWord := flagBit valid ++ packColour c

end Sys2Proof.Machine
end

