-- ==== Sys2Proof/Machine/Ops.lean ====
section
/-! DEFINITION. The named operations over the store and the registers: reading and writing an entry (R37, R38), the register
writes, the pulse primitive `drive` and `hold` (R9, R84), the sequencer's advance (R16), the frame every command runs in (R19)
and reset (R120, R122). The block takes no exception (R100) and so returns from none (R110, R111): there is no such operation. -/

namespace Sys2Proof.Machine

/-! ### The store -/

/-- The entry at an index: the colour last written, or black if none has been (R37). -/
def Memory.read : Memory → Nat → Colour
  | [], _ => Colour.black
  | (j, d) :: m, i => if j = i then d else Memory.read m i

/-- The store with colour `c` at index `i`, every other entry unchanged (R38), in canonical form: writing black removes the
entry. -/
def Memory.write : Memory → Nat → Colour → Memory
  | [], i, c => if c = Colour.black then [] else [(i, c)]
  | (j, d) :: m, i, c =>
    if i < j then (if c = Colour.black then (j, d) :: m else (i, c) :: (j, d) :: m)
    else if i = j then (if c = Colour.black then m else (i, c) :: m)
    else (j, d) :: Memory.write m i c

/-- One colour written at every index below `n`, in index order (R91). -/
def Memory.fill (m : Memory) (n : Nat) (c : Colour) : Memory :=
  (List.range n).foldl (fun m i => Memory.write m i c) m

/-- The canonical form: indices strictly rising and no black entry listed (log entry 10). -/
def Memory.wf : Memory → Bool
  | [] => true
  | (i, c) :: m => c != Colour.black && m.all (fun e => decide (i < e.1)) && Memory.wf m

/-- Every entry listed lies below `n`: what `length(STORE) = COUNT` says of the sparse form (R33.1, R42). -/
def Memory.within (n : Nat) (m : Memory) : Bool := m.all fun e => decide (e.1 < n)

/-- A store just allocated: every entry black (R43, D17). -/
def Memory.fresh : Memory := []

/-! ### Registers -/

/-- `(x[R], x[G], x[B]) <- c` (R14). -/
def State.setColour (c : Colour) (s : State) : State := { s with x := c }

/-- `pc <- q` (R9, R16). -/
def State.goto (q : Seq) (s : State) : State := { s with seq := q }

/-- `PINMASK <- m` (R24). -/
def State.setPinMask (m : PortBits) (s : State) : State := { s with pinMask := m }

/-- `COUNT <- n` (R25). -/
def State.setCount (n : Idx) (s : State) : State := { s with count := n }

/-- `PORT_DIR <- PORT_DIR or PINMASK` (R23): the selected pin becomes an output. -/
def State.makeOutput (s : State) : State := { s with portDir := s.portDir ||| s.pinMask }

/-- The store's entries replaced. -/
def State.setStore (m : Memory) (s : State) : State := { s with store := m }

/-- The response wires (R65, R66). -/
def State.respond (r : Option RspWord) (s : State) : State := { s with rsp := r }

/-- The phase counter replaced. -/
def State.setTimer (t : Timer) (s : State) : State := { s with timer := t }

/-- The coming clock periods replaced. -/
def State.setClock (ps : List Period) (s : State) : State := { s with clock := ps }

/-- The host's coming events replaced. -/
def State.setHost (es : List HostEvent) (s : State) : State := { s with host := es }

/-- The command in progress replaced. -/
def State.setWork (w : Option Work) (s : State) : State := { s with work := w }

/-- `MemRead(index, 1)` (R37). -/
def State.memRead (index : Idx) (s : State) : Colour := s.store.read index.toNat

/-- `MemWrite(index, 1, c)` (R38). -/
def State.memWrite (index : Idx) (c : Colour) (s : State) : State := s.setStore (s.store.write index.toNat c)

/-! ### The pulse primitive -/

/-- `drive(v)` (R9, R22): sets or clears the port bit under `PINMASK`, every other bit unchanged. -/
def State.drive (v : Bool) (s : State) : State :=
  { s with portOut := (s.portOut &&& ~~~s.pinMask) ||| (if v then s.pinMask else 0) }

/-- The first of a pixel's 48 positions (R16, R77). -/
def Seq.pixelStart (pix : Idx) : Seq := ⟨.pixel, pix, 0, 7, .hi⟩

/-- The one position of a latch (R16, R80). -/
def Seq.latchHold : Seq := ⟨.latching, 0, 0, 7, .hi⟩

/-- How `SEQ` advances at the end of a phase of a bit (R16). After the pixel's last phase it stays where it is until the command
that sent the pixel moves it. -/
def Seq.next (q : Seq) : Seq :=
  match q.ph with
  | .hi => { q with ph := .lo }
  | .lo =>
    if q.b ≠ 0 then { q with b := q.b - 1, ph := .hi }
    else if q.k ≠ 2 then { q with k := q.k + 1, b := 7, ph := .hi }
    else q

/-- The start of a phase: TMR is loaded (R114) with its count, and with the deferred service unless inhibited (R106). -/
def State.startPhase (ph : Phase) (s : State) : State :=
  s.setTimer (s.timer.load (phaseCycles s.params ph) s.irqInhibit)

/-- The clock periods of a phase, as the environment makes them (R105). -/
def State.runPhase (ph : Phase) (s : State) : State :=
  let r := Timer.run (isBitPhase ph) s.irqInhibit s.clock s.timer
  (s.setTimer r.1).setClock r.2

/-- The event a phase appends to `TRACE` (R9, R27): the line's level, the nominal duration and `IRQ_INHIBIT`. -/
def State.eventOf (ph : Phase) (s : State) : Event := ⟨s.line, nominalNs s.params ph, s.irqInhibit⟩

/-- The realised span of a phase (R107): clock periods, or for a gap its nominal ns and the clock periods of service; for a gap or a
latch also what the timing means added. At a clock that is not valid too, where R72 and U10 promise nothing (DESIGN CHOICE, unsafe there:
log entry 25). -/
def State.spanOf (ph : Phase) (s : State) : Span :=
  match ph with
  | .gap => ⟨ph, s.line, s.timer.service, s.params.gapNs, s.timer.excess, s.seq⟩
  | .latch => ⟨ph, s.line, s.timer.elapsed, 0, s.timer.excess, s.seq⟩
  | _ => ⟨ph, s.line, s.timer.elapsed, 0, 0, s.seq⟩

/-- The end of a phase: its event and its span are recorded, TMR is back at 0 and `SEQ` advances if a pixel is being sent. -/
def State.endPhase (ph : Phase) (s : State) : State :=
  { s with
    trace := s.trace ++ [s.eventOf ph]
    wire := s.wire ++ [s.spanOf ph]
    seq := if s.seq.top = .pixel then s.seq.next else s.seq
    timer := ⟨0, s.timer.pending, 0, 0, 0⟩ }

/-- `hold(n, inh)` (R9, R70): the line keeps its level for the phase's nominal duration. -/
def State.hold (ph : Phase) (s : State) : State := ((s.startPhase ph).runPhase ph).endPhase ph

/-! ### The frame of a command, and reset -/

/-- `BUSY <- 1`: a command is accepted (R19). No response is on the port any more (R66: `rsp_valid` lasts one period). -/
def State.beginCommand (s : State) : State := (s.setBusy true).respond none

/-- The end of a command that moved the sequencer: `pc <- (IDLE, 0, 0, 7, HI)`, `BUSY <- 0` (R16, R19). -/
def State.endCommand (s : State) : State := (s.goto Seq.rest).setBusy false

/-- `rst_n = 0` on a running block (R120, R122): the table of R32. The port's latches are not reset and no direction bit
changes (R120, R122), but a transmission cut short leaves the line at any level (U2); the colour latches are at any value (R32).
What is not the block's (the parameters, the host's events, the environment's periods) stands. DEDUCED, log entry 12. -/
def State.warmReset (s : State) : State :=
  { State.reset with
    x := ⟨Config.freeByte s.draws, Config.freeByte (s.draws + 1), Config.freeByte (s.draws + 2)⟩
    portOut := if s.seq.top = .idle then s.portOut else (s.drive (Config.freeLevel s.draws)).portOut
    portDir := s.portDir
    draws := s.draws + 3
    params := s.params
    host := s.host
    clock := s.clock }

end Sys2Proof.Machine
end

