-- ==== Sys2Proof/Machine/PulseEncoder.lean ====
section
/-! DEFINITION. The pulse encoder (spec/40_pulse_encoder.md): the internal procedures BIT1, BIT0, BYTE, PIXEL and LATCHSEQ, and
the commands SEND1 and LATCH. -/

namespace Sys2Proof.Machine

/-- BIT1 (R73). -/
def bit1 (s : State) : State := ((((s.drive true).hold .t1h).drive false).hold .t1l)

/-- BIT0 (R74): interrupts are inhibited from before the rising edge to right after the falling edge. -/
def bit0 (s : State) : State :=
  ((((((s.setInhibit true).drive true).hold .t0h).drive false).setInhibit false).hold .t0l)

/-- One bit of the wire: BIT1 or BIT0 (R76). -/
def sendBit (v : Bool) (s : State) : State := if v then bit1 s else bit0 s

/-- Some bits of a byte, in the order given. -/
def sendBits (v : Byte) (bs : List (Fin 8)) (s : State) : State :=
  bs.foldl (fun (s : State) (b : Fin 8) => sendBit (v.getLsbD b.val) s) s

/-- BYTE(v) (R76): the 8 bits of `v`, most significant first. -/
def sendByte (v : Byte) (s : State) : State := sendBits v bitOrder s

/-- Byte `k` of the colour register file, in wire order (R77). -/
def sendChannel (k : Fin 3) (s : State) : State := sendByte (wireByte k s.x) s

/-- PIXEL (R77): the colour in the colour register file, green, red, blue; `pix` is the store index being sent, 0 outside
SENDALL (R15). -/
def sendPixel (pix : Idx) (s : State) : State :=
  sendChannel 2 (sendChannel 1 (sendChannel 0 (s.goto (Seq.pixelStart pix))))

/-- LATCHSEQ (R80). -/
def latchSeq (s : State) : State := ((s.goto Seq.latchHold).drive false).hold .latch

/-- SEND1 (R78). Refused before any INIT (U4). -/
def execSend1 (c : Colour) (s : State) : Host.Outcome State Fault Refusal :=
  if s.configured = false then .refused .notConfigured
  else .next (State.endCommand (sendPixel 0 (s.beginCommand.setColour c)))

/-- LATCH (R81). Refused before any INIT (U4). -/
def execLatch (s : State) : Host.Outcome State Fault Refusal :=
  if s.configured = false then .refused .notConfigured
  else .next (State.endCommand (latchSeq s.beginCommand))

end Sys2Proof.Machine
end

