-- ==== Sys2Proof/Machine/StoreDriver.lean ====
section
/-! DEFINITION. The pixel store and driver (spec/41_store_driver.md): INIT, SETAT, SETALL, SENDALL and GETAT. -/

namespace Sys2Proof.Machine

/-- R86 step 1: the refusals of INIT, U3 before U1. `count` is the operand, `IDX_W` bits. -/
def initRefusal (pin : Byte) (count : Idx) (buffered : Bool) (s : State) : Option Refusal :=
  if s.params.portW ≤ pin.toNat then some .pinOutOfRange
  else if buffered && decide (s.params.maxPixels < count.toNat) then some .storeTooLarge
  else none

/-- R86 steps 2 (LineConfig) to 4 (the colour latches): what INIT does before its blanking pulse. -/
def initLine (pin : Byte) (count : Idx) (s : State) : State :=
  ((((s.setPinMask (pinBit pin)).setCount count).makeOutput).setConfigured true).setColour Colour.black

/-- R86 step 6: the store is allocated, reallocated, kept or freed (R43). `old` is COUNT as it was before. -/
def initStore (count : Idx) (buffered : Bool) (old : Idx) (s : State) : State :=
  if buffered then
    (if s.buffered = false ∨ old ≠ count ∨ s.params.reinitClears = true then s.setStore Memory.fresh else s).setBuffered true
  else (s.setStore []).setBuffered false

/-- INIT (R86). -/
def execInit (pin : Byte) (count : Idx) (buffered : Bool) (s : State) : Host.Outcome State Fault Refusal :=
  let n := idxOperand s.params count
  match initRefusal pin n buffered s with
  | some r => .refused r
  | none => .next (State.endCommand (initStore n buffered s.count (latchSeq (sendPixel 0 (initLine pin n s.beginCommand)))))

/-- SETAT's write (R89): ignored with no store (IC1) or out of range (IC2). -/
def storeSetAt (index : Idx) (c : Colour) (s : State) : State :=
  if s.holdsIndex index then s.memWrite index c else s

/-- SETAT (R89). -/
def execSetAt (index : Idx) (c : Colour) (s : State) : Host.Outcome State Fault Refusal :=
  .next ((storeSetAt (idxOperand s.params index) c s.beginCommand).setBusy false)

/-- SETALL's writes (R91): ignored with no store (IC1). -/
def storeSetAll (c : Colour) (s : State) : State :=
  if s.buffered then s.setStore (s.store.fill s.count.toNat c) else s

/-- SETALL (R91). -/
def execSetAll (c : Colour) (s : State) : Host.Outcome State Fault Refusal :=
  .next ((storeSetAll c s.beginCommand).setBusy false)

/-- The gap before entry `i` (R93): only between two pixels, and only if `GAP_NS > 0`. -/
def sendGap (i : Nat) (s : State) : State := if 0 < i ∧ 0 < s.params.gapNs then s.hold .gap else s

/-- One turn of SENDALL's walk (R93). -/
def sendEntry (i : Nat) (s : State) : State :=
  let s := sendGap i s
  sendPixel (BitVec.ofNat 16 i) (s.setColour (s.memRead (BitVec.ofNat 16 i)))

/-- SENDALL's walk over the first `n` entries, in index order (R93). -/
def sendEntries (n : Nat) (s : State) : State := (List.range n).foldl (fun s i => sendEntry i s) s

/-- SENDALL (R93): ignored with no store (IC3). -/
def execSendAll (s : State) : Host.Outcome State Fault Refusal :=
  .next (State.endCommand
    (if s.buffered then latchSeq (sendEntries s.count.toNat s.beginCommand) else s.beginCommand))

/-- GETAT's response (R97): the entry with `valid = 1`, or `valid = 0` and a zero colour (IC1, IC2). -/
def getAtResponse (index : Idx) (s : State) : RspWord :=
  if s.holdsIndex index then rspOf true (s.memRead index) else rspOf false Colour.black

/-- GETAT (R97). -/
def execGetAt (index : Idx) (s : State) : Host.Outcome State Fault Refusal :=
  .next ((s.beginCommand.respond (some (getAtResponse (idxOperand s.params index) s))).setBusy false)

end Sys2Proof.Machine
end

