-- ==== Sys2Proof/Machine/Clock.lean ====
section
/-! DEFINITION. The block clock period by clock period: the command port (R66), the sequencer that walks the positions of R15
and R16, and the phase counter under `stall` (R105, R106, R109, R114). `tick` is one rising clock edge with the port's inputs as
arguments. `exec` runs a whole command at once; `busyRun` from an accepted command comes to the same state. -/

namespace Sys2Proof.Machine

/-- The inputs of the port over one clock period (R66). `linger` and `extra` are the model's: they leave open how long a latch, a
gap and a command that does not transmit last (D31, U11; log entries 8, 9, 17). -/
structure PortIn where
  /-- `rst_n`, active low -/
  rstN : Bool
  /-- `cmd_valid` -/
  cmdValid : Bool
  /-- `cmd` -/
  cmd : CmdWord
  /-- `stall` -/
  stall : Bool
  linger : Bool
  extra : Nat
deriving DecidableEq, Repr

/-- The bit the sequencer's position names (R15). -/
def seqBit (s : State) : Bool := (wireByte s.seq.k s.x).getLsbD s.seq.b.val

/-- The phase of one half of a bit of value `v` (R73, R74). -/
def bitPhaseOf (half : BitHalf) (v : Bool) : Phase :=
  match half, v with
  | .hi, true => .t1h
  | .hi, false => .t0h
  | .lo, true => .t1l
  | .lo, false => .t0l

/-- The phase the block is in, from the sequencer's position, the bit there and the command in progress. -/
def phaseNow (s : State) : Phase :=
  if s.seq.top = .latching then .latch
  else if s.work = some (.sendAll true) then .gap
  else bitPhaseOf s.seq.ph (seqBit s)

/-- Entering the phase of a bit: the edges of BIT1 (R73) and BIT0 (R74, D13), and TMR loaded. -/
def enterBit (s : State) : State :=
  match s.seq.ph, seqBit s with
  | .hi, true => (s.drive true).startPhase .t1h
  | .hi, false => ((s.setInhibit true).drive true).startPhase .t0h
  | .lo, true => (s.drive false).startPhase .t1l
  | .lo, false => ((s.drive false).setInhibit false).startPhase .t0l

/-- Entering a pixel (R77). -/
def enterPixel (pix : Idx) (s : State) : State := enterBit (s.goto (Seq.pixelStart pix))

/-- Entering the latch low period (R80). -/
def enterLatch (s : State) : State := ((s.goto Seq.latchHold).drive false).startPhase .latch

/-- The next entry of a SENDALL (R93). -/
def enterEntry (i : Idx) (s : State) : State :=
  enterPixel i ((s.setWork (some (.sendAll false))).setColour (s.memRead i))

/-- The end of a command: INIT's store step (R86 step 6), then idle (R16, R19). The store step takes no clock period of its own: it is
made, and `BUSY` falls, at the edge that ends the latch. U11 and R134 leave the time of an allocation at any finite value (DESIGN
CHOICE, unsafe for counts of INIT's periods: log entry 17). -/
def finish (s : State) : State :=
  match s.work with
  | some (.init count buffered old) => State.endCommand ((initStore count buffered old s).setWork none)
  | _ => State.endCommand (s.setWork none)

/-- What follows the last phase of a pixel: control returns to the command that started it (R16, R78, R86, R93). -/
def pixelDone (s : State) : State :=
  match s.work with
  | some (.init _ _ _) => enterLatch s
  | some (.sendAll _) =>
    if s.seq.pix.toNat + 1 < s.count.toNat then
      (if 0 < s.params.gapNs then (s.setWork (some (.sendAll true))).startPhase .gap else enterEntry (s.seq.pix + 1) s)
    else enterLatch s
  | _ => finish s

/-- Whether the sequencer is at the last of a pixel's 48 positions (R16). -/
def lastPosition (q : Seq) : Bool := decide (q.k = 2 ∧ q.b = 0 ∧ q.ph = .lo)

/-- What follows a phase that has just ended: `s` is the state at its end, before `endPhase`. -/
def afterPhase (s : State) : State :=
  match phaseNow s with
  | .latch => finish (s.endPhase .latch)
  | .gap => enterEntry (s.seq.pix + 1) (s.endPhase .gap)
  | ph => if lastPosition s.seq then pixelDone (s.endPhase ph) else enterBit (s.endPhase ph)

/-- The effect of a command that drives no phase, made as it completes. GETAT's response is on the port in the clock period that begins
at this edge, with `BUSY` already 0 (DESIGN CHOICE: R66 says the period in which GETAT completes, and R97 writes `rsp_valid` before
`BUSY`; log entry 11). -/
def finishQuick (i : Instr) (s : State) : State :=
  match i with
  | .setAt index c => ((storeSetAt (idxOperand s.params index) c s).setWork none).setBusy false
  | .setAll c => ((storeSetAll c s).setWork none).setBusy false
  | .getAt index => ((s.respond (some (getAtResponse (idxOperand s.params index) s))).setWork none).setBusy false
  | _ => State.endCommand (s.setWork none)

/-- One clock period of a phase (R105, R106, R114). -/
def phaseTick (p : Period) (s : State) : State :=
  let s' := s.setTimer (s.timer.period s.irqInhibit p)
  if s'.timer.over (isBitPhase (phaseNow s)) s.irqInhibit p then afterPhase s' else s'

/-- One clock period of a busy block. The command word on the port is not looked at (R19, R66). -/
def busyTick (p : Period) (s : State) : State :=
  match s.work with
  | some (.quick i) => if p.linger then s.respond none else finishQuick i (s.respond none)
  | _ => phaseTick p (s.respond none)

/-- A command is accepted (R66): `BUSY` becomes 1 at this edge and its first phase, if it has one, begins. -/
def accept (i : Instr) (s : State) : Host.Outcome State Fault Refusal :=
  match i with
  | .init pin count buffered =>
    let n := idxOperand s.params count
    match initRefusal pin n buffered s with
    | some r => .refused r
    | none => .next (enterPixel 0 ((initLine pin n s.beginCommand).setWork (some (.init n buffered s.count))))
  | .send1 c =>
    if s.configured = false then .refused .notConfigured
    else .next (enterPixel 0 ((s.beginCommand.setColour c).setWork (some .send1)))
  | .latch =>
    if s.configured = false then .refused .notConfigured
    else .next (enterLatch (s.beginCommand.setWork (some .latch)))
  | .sendAll =>
    if s.buffered then
      (if s.count = 0 then .next (enterLatch (s.beginCommand.setWork (some (.sendAll false))))
       else .next (enterEntry 0 s.beginCommand))
    else .next (s.beginCommand.setWork (some (.quick .sendAll)))
  | .setAt index c => .next (s.beginCommand.setWork (some (.quick (.setAt index c))))
  | .setAll c => .next (s.beginCommand.setWork (some (.quick (.setAll c))))
  | .getAt index => .next (s.beginCommand.setWork (some (.quick (.getAt index))))

/-- One rising clock edge (R66, R120). Reset goes before everything; a busy block takes no word; a reserved word is accepted and
completes at once (R62). -/
def tick (inp : PortIn) (s : State) : Host.Outcome State Fault Refusal :=
  if inp.rstN = false then .next s.warmReset
  else if s.busy then .next (busyTick ⟨inp.stall, inp.linger, inp.extra⟩ s)
  else if inp.cmdValid then
    match decode inp.cmd with
    | .instr i => accept i (s.respond none)
    | .reservedOp _ => .next (s.respond none)
  else .next (s.respond none)

/-- The environment's next clock period, and the state with it taken from `clock`. A list that has run out stands for quiet
periods (log entry 7). -/
def takePeriod (s : State) : Period × State :=
  match s.clock with
  | [] => (Period.quiet, s)
  | p :: ps => (p, s.setClock ps)

/-- One clock period of a busy block, its inputs taken from the state: the periods of `clock` are those of phases, so a command
that drives none takes one quiet period (log entry 17). -/
def busyStep (s : State) : State :=
  match s.work with
  | some (.quick _) => busyTick Period.quiet s
  | _ => busyTick (takePeriod s).1 (takePeriod s).2

/-- At most `n` clock periods of a busy block; it stops early where the command completes. -/
def busyRun : Nat → State → State
  | 0, s => s
  | n + 1, s => if s.busy then busyRun n (busyStep s) else s

/-- One clock period of a busy block, the host's next event looked at: a reset comes at once (R122); anything else waits, `cmd_ready`
being 0 (R66). -/
def clockStep (s : State) : State :=
  match s.host with
  | .reset :: es => (s.setHost es).warmReset
  | _ => busyStep s

/-- A command word accepted, and `rst_n` pulled low `n` clock periods later (R122): the command is abandoned where it is. A word the
block refuses is refused as ever; a reserved word has completed at once (R62). -/
def cutShort (w : CmdWord) (n : Nat) (s : State) : Host.Outcome State Fault Refusal :=
  match decode w with
  | .reservedOp _ => .next s.warmReset
  | .instr i =>
    match accept i s with
    | .next t => .next (busyRun n t).warmReset
    | .fault r => .fault r
    | .refused r => .refused r

end Sys2Proof.Machine
end

