-- ==== Sys2Proof/Machine/Dispatch.lean ====
section
/-! DEFINITION. One arm per command: a direct call of its meaning. -/

namespace Sys2Proof.Machine

def exec (i : Instr) (s : State) : Host.Outcome State Fault Refusal :=
  match i with
  | .init pin count buffered => Sys2Proof.Machine.execInit pin count buffered s
  | .send1 c => Sys2Proof.Machine.execSend1 c s
  | .latch => Sys2Proof.Machine.execLatch s
  | .setAt index c => Sys2Proof.Machine.execSetAt index c s
  | .setAll c => Sys2Proof.Machine.execSetAll c s
  | .sendAll => Sys2Proof.Machine.execSendAll s
  | .getAt index => Sys2Proof.Machine.execGetAt index s

end Sys2Proof.Machine
end

