-- ==== Sys2Proof/Machine/Step.lean ====
section
/-! DEFINITION. One step: the host's next event at the command port, run whole (R19, R45). The block fetches nothing (R15, R48):
what stands in place of a fetch is the word the host presents next. -/

namespace Sys2Proof.Machine

/-- A command word accepted (R62, R66): the command it decodes to is run; a reserved word changes nothing (IC4). -/
def runWord (w : CmdWord) (s : State) : Host.Outcome State Fault Refusal :=
  match decode w with
  | .instr i => exec i s
  | .reservedOp _ => .next (s.respond none)

/-- One step. Idle (R121), the block takes the host's next event, or waits if there is none. A busy block, which only `tick` makes, takes no word (R66) and goes on by one clock period. -/
def step (s : State) : Host.Outcome State Fault Refusal :=
  if s.busy then .next (clockStep s)
  else
    match s.host with
    | [] => .next (s.respond none)
    | .reset :: es => .next (s.setHost es).warmReset
    | .word w :: es => runWord w (s.setHost es)
    | .cutWord w n :: es => cutShort w n (s.setHost es)

/-- The state with a word presented at the port, so that the next step takes it: it is the host's next event and the block is
ready for it (`cmd_ready = 1`). -/
def State.withFetchWord (s : State) (nbits w : Nat) : State :=
  { s with host := .word (BitVec.ofNat 48 (w % 2 ^ nbits)) :: s.host, busy := false }

end Sys2Proof.Machine
end

