-- ==== Sys2Proof/Machine/Program.lean ====
section
/-! DEFINITION. Command lists: running one, and the pseudo-instructions of R68, each an expansion into commands. -/

namespace Sys2Proof.Machine

/-- A command list run in order, each command complete before the next (R45); the first refusal ends it. -/
def execList : List Instr → State → Host.Outcome State Fault Refusal
  | [], s => .next s
  | i :: is, s =>
    match exec i s with
    | .next t => execList is t
    | .fault r => .fault r
    | .refused r => .refused r

/-- `blanking pulse` of R68. -/
def blankingPulse : List Instr := [.send1 Colour.black]

/-- `unbuffered frame of n pixels` of R68. -/
def unbufferedFrame (cs : List Colour) : List Instr := cs.map Instr.send1 ++ [.latch]

/-- `buffered frame` of R68, its writes being SETAT commands. -/
def bufferedFrame (writes : List (Idx × Colour)) : List Instr :=
  writes.map (fun e => Instr.setAt e.1 e.2) ++ [.sendAll]

/-- `buffered frame` of R68, its write being a SETALL. -/
def filledFrame (c : Colour) : List Instr := [.setAll c, .sendAll]

/-- `line reset` of R68. -/
def lineReset : List Instr := [.send1 Colour.black, .latch]

end Sys2Proof.Machine
end

