-- ==== Sys2Proof/Machine/Wire.lean ====
section
/-! DEFINITION. What the wire carries (spec/30_encoding.md section 1) and how a trace is read: the symbols of R52 to R54, durations
(R56), `normalise` (R27), the realised-trace relation of R107, and the reference receiver of R58. -/

namespace Sys2Proof.Machine

/-! ### Nominal traces -/

/-- The wire symbol of a bit: R52 for a 1, R53 for a 0. -/
def bitEvents (p : Params) (v : Bool) : List Event :=
  if v then [⟨true, p.t1hNs, false⟩, ⟨false, p.t1lNs, false⟩]
  else [⟨true, p.t0hNs, true⟩, ⟨false, p.t0lNs, false⟩]

/-- The events of a colour: the symbols of its 24 wire bits (R51, R55, R79). -/
def pixelEvents (p : Params) (c : Colour) : List Event := (wirebits c).flatMap (bitEvents p)

/-- The wire symbol of the end of a frame (R54). -/
def latchEvent (p : Params) : Event := ⟨false, latchNs p, false⟩

/-- The gap events between two pixels of a SENDALL (R93, R94). -/
def gapEvents (p : Params) : List Event := if 0 < p.gapNs then [⟨false, p.gapNs, false⟩] else []

/-- The events of a store's colours, in order, with the gaps between them (R94). -/
def colourEvents (p : Params) : List Colour → List Event
  | [] => []
  | [c] => pixelEvents p c
  | c :: d :: cs => pixelEvents p c ++ gapEvents p ++ colourEvents p (d :: cs)

/-- The store's entries as the list the spec writes (R28): one colour per index below `COUNT`. -/
def State.entries (s : State) : List Colour := (List.range s.count.toNat).map fun i => s.store.read i

/-- The nominal duration of a trace, ns: durations are added exactly (R69.5). -/
def traceNs (es : List Event) : Nat := (es.map (·.dur)).sum

/-- `dur(c)` of R56, from the number of 1 bits among the 24. -/
def pixelNs (p : Params) (c : Colour) : Nat :=
  (wirebits c).count true * (p.t1hNs + p.t1lNs) + (24 - (wirebits c).count true) * (p.t0hNs + p.t0lNs)

/-- `normalise(TRACE)` of R27: each run of neighbours of one level merged, durations added and inhibits joined by `or`. -/
def normalise : List Event → List Event
  | [] => []
  | e :: es =>
    match normalise es with
    | [] => [e]
    | f :: fs =>
      if e.level = f.level then ⟨f.level, e.dur + f.dur, e.inh || f.inh⟩ :: fs else e :: f :: fs

/-! ### Realised traces -/

/-- How long a span lasted, in units of `1 / F_CLK` ns. -/
def Span.width (p : Params) (u : Span) : Nat := u.periods * periodUnits + u.ns * p.fClk + u.excess

/-- What of a span has nothing to do with time: its phase, its level and the sequencer's position. -/
def Span.untimed (u : Span) : Phase × Bool × Seq := (u.phase, u.level, u.seq)

/-- The realised-trace relation of R107 between a nominal event and its span: a bit phase lasts its cycle count, exactly if
inhibited, and otherwise that and a whole number of periods; a gap at least its nominal time; a latch at least `NL` periods. -/
def realises (p : Params) (e : Event) (u : Span) : Bool :=
  u.level == e.level && e.dur == nominalNs p u.phase &&
  match u.phase with
  | .latch => !e.inh && decide (latchCycles p * periodUnits ≤ u.width p)
  | .gap => !e.inh && decide (e.dur * p.fClk ≤ u.width p)
  | _ =>
    if e.inh then u.width p == cycles p e.dur * periodUnits
    else decide (cycles p e.dur * periodUnits ≤ u.width p) && u.width p % periodUnits == 0

/-- The realised trace realises the nominal one, event for event (R107). -/
def tracesAgree (p : Params) : List Event → List Span → Bool
  | [], [] => true
  | e :: es, u :: us => realises p e u && tracesAgree p es us
  | _, _ => false

/-- One level of the realised wire and its width, in units of `1 / F_CLK` ns. -/
structure Pulse where
  level : Bool
  width : Nat
deriving DecidableEq, Repr

/-- `normalise` on a realised trace (R58 reads the realised normalised trace). -/
def normaliseWire (p : Params) : List Span → List Pulse
  | [] => []
  | u :: us =>
    match normaliseWire p us with
    | [] => [⟨u.level, u.width p⟩]
    | q :: qs =>
      if u.level = q.level then ⟨q.level, u.width p + q.width⟩ :: qs
      else ⟨u.level, u.width p⟩ :: q :: qs

/-! ### The reference receiver (R58, informative) -/

/-- A high pulse read as a bit; none is R58's undefined (U6). The two bands are tried in R58's order: where the parameters make them
overlap (`T1H_NS - TOL_NS <= T0H_NS + TOL_NS`, which R7 does not exclude) R58 gives such a high both values, and it reads as 0 here
(DESIGN CHOICE, unsafe there: log entry 23). -/
def readHigh (p : Params) (u : Pulse) : Option Bool :=
  if p.t0hNs * p.fClk ≤ u.width + p.tolNs * p.fClk ∧ u.width ≤ (p.t0hNs + p.tolNs) * p.fClk then some false
  else if p.t1hNs * p.fClk ≤ u.width + p.tolNs * p.fClk then some true
  else none

/-- What the receiver takes from the wire. -/
inductive Received where
  /-- a bit, or none where R58 leaves its value undefined (U6) -/
  | bit (v : Option Bool)
  /-- the frame ends here -/
  | latch
  /-- a low of exactly the threshold: the frame ends here or goes on (U6) -/
  | either
deriving DecidableEq, Repr

/-- What the low after a bit adds (R58). -/
def readLow (p : Params) (u : Pulse) : List Received :=
  if p.rxLatchNs * p.fClk < u.width then [.latch]
  else if u.width = p.rxLatchNs * p.fClk then [.either]
  else []

/-- The receiver on a normalised realised trace: pairs of a high and the low after it. -/
def receive (p : Params) : List Pulse → List Received
  | h :: l :: us =>
    if h.level && !l.level then .bit (readHigh p h) :: (readLow p l ++ receive p us) else receive p (l :: us)
  | _ => []

end Sys2Proof.Machine
end

