-- ==== Sys2Proof/Safety.lean ====
section
/-! DEFINITION. What counts as a sound state and a safe run: the invariants of R33 (between commands, and clock period by clock
period), and the duties H1 to H5 of R126 to R130 as premises of a claim about the receiver. -/

namespace Sys2Proof.Machine

/-- Exactly one of the port's bits is 1 (R24, R33.2). -/
def oneBit (p : Params) (m : PortBits) : Bool := (List.range (min p.portW Config.pinsNamed)).any fun k => m == 1#256 <<< k

/-- A port register has no bit at or above `PORT_W` (R22, R23). -/
def portFits (p : Params) (v : PortBits) : Bool := decide (v.toNat < 2 ^ p.portW)

/-- R33.5: an event with `inh = 1` is a high of `T0H_NS`. -/
def inhibitedOk (p : Params) (e : Event) : Bool := !e.inh || (e.level && e.dur == p.t0hNs)

/-- The state between two commands: the invariants of R33 that need no history, and the resting values of R16, R29 and R32. R33.6
compares with the state at reset and is stated as a frame. -/
structure Inv (s : State) : Prop where
  /-- no command is in progress -/
  idle : s.busy = false
  noWork : s.work = none
  /-- R33.3 -/
  notInhibited : s.irqInhibit = false
  /-- R33.3, R16 -/
  atRest : s.seq = Seq.rest
  /-- R29 -/
  timerRest : s.timer = Timer.rest
  /-- R33.1 -/
  storeConfigured : s.buffered = true → s.configured = true
  /-- R33.1: `length(STORE) = COUNT` -/
  storeWithin : s.store.within s.count.toNat = true
  /-- log entry 10 -/
  storeWf : s.store.wf = true
  /-- R28: no store while `BUFFERED = 0` -/
  storeAbsent : s.buffered = false → s.store = []
  /-- R33.2 -/
  onePin : s.configured = true → oneBit s.params s.pinMask = true
  /-- R22 -/
  outFits : portFits s.params s.portOut = true
  /-- R23 -/
  dirFits : portFits s.params s.portDir = true
  /-- R25: `COUNT` is `IDX_W` bits -/
  countFits : s.count.toNat < 2 ^ s.params.idxW
  /-- R33.2 -/
  pinIsOutput : s.configured = true → s.portDir &&& s.pinMask = s.pinMask
  /-- R33.4 -/
  lineLow : s.configured = true → s.line = false
  /-- R33.5 -/
  inhibited : ∀ e ∈ s.trace, inhibitedOk s.params e = true
  /-- R107: the realised trace realises the nominal one; at every clock, also one that is not valid, of which R72 promises nothing
  (log entry 25) -/
  realised : tracesAgree s.params s.trace s.wire = true

/-- Whether the block is in the high phase of a bit, as the sequencer says (R15). -/
def inHighPhase (s : State) : Bool := decide (s.seq.top = .pixel) && (phaseNow s == .t1h || phaseNow s == .t0h)

/-- What holds at every clock edge, busy or idle: the inhibit is exactly the high phase of a 0-bit (R20, R104), the line is high
exactly in a high phase (R52, R53, R54), `BUSY` goes with the sequencer (R19), and a gap is a gap of a SENDALL (R93). The clauses on the
command in progress are about the model's own field (log entry 16). -/
structure ClockInv (s : State) : Prop where
  /-- R20, R104 -/
  inhibitExact : s.irqInhibit = (decide (s.seq.top = .pixel) && phaseNow s == .t0h)
  /-- R22, R52 to R54, R33.4 -/
  lineExact : s.configured = true → s.line = inHighPhase s
  /-- R19: a sequencer position is held only while busy -/
  movingBusy : s.seq.top ≠ .idle → s.busy = true ∧ s.configured = true ∧ ∃ w, s.work = some w ∧ ∀ i, w ≠ .quick i
  /-- R19; a command that drives no phase is busy with the sequencer at rest (log entry 14) -/
  restingWork : s.seq.top = .idle → s.busy = true → ∃ i, s.work = some (.quick i)
  /-- idle, no command is in progress -/
  idleWork : s.busy = false → s.work = none ∧ s.seq.top = .idle
  /-- R93: the gap follows a pixel's last phase; that SEQ stays at that phase's position during it is the model's choice (log
  entry 15) -/
  gapPlace : s.work = some (.sendAll true) → s.seq.top = .pixel ∧ lastPosition s.seq = true
  /-- R33.2 -/
  onePin : s.configured = true → oneBit s.params s.pinMask = true
  /-- R33.1 -/
  storeConfigured : s.buffered = true → s.configured = true
  /-- R33.5 -/
  inhibited : ∀ e ∈ s.trace, inhibitedOk s.params e = true

/-- What every command but INIT leaves unchanged: the store's state, LineConfig and the direction latch (R83, R92, R96), and the
model's own fields that are no command's to write. -/
structure KeepsLine (s t : State) : Prop where
  configured : t.configured = s.configured
  buffered : t.buffered = s.buffered
  portDir : t.portDir = s.portDir
  pinMask : t.pinMask = s.pinMask
  count : t.count = s.count
  params : t.params = s.params
  host : t.host = s.host
  work : t.work = s.work
  draws : t.draws = s.draws

/-- The block at rest after a command: not busy, the inhibit released, the sequencer at its resting value (R16, R19, R33.3). -/
structure AtRest (t : State) : Prop where
  busy : t.busy = false
  notInhibited : t.irqInhibit = false
  seq : t.seq = Seq.rest
  timer : t.timer = Timer.rest

/-- The state a reset leaves (R32, R120), but for what it leaves at any value (`x`, the port's latches) and what is not the
block's (the parameters and the inputs). -/
structure IsReset (t : State) : Prop where
  atRest : AtRest t
  configured : t.configured = false
  buffered : t.buffered = false
  pinMask : t.pinMask = 0
  count : t.count = 0
  store : t.store = []
  trace : t.trace = []
  rsp : t.rsp = none
  work : t.work = none

/-- A command that leaves entry `index` of a Buffered store of `count` entries as it is (R90): no write at it, and no INIT that
reallocates or frees the store. `index` and `count` are `IDX_W`-bit numbers. -/
def sparesEntry (p : Params) (index count : Idx) : Instr → Bool
  | .init _ n buffered => buffered && idxOperand p n == count && !p.reinitClears
  | .send1 _ => true
  | .latch => true
  | .setAt i _ => idxOperand p i != index
  | .setAll _ => false
  | .sendAll => true
  | .getAt _ => true

/-- A command is an INIT. -/
def isInit : Instr → Bool
  | .init _ _ _ => true
  | _ => false

/-- A command is an INIT that names this pin. -/
def namesPin (pin : Byte) : Instr → Bool
  | .init p _ _ => p == pin
  | _ => false

/-- The events of the blanking pulse and its latch (R86 steps 4 and 5): 24 0-bits and a latch. -/
def initEvents (p : Params) : List Event :=
  (List.replicate 24 [⟨true, p.t0hNs, true⟩, ⟨false, p.t0lNs, false⟩]).flatten ++ [⟨false, latchNs p, false⟩]

/-- The sequencer position of event `e` of a pixel's 48 (R16). -/
def positionOf (pix : Idx) (e : Nat) : Seq :=
  ⟨.pixel, pix, Fin.ofNat 3 (e / 16), Fin.ofNat 8 (7 - e % 16 / 2), if e % 2 = 0 then .hi else .lo⟩

/-- The premises on the parameters under which R58's receiver reads the wire: R7 (a) to (d), and the bands of a 0-bit and a 1-bit
of R58 apart. -/
def receiverPremises (p : Params) : Bool :=
  paramsOk p && clockValid p && decide (p.t0hNs + p.tolNs < p.t1hNs - p.tolNs)

/-- H2 (R127) on a piece of the realised wire: every low other than a latch stays under the receiver's threshold. -/
def lowsShort (p : Params) (us : List Span) : Bool :=
  (normaliseWire p (us.filter fun u => u.phase != .latch)).all fun q =>
    q.level || decide (q.width < p.rxLatchNs * p.fClk)

/-- H1 (R126): what has been sent ends with a latch. -/
def frameLatched (us : List Span) : Bool :=
  match us.getLast? with
  | none => true
  | some u => u.phase == .latch

/-- H5 (R130, R72): the block runs at a valid clock; the clock does not change, `params` being fixed. -/
def clockKept (s : State) : Bool := clockValid s.params


end Sys2Proof.Machine
end

