-- ==== Sys2Proof/Certificates/Slice0/Obligations.lean ====
section
/-! DEFINITION. The statements for the provers. Each docstring says which rule of spec/ it formalises. -/

open Sys2Proof Sys2Proof.Machine

/-! ### Encoding -/

/-- R61, R63: the decoder reads from the canonical word of any command that command, every operand at every value (an out-of-range
pin included: it decodes and is refused later). -/
def Obligations.DecodeEncode : Prop :=
  ∀ i : Instr, decode (encode i) = .instr i

/-- R61, R63: a word that decodes to a command is that command's canonical word but for the bits the command does not use. -/
def Obligations.EncodeDecode : Prop :=
  ∀ (w : CmdWord) (i : Instr), decode w = .instr i → encode i = w &&& usedBits (cmdOp w)

/-- R63: two words that differ only in bits the command does not use are the same command, and the canonical word has those bits
zero. -/
def Obligations.UnusedBitsIgnored : Prop :=
  (∀ w w' : CmdWord, cmdOp w = cmdOp w' → w &&& usedBits (cmdOp w) = w' &&& usedBits (cmdOp w) → decode w = decode w')
    ∧ ∀ i : Instr, encode i &&& usedBits (cmdOp (encode i)) = encode i

/-- R61, from the worked words of spec/95_test_vectors.md (V4.3, V2.6, V7.6, V5.1, V7.11, V7.12, V7.13, V7.2). -/
def Obligations.DecodeWords : Prop :=
  decode 0x110005000003 = .instr (.init 3 5 true) ∧ decode 0x200000123456 = .instr (.send1 ⟨0x12, 0x34, 0x56⟩)
    ∧ decode 0x3FFFFFFFFFFF = .instr .latch ∧ decode 0x4000020A141E = .instr (.setAt 2 ⟨10, 20, 30⟩)
    ∧ decode 0x5ABCDE050505 = .instr (.setAll ⟨5, 5, 5⟩) ∧ decode 0x6123456789AB = .instr .sendAll
    ∧ decode 0x700002FFFFFF = .instr (.getAt 2) ∧ decode 0x800000000000 = .reservedOp 8

/-! ### The step -/

/-- R45, R66: an idle block runs the command its next word decodes to, the word taken from the host's events. -/
def Obligations.StepRunsDecoded : Prop :=
  ∀ (s : State) (w : CmdWord) (es : List HostEvent) (i : Instr),
    s.busy = false → s.host = .word w :: es → decode w = .instr i → step s = exec i { s with host := es }

/-- R62: a word with a reserved op is accepted and completes at once with no state change, no trace event and no response. -/
def Obligations.ReservedWordIgnored : Prop :=
  ∀ (s : State) (w : CmdWord) (es : List HostEvent),
    s.busy = false → s.host = .word w :: es → (w.toNat / 2 ^ 44 = 0 ∨ 8 ≤ w.toNat / 2 ^ 44) →
      step s = .next { s with host := es, rsp := none }

/-- R100, R102: no step faults, and what a step refuses is U1, U3 or U4. -/
def Obligations.OnlyTheSpecsRefusals : Prop :=
  ∀ s : State, (∀ f, step s ≠ .fault f)
    ∧ ∀ r, step s = .refused r → r = .storeTooLarge ∨ r = .pinOutOfRange ∨ r = .notConfigured

/-! ### The wire order -/

/-- R51: the wire bits are the bits of `g ‖ r ‖ b` from bit 23 down to bit 0. -/
def Obligations.WireOrder : Prop :=
  ∀ (c : Colour), (wirebits c).length = 24
    ∧ ∀ j, j < 24 → (wirebits c)[j]? = some ((c.g ++ c.r ++ c.b).getLsbD (23 - j))

/-! ### SEND1 and LATCH -/

/-- R78: after INIT a SEND1 completes. It writes the colour register file, leaves the line low and everything else as it was. -/
def Obligations.Send1Completes : Prop :=
  ∀ (c : Colour) (s : State), Inv s → s.configured = true →
    ∃ t, exec (.send1 c) s = .next t ∧ t.x = c ∧ t.portOut = s.portOut &&& ~~~s.pinMask ∧ t.store = s.store
      ∧ (∀ j, t.store.read j = s.store.read j) ∧ t.rsp = none ∧ AtRest t ∧ KeepsLine s t

/-- R79: the shape of what SEND1 appends to TRACE, and its duration (R56). -/
def Obligations.Send1Events : Prop :=
  ∀ (c : Colour) (s : State), Inv s → s.configured = true →
    ∃ t es, exec (.send1 c) s = .next t ∧ t.trace = s.trace ++ es ∧ es.length = 48
      ∧ (∀ j v, (wirebits c)[j]? = some v →
          es[2 * j]? = some ⟨true, if v then s.params.t1hNs else s.params.t0hNs, !v⟩
            ∧ es[2 * j + 1]? = some ⟨false, if v then s.params.t1lNs else s.params.t0lNs, false⟩)
      ∧ traceNs es = pixelNs s.params c

/-- R16: the pixel of a SEND1 visits 48 sequencer positions, in the one order, one per event. -/
def Obligations.Send1Positions : Prop :=
  ∀ (c : Colour) (s : State), Inv s → s.configured = true →
    ∃ t us, exec (.send1 c) s = .next t ∧ t.wire = s.wire ++ us
      ∧ us.map (·.seq) = (List.range 48).map (positionOf 0)

/-- R80, R81: after INIT a LATCH completes: one latch event, the line low, nothing else. -/
def Obligations.LatchCompletes : Prop :=
  ∀ s : State, Inv s → s.configured = true →
    ∃ t, exec .latch s = .next t ∧ t.trace = s.trace ++ [⟨false, latchNs s.params, false⟩]
      ∧ t.portOut = s.portOut &&& ~~~s.pinMask ∧ t.x = s.x ∧ t.store = s.store
      ∧ (∀ j, t.store.read j = s.store.read j) ∧ t.rsp = none ∧ AtRest t ∧ KeepsLine s t

/-- R78, R81, U4: before any INIT both are refused. -/
def Obligations.TransmitBeforeInitRefused : Prop :=
  ∀ (c : Colour) (s : State), s.configured = false →
    exec (.send1 c) s = .refused .notConfigured ∧ exec .latch s = .refused .notConfigured

/-- R83: SEND1 and LATCH never read STORE, COUNT or BUFFERED, and never write PINMASK, PORT_DIR, COUNT, BUFFERED or STORE. -/
def Obligations.EncoderIgnoresStore : Prop :=
  ∀ (i : Instr) (c : Colour) (s t : State) (m : Memory) (n : Idx) (b : Bool),
    i = .send1 c ∨ i = .latch → exec i s = .next t →
      exec i { s with store := m, count := n, buffered := b } = .next { t with store := m, count := n, buffered := b }
        ∧ t.pinMask = s.pinMask ∧ t.portDir = s.portDir ∧ t.count = s.count ∧ t.buffered = s.buffered
        ∧ t.store = s.store

/-! ### INIT -/

/-- R86 step 1, R60, R42: INIT is refused for a pin out of range (U3) and for a buffered count the platform cannot supply (U1). The
count is the operand's `IDX_W` bits: where `IDX_W` is under 16 that is the model's choice, log entry 5. -/
def Obligations.InitRefused : Prop :=
  ∀ (pin : Byte) (count : Idx) (buffered : Bool) (s : State),
    (s.params.portW ≤ pin.toNat → exec (.init pin count buffered) s = .refused .pinOutOfRange)
      ∧ (pin.toNat < s.params.portW → buffered = true → s.params.maxPixels < (idxOperand s.params count).toNat →
          exec (.init pin count buffered) s = .refused .storeTooLarge)

/-- R86: any other INIT completes. LineConfig, direction, CONFIGURED, the blanking pulse and its latch on the new pin, and the
line low. -/
def Obligations.InitCompletes : Prop :=
  ∀ (pin : Byte) (count : Idx) (buffered : Bool) (s : State), Inv s → pin.toNat < s.params.portW →
    (buffered = true → (idxOperand s.params count).toNat ≤ s.params.maxPixels) →
      ∃ t, exec (.init pin count buffered) s = .next t ∧ t.pinMask = 1#256 <<< pin.toNat
        ∧ t.count = idxOperand s.params count
        ∧ t.portDir = s.portDir ||| (1#256 <<< pin.toNat) ∧ t.portOut = s.portOut &&& ~~~(1#256 <<< pin.toNat)
        ∧ t.configured = true ∧ t.buffered = buffered ∧ t.x = ⟨0, 0, 0⟩ ∧ t.trace = s.trace ++ initEvents s.params
        ∧ t.rsp = none ∧ AtRest t ∧ t.params = s.params ∧ t.host = s.host ∧ t.work = s.work ∧ t.draws = s.draws

/-- R43, R86 step 6: what INIT does to the store, entry by entry: kept if it was Buffered with the same count and `REINIT_CLEARS` is
false, else absent or black. The count is the operand's `IDX_W` bits: where `IDX_W` is under 16 that is the model's choice, log
entry 5. -/
def Obligations.InitStoreLifeCycle : Prop :=
  ∀ (pin : Byte) (count : Idx) (buffered : Bool) (s t : State), exec (.init pin count buffered) s = .next t →
    t.buffered = buffered ∧ (buffered = false → t.store = [])
      ∧ ∀ j, t.store.read j =
          if buffered = true ∧ s.buffered = true ∧ s.count = idxOperand s.params count ∧ s.params.reinitClears = false then s.store.read j
          else Colour.black

/-- R87: a second INIT with the operands of the first, whatever commands other than INIT came between, leaves LineConfig, direction,
CONFIGURED, BUFFERED and (with `REINIT_CLEARS` false) the store as it finds them, and appends its own blanking pulse and latch. -/
def Obligations.InitIdempotent : Prop :=
  ∀ (pin : Byte) (count : Idx) (buffered : Bool) (s t u v : State) (is : List Instr),
    Inv s → exec (.init pin count buffered) s = .next t → (∀ i ∈ is, isInit i = false) → execList is t = .next u →
      exec (.init pin count buffered) u = .next v →
        v.pinMask = t.pinMask ∧ v.count = t.count ∧ v.portDir = t.portDir ∧ v.configured = t.configured
          ∧ v.buffered = t.buffered ∧ (s.params.reinitClears = false → v.store = u.store)
          ∧ v.trace = u.trace ++ initEvents s.params

/-- R88: an INIT that names another pin leaves the old pin an output and low, and so it stays until an INIT names it again. -/
def Obligations.InitLeavesOldPin : Prop :=
  ∀ (old pin : Byte) (count : Idx) (buffered : Bool) (s t u : State) (is : List Instr),
    Inv s → s.configured = true → old.toNat < s.params.portW → s.pinMask = 1#256 <<< old.toNat → pin ≠ old →
      exec (.init pin count buffered) s = .next t → (∀ i ∈ is, namesPin old i = false) → execList is t = .next u →
        u.portDir.getLsbD old.toNat = true ∧ u.portOut.getLsbD old.toNat = false

/-! ### The store -/

/-- R89: SETAT completes; it writes the entry if the store exists and the index is in range, and changes nothing else. The index is
the operand's `IDX_W` bits (log entry 5 for an `IDX_W` under 16). -/
def Obligations.SetAtCompletes : Prop :=
  ∀ (index : Idx) (c : Colour) (s : State), Inv s →
    ∃ m, exec (.setAt index c) s = .next { s with store := m, rsp := none }
      ∧ ∀ j, m.read j =
          if s.buffered = true ∧ (idxOperand s.params index).toNat < s.count.toNat ∧ j = (idxOperand s.params index).toNat then c
          else s.store.read j

/-- R90: after a SETAT that is not ignored a read at the index returns the colour, until a write at the index or an INIT that
reallocates or frees the store. Indices and counts are the operands' `IDX_W` bits: where `IDX_W` is under 16 that is the model's
choice, log entry 5. -/
def Obligations.SetAtThenGetAt : Prop :=
  ∀ (index : Idx) (c : Colour) (s t u : State) (is : List Instr),
    Inv s → s.buffered = true → (idxOperand s.params index).toNat < s.count.toNat → exec (.setAt index c) s = .next t →
      (∀ i ∈ is, sparesEntry s.params (idxOperand s.params index) s.count i = true) → execList is t = .next u →
        ∃ v, exec (.getAt index) u = .next v ∧ v.rsp = some (1#1 ++ c.r ++ c.g ++ c.b)

/-- R91: SETALL completes; it writes every valid index, and changes nothing else. -/
def Obligations.SetAllCompletes : Prop :=
  ∀ (c : Colour) (s : State), Inv s →
    ∃ m, exec (.setAll c) s = .next { s with store := m, rsp := none }
      ∧ ∀ j, m.read j = if s.buffered = true ∧ j < s.count.toNat then c else s.store.read j

/-- R91: SETALL equals SETAT at every index 0 .. COUNT-1 with the same colour. -/
def Obligations.SetAllIsSetAts : Prop :=
  ∀ (c : Colour) (s : State), Inv s → s.rsp = none →
    exec (.setAll c) s =
      execList ((List.range s.count.toNat).map fun i => Instr.setAt (BitVec.ofNat 16 i) c) s

/-- R97, R65: GETAT completes; its response is the entry with `valid = 1`, or all zero, and nothing else changes. The index is the
operand's `IDX_W` bits (log entry 5 for an `IDX_W` under 16). -/
def Obligations.GetAtCompletes : Prop :=
  ∀ (index : Idx) (s : State), Inv s →
    ∃ r : RspWord, exec (.getAt index) s = .next { s with rsp := some r }
      ∧ (s.buffered = true ∧ (idxOperand s.params index).toNat < s.count.toNat → r.getLsbD 24 = true
          ∧ r.extractLsb' 16 8 = (s.store.read (idxOperand s.params index).toNat).r
          ∧ r.extractLsb' 8 8 = (s.store.read (idxOperand s.params index).toNat).g
          ∧ r.extractLsb' 0 8 = (s.store.read (idxOperand s.params index).toNat).b)
      ∧ (s.buffered = false ∨ s.count.toNat ≤ (idxOperand s.params index).toNat → r = 0)

/-! ### SENDALL -/

/-- R93: SENDALL on a Buffered store completes: the last entry sent is in the colour register file, the line is low and everything
else, the store above all, is as it was. -/
def Obligations.SendAllCompletes : Prop :=
  ∀ s : State, Inv s → s.buffered = true →
    ∃ t, exec .sendAll s = .next t ∧ t.x = (if s.count = 0 then s.x else s.store.read (s.count.toNat - 1))
      ∧ t.portOut = s.portOut &&& ~~~s.pinMask ∧ t.store = s.store ∧ (∀ j, t.store.read j = s.store.read j)
      ∧ t.rsp = none ∧ AtRest t ∧ KeepsLine s t

/-- R94: the shape and the duration of what SENDALL appends. -/
def Obligations.SendAllEvents : Prop :=
  ∀ s : State, Inv s → s.buffered = true →
    ∃ t es, exec .sendAll s = .next t ∧ t.trace = s.trace ++ es
      ∧ es = colourEvents s.params s.entries ++ [⟨false, latchNs s.params, false⟩]
      ∧ es.length = 48 * s.count.toNat + (if 0 < s.params.gapNs then s.count.toNat - 1 else 0) + 1
      ∧ traceNs es = (s.entries.map (pixelNs s.params)).sum + (s.count.toNat - 1) * s.params.gapNs + latchNs s.params

/-- R93, IC3: SENDALL with no store completes with no pixel, no latch and no trace event. -/
def Obligations.SendAllUnbuffered : Prop :=
  ∀ s : State, Inv s → s.buffered = false → exec .sendAll s = .next { s with rsp := none }

/-- R95: with `GAP_NS = 0` the trace of SENDALL equals the trace of SEND1 of every entry and a LATCH. -/
def Obligations.SendAllIsSends : Prop :=
  ∀ s t : State, Inv s → s.buffered = true → s.params.gapNs = 0 → exec .sendAll s = .next t →
    ∃ u, execList (unbufferedFrame s.entries) s = .next u ∧ u.trace = t.trace

/-! ### The whole machine -/

/-- R124: every command before the first INIT. `rsp := none` is `rsp_valid = 0` (R65, R66; log entry 11). INIT's count is the
operand's `IDX_W` bits: where `IDX_W` is under 16 that is the model's choice, log entry 5. -/
def Obligations.BeforeInit : Prop :=
  ∀ s : State, Inv s → s.configured = false →
    (∀ pin count buffered, pin.toNat < s.params.portW →
        (buffered = true → (idxOperand s.params count).toNat ≤ s.params.maxPixels) →
        ∃ t, exec (.init pin count buffered) s = .next t ∧ t.configured = true ∧ t.buffered = buffered) ∧
    (∀ index c, exec (.setAt index c) s = .next { s with rsp := none })
      ∧ (∀ c, exec (.setAll c) s = .next { s with rsp := none })
      ∧ exec .sendAll s = .next { s with rsp := none }
      ∧ (∀ index, exec (.getAt index) s = .next { s with rsp := some 0 })
      ∧ (∀ c, exec (.send1 c) s = .refused .notConfigured) ∧ exec .latch s = .refused .notConfigured
      ∧ (∀ w es, 8 ≤ w.toNat / 2 ^ 44 ∨ w.toNat / 2 ^ 44 = 0 →
          step { s with host := .word w :: es } = .next { s with host := es, rsp := none })

/-- R96, R21 to R25: only INIT changes the store's state, LineConfig, the direction latch or CONFIGURED. -/
def Obligations.OnlyInitConfigures : Prop :=
  ∀ (i : Instr) (s t : State), isInit i = false → exec i s = .next t → KeepsLine s t

/-- R14, R38, R92: the colour register file is written by SEND1, INIT and SENDALL only; the store by SETAT, SETALL and INIT only. -/
def Obligations.WhoWrites : Prop :=
  ∀ (i : Instr) (s t : State), exec i s = .next t →
    (t.x = s.x ∨ isInit i = true ∨ i = .sendAll ∨ ∃ c, i = .send1 c)
      ∧ (t.store = s.store ∨ isInit i = true ∨ (∃ index c, i = .setAt index c) ∨ ∃ c, i = .setAll c)

/-- R22, R23: no command changes a port bit outside PINMASK, or clears a direction bit. -/
def Obligations.OtherPortBitsKept : Prop :=
  ∀ (i : Instr) (s t : State), exec i s = .next t →
    t.portOut &&& ~~~t.pinMask = s.portOut &&& ~~~t.pinMask
      ∧ (t.portDir = s.portDir ∨ t.portDir = s.portDir ||| t.pinMask)

/-- R27: the trace is only appended to; the realised trace with it (log entry 20). -/
def Obligations.TraceOnlyGrows : Prop :=
  ∀ (i : Instr) (s t : State), exec i s = .next t →
    ∃ es us, t.trace = s.trace ++ es ∧ t.wire = s.wire ++ us ∧ es.length = us.length

/-- Log entry 10: every command keeps the store in its canonical form. -/
def Obligations.StoreStaysCanonical : Prop :=
  ∀ (i : Instr) (s t : State), s.store.wf = true → exec i s = .next t → t.store.wf = true

/-- R33, R29, R32: the invariant holds after reset, whatever the port's 8 bits (R6's default) and the colour latches hold. -/
def Obligations.InvAtReset : Prop :=
  ∀ (o d : PortBits) (c : Colour), o.toNat < 2 ^ 8 → d.toNat < 2 ^ 8 → Inv { State.reset with portOut := o, portDir := d, x := c }

/-- R33: every step keeps the invariant: R33.1 to R33.5, the widths of the port's registers and of COUNT, the store's canonical
form, the resting values, and that the realised trace realises the nominal one (R107). The clauses on the model's own fields are
its choice (log entries 10, 16, 20), and that the realised trace is as R107 has it at a clock that is not valid, of which R72
promises nothing, is log entry 25. -/
def Obligations.InvStep : Prop :=
  ∀ s t : State, Inv s → step s = .next t → Inv t

/-! ### Interrupts and the clock -/

/-- R107, R128, R132: whatever the interrupter does, every inhibited event of a command lasts exactly `N(T0H_NS)` clock periods;
any other bit phase lasts its count and a whole number of periods, a latch at least `NL` periods, a gap at least `GAP_NS`. At a
clock that is not valid, of which R72 and U10 promise nothing, this is the model's choice (log entry 25). -/
def Obligations.InhibitedNeverStretched : Prop :=
  ∀ (i : Instr) (s t : State), Inv s → exec i s = .next t →
    ∃ es us, t.trace = s.trace ++ es ∧ t.wire = s.wire ++ us ∧ es.length = us.length
      ∧ ∀ e u, (e, u) ∈ es.zip us → u.level = e.level
          ∧ (e.inh = true → e.level = true ∧ u.width s.params = cycles s.params s.params.t0hNs * periodUnits)
          ∧ (isBitPhase u.phase = true → ∃ k, u.width s.params = (cycles s.params e.dur + k) * periodUnits)
          ∧ (u.phase = .latch → latchCycles s.params * periodUnits ≤ u.width s.params)
          ∧ (u.phase = .gap → s.params.gapNs * s.params.fClk ≤ u.width s.params)

/-- R106: interrupt service asked for during the high phase of a 0-bit is not dropped; with no other stall the low phase of the
same bit is that much longer, and the high phase is not. At a clock that is not valid the counts are the model's choice (log
entry 25). -/
def Obligations.DeferredServiceServed : Prop :=
  ∀ (s : State) (ps : List Period), s.irqInhibit = false → s.timer = Timer.rest →
    ps.length = cycles s.params s.params.t0hNs →
      ∃ h l : Span, (bit0 { s with clock := ps }).wire = s.wire ++ [h, l]
        ∧ h.periods = cycles s.params s.params.t0hNs
        ∧ l.periods = cycles s.params s.params.t0lNs + (ps.filter (·.stall)).length
        ∧ (bit0 { s with clock := ps }).timer.pending = 0

/-- R70, R105: the interrupter and the clock rate change only how long phases last: the nominal trace, the events' number and
order and every piece of architectural state are the same, and the realised traces differ in widths alone. -/
def Obligations.TimingNotObserved : Prop :=
  ∀ (i : Instr) (s t : State) (f : Nat) (ps : List Period), Inv s → exec i s = .next t →
    ∃ us vs qs, t.wire = s.wire ++ us ∧ vs.map Span.untimed = us.map Span.untimed
      ∧ exec i { s with params := { s.params with fClk := f }, clock := ps } =
        .next { t with params := { s.params with fClk := f }, clock := qs, wire := s.wire ++ vs }

/-- R135: the cycle counts of T0H, T0L and T1H, `NL`, and the validity at the ten sample clocks, by R71 and R72 at the default
durations. -/
def Obligations.CycleTable : Prop :=
  ∀ row ∈ [((1000000 : Nat), (1 : Nat), (1 : Nat), (1 : Nat), (260 : Nat), false), (2000000, 1, 1, 2, 520, false),
      (3000000, 1, 2, 3, 780, false), (4000000, 1, 2, 4, 1040, true), (8000000, 3, 4, 7, 2080, true),
      (9600000, 3, 5, 9, 2496, true), (12000000, 4, 6, 11, 3120, true), (16000000, 6, 8, 14, 4160, true),
      (16500000, 6, 8, 15, 4290, true), (20000000, 7, 10, 18, 5200, true)],
    let p : Params := { defaultParams with fClk := row.1 }
    cycles p p.t0hNs = row.2.1 ∧ cycles p p.t1lNs = row.2.1 ∧ cycles p p.t0lNs = row.2.2.1 ∧ cycles p p.t1hNs = row.2.2.2.1
      ∧ latchCycles p = row.2.2.2.2.1 ∧ clockValid p = row.2.2.2.2.2

/-! ### The clocked sequencer -/

/-- R16, R19, R66, R105, R114, R136: the block clock period by clock period comes from an accepted command to exactly the state
`exec` gives, and it refuses what `exec` refuses. -/
def Obligations.ClockedRunIsExec : Prop :=
  ∀ (i : Instr) (s : State), Inv s →
    (∀ t, exec i s = .next t → ∃ a n, accept i s = .next a ∧ a.busy = true ∧ busyRun n a = t)
      ∧ ∀ r, exec i s = .refused r ↔ accept i s = .refused r

/-- R20, R104, R52 to R54, R19: at every clock edge the inhibit is up exactly in the high phase of a 0-bit and the line is high
exactly in a high phase; every edge keeps this, under any inputs. The model's choices in `ClockInv` are log entries 14 (SEQ at
rest in a command that drives no phase), 15 (SEQ during a gap) and 16 (the command in progress). -/
def Obligations.ClockEdgeKeepsInv : Prop :=
  ∀ (inp : PortIn) (s t : State), ClockInv s → tick inp s = .next t → ClockInv t

/-- Between commands the clocked invariant holds too: it holds wherever `Inv` does. Its clauses on the command in progress are about
the model's own field (log entry 16). -/
def Obligations.InvIsClockInv : Prop :=
  ∀ s : State, Inv s → ClockInv s

/-- R19, R66: a busy block takes no word: what is on the command port changes nothing. -/
def Obligations.BusyTakesNoWord : Prop :=
  ∀ (inp : PortIn) (v : Bool) (w : CmdWord) (s : State), s.busy = true →
    tick { inp with cmdValid := v, cmd := w } s = tick inp s

/-- R66: a command is accepted at an edge at which `cmd_valid` and `cmd_ready` are 1, and BUSY is 1 from that edge. -/
def Obligations.AcceptedIsBusy : Prop :=
  ∀ (inp : PortIn) (i : Instr) (s t : State),
    inp.rstN = true → inp.cmdValid = true → s.busy = false → decode inp.cmd = .instr i → tick inp s = .next t →
      t.busy = true

/-! ### Reset -/

/-- R120, R122: a clock edge with `rst_n = 0` leaves the reset state from any state; no direction bit changes and no port bit
outside the pin's does, nor the pin's if nothing was being transmitted. That the port's bits are kept where R32 says any value,
that no response is shown and that no command is in progress are the model's choices (log entries 12, 11, 16). -/
def Obligations.ResetEdge : Prop :=
  ∀ (inp : PortIn) (s : State), inp.rstN = false →
    ∃ t, tick inp s = .next t ∧ IsReset t ∧ t.portDir = s.portDir ∧ t.params = s.params
      ∧ t.portOut &&& ~~~s.pinMask = s.portOut &&& ~~~s.pinMask ∧ (s.seq.top = .idle → t.portOut = s.portOut)

/-- R122: a reset while a command is in progress abandons it wherever it is: the reset state, IRQ_INHIBIT 0, no trace. That no
direction bit is cleared, where R32 says any value, is the model's choice (log entry 12), and so are that no response is shown
(log entry 11) and that no command is in progress (log entry 16). -/
def Obligations.ResetAbandons : Prop :=
  ∀ (s t : State) (w : CmdWord) (n : Nat) (es : List HostEvent),
    s.busy = false → s.host = .cutWord w n :: es → step s = .next t →
      IsReset t ∧ t.host = es ∧ t.params = s.params ∧ t.portDir &&& s.portDir = s.portDir

/-- R32, R120: the machine right after reset, with R6's defaults (F_CLK has none). That no response is shown and no command is
in progress is the model's choice (log entries 11 and 16). The values of `x`, PORT_OUT and PORT_DIR, which R32 leaves open, are
not stated. -/
def Obligations.ResetValues : Prop :=
  IsReset State.reset ∧ State.reset.seq = ⟨.idle, 0, 0, 7, .hi⟩ ∧ State.reset.timer.tmr = 0
    ∧ State.reset.timer.pending = 0 ∧ State.reset.params.t1hNs = 900 ∧ State.reset.params.t1lNs = 350
    ∧ State.reset.params.t0hNs = 350 ∧ State.reset.params.t0lNs = 500 ∧ State.reset.params.latchUsec = 260
    ∧ latchNs State.reset.params = 260000 ∧ State.reset.params.tolNs = 150 ∧ State.reset.params.rxLatchNs = 50000
    ∧ State.reset.params.idxW = 16 ∧ State.reset.params.portW = 8 ∧ State.reset.params.gapNs = 0
    ∧ State.reset.params.maxPixels = 65535 ∧ State.reset.params.reinitClears = false

/-! ### Reading the wire -/

/-- R27: `normalise` cuts a trace into runs of events of one level, in order, and gives one event for each: of the run's level, its
duration the run's sum, its `inh` the run's `or`. The runs are whole: no two neighbours of the result have one level. -/
def Obligations.NormaliseMerges : Prop :=
  ∀ es : List Event, ∃ runs : List (List Event), runs.flatten = es
    ∧ List.Forall₂ (fun run n => run ≠ [] ∧ (∀ e ∈ run, e.level = n.level) ∧ n.dur = traceNs run ∧ n.inh = run.any (·.inh))
        runs (normalise es)
    ∧ (normalise es).IsChain (fun e f => e.level ≠ f.level)

/-- R58: under the receiver's premises and H2 (a), the interrupter's duty, the reference receiver reads from a SEND1 the
colour's wire bits, whatever the interrupter does. -/
def Obligations.Send1Received : Prop :=
  ∀ (c : Colour) (s t : State) (us : List Span),
    Inv s → s.configured = true → receiverPremises s.params = true → exec (.send1 c) s = .next t →
      t.wire = s.wire ++ us → lowsShort s.params us = true →
        receive s.params (normaliseWire s.params us) = (wirebits c).map fun v => .bit (some v)

/-- R57, R58, R126, R127: from an unbuffered frame of at least one pixel it reads the wire bits of the colours in order, then a
latch. The time the host leaves between two commands, H2 (b), is not in the model (log entry 6): it is taken as none. A frame of
no pixel is a latch with no bit before it, which R58's pairs do not read. -/
def Obligations.FrameReceived : Prop :=
  ∀ (cs : List Colour) (s t : State) (us : List Span),
    Inv s → s.configured = true → cs ≠ [] → receiverPremises s.params = true →
      execList (unbufferedFrame cs) s = .next t → t.wire = s.wire ++ us → lowsShort s.params us = true →
        receive s.params (normaliseWire s.params us) =
          (cs.flatMap fun c => (wirebits c).map fun v => .bit (some v)) ++ [.latch]
end

