-- ==== Sys2Proof/Laws/State.lean ====
section
/-! SUPPORT. What each named update of State does to each field, true by unfolding, so that no later proof unfolds a record
update. -/

namespace Sys2Proof.Machine

variable (s : State)

/-! ### setBusy -/

@[simp] theorem State.setBusy_x (v : Bool) : (s.setBusy v).x = s.x := rfl
@[simp] theorem State.setBusy_seq (v : Bool) : (s.setBusy v).seq = s.seq := rfl
@[simp] theorem State.setBusy_configured (v : Bool) : (s.setBusy v).configured = s.configured := rfl
@[simp] theorem State.setBusy_buffered (v : Bool) : (s.setBusy v).buffered = s.buffered := rfl
@[simp] theorem State.setBusy_busy (v : Bool) : (s.setBusy v).busy = v := rfl
@[simp] theorem State.setBusy_irqInhibit (v : Bool) : (s.setBusy v).irqInhibit = s.irqInhibit := rfl
@[simp] theorem State.setBusy_portOut (v : Bool) : (s.setBusy v).portOut = s.portOut := rfl
@[simp] theorem State.setBusy_portDir (v : Bool) : (s.setBusy v).portDir = s.portDir := rfl
@[simp] theorem State.setBusy_pinMask (v : Bool) : (s.setBusy v).pinMask = s.pinMask := rfl
@[simp] theorem State.setBusy_count (v : Bool) : (s.setBusy v).count = s.count := rfl
@[simp] theorem State.setBusy_store (v : Bool) : (s.setBusy v).store = s.store := rfl
@[simp] theorem State.setBusy_timer (v : Bool) : (s.setBusy v).timer = s.timer := rfl
@[simp] theorem State.setBusy_rsp (v : Bool) : (s.setBusy v).rsp = s.rsp := rfl
@[simp] theorem State.setBusy_trace (v : Bool) : (s.setBusy v).trace = s.trace := rfl
@[simp] theorem State.setBusy_wire (v : Bool) : (s.setBusy v).wire = s.wire := rfl
@[simp] theorem State.setBusy_work (v : Bool) : (s.setBusy v).work = s.work := rfl
@[simp] theorem State.setBusy_draws (v : Bool) : (s.setBusy v).draws = s.draws := rfl
@[simp] theorem State.setBusy_params (v : Bool) : (s.setBusy v).params = s.params := rfl
@[simp] theorem State.setBusy_host (v : Bool) : (s.setBusy v).host = s.host := rfl
@[simp] theorem State.setBusy_clock (v : Bool) : (s.setBusy v).clock = s.clock := rfl
@[simp] theorem State.setBusy_line (v : Bool) : (s.setBusy v).line = s.line := rfl

/-! ### setInhibit -/

@[simp] theorem State.setInhibit_x (v : Bool) : (s.setInhibit v).x = s.x := rfl
@[simp] theorem State.setInhibit_seq (v : Bool) : (s.setInhibit v).seq = s.seq := rfl
@[simp] theorem State.setInhibit_configured (v : Bool) : (s.setInhibit v).configured = s.configured := rfl
@[simp] theorem State.setInhibit_buffered (v : Bool) : (s.setInhibit v).buffered = s.buffered := rfl
@[simp] theorem State.setInhibit_busy (v : Bool) : (s.setInhibit v).busy = s.busy := rfl
@[simp] theorem State.setInhibit_irqInhibit (v : Bool) : (s.setInhibit v).irqInhibit = v := rfl
@[simp] theorem State.setInhibit_portOut (v : Bool) : (s.setInhibit v).portOut = s.portOut := rfl
@[simp] theorem State.setInhibit_portDir (v : Bool) : (s.setInhibit v).portDir = s.portDir := rfl
@[simp] theorem State.setInhibit_pinMask (v : Bool) : (s.setInhibit v).pinMask = s.pinMask := rfl
@[simp] theorem State.setInhibit_count (v : Bool) : (s.setInhibit v).count = s.count := rfl
@[simp] theorem State.setInhibit_store (v : Bool) : (s.setInhibit v).store = s.store := rfl
@[simp] theorem State.setInhibit_timer (v : Bool) : (s.setInhibit v).timer = s.timer := rfl
@[simp] theorem State.setInhibit_rsp (v : Bool) : (s.setInhibit v).rsp = s.rsp := rfl
@[simp] theorem State.setInhibit_trace (v : Bool) : (s.setInhibit v).trace = s.trace := rfl
@[simp] theorem State.setInhibit_wire (v : Bool) : (s.setInhibit v).wire = s.wire := rfl
@[simp] theorem State.setInhibit_work (v : Bool) : (s.setInhibit v).work = s.work := rfl
@[simp] theorem State.setInhibit_draws (v : Bool) : (s.setInhibit v).draws = s.draws := rfl
@[simp] theorem State.setInhibit_params (v : Bool) : (s.setInhibit v).params = s.params := rfl
@[simp] theorem State.setInhibit_host (v : Bool) : (s.setInhibit v).host = s.host := rfl
@[simp] theorem State.setInhibit_clock (v : Bool) : (s.setInhibit v).clock = s.clock := rfl
@[simp] theorem State.setInhibit_line (v : Bool) : (s.setInhibit v).line = s.line := rfl

/-! ### setConfigured -/

@[simp] theorem State.setConfigured_x (v : Bool) : (s.setConfigured v).x = s.x := rfl
@[simp] theorem State.setConfigured_seq (v : Bool) : (s.setConfigured v).seq = s.seq := rfl
@[simp] theorem State.setConfigured_configured (v : Bool) : (s.setConfigured v).configured = v := rfl
@[simp] theorem State.setConfigured_buffered (v : Bool) : (s.setConfigured v).buffered = s.buffered := rfl
@[simp] theorem State.setConfigured_busy (v : Bool) : (s.setConfigured v).busy = s.busy := rfl
@[simp] theorem State.setConfigured_irqInhibit (v : Bool) : (s.setConfigured v).irqInhibit = s.irqInhibit := rfl
@[simp] theorem State.setConfigured_portOut (v : Bool) : (s.setConfigured v).portOut = s.portOut := rfl
@[simp] theorem State.setConfigured_portDir (v : Bool) : (s.setConfigured v).portDir = s.portDir := rfl
@[simp] theorem State.setConfigured_pinMask (v : Bool) : (s.setConfigured v).pinMask = s.pinMask := rfl
@[simp] theorem State.setConfigured_count (v : Bool) : (s.setConfigured v).count = s.count := rfl
@[simp] theorem State.setConfigured_store (v : Bool) : (s.setConfigured v).store = s.store := rfl
@[simp] theorem State.setConfigured_timer (v : Bool) : (s.setConfigured v).timer = s.timer := rfl
@[simp] theorem State.setConfigured_rsp (v : Bool) : (s.setConfigured v).rsp = s.rsp := rfl
@[simp] theorem State.setConfigured_trace (v : Bool) : (s.setConfigured v).trace = s.trace := rfl
@[simp] theorem State.setConfigured_wire (v : Bool) : (s.setConfigured v).wire = s.wire := rfl
@[simp] theorem State.setConfigured_work (v : Bool) : (s.setConfigured v).work = s.work := rfl
@[simp] theorem State.setConfigured_draws (v : Bool) : (s.setConfigured v).draws = s.draws := rfl
@[simp] theorem State.setConfigured_params (v : Bool) : (s.setConfigured v).params = s.params := rfl
@[simp] theorem State.setConfigured_host (v : Bool) : (s.setConfigured v).host = s.host := rfl
@[simp] theorem State.setConfigured_clock (v : Bool) : (s.setConfigured v).clock = s.clock := rfl
@[simp] theorem State.setConfigured_line (v : Bool) : (s.setConfigured v).line = s.line := rfl

/-! ### setBuffered -/

@[simp] theorem State.setBuffered_x (v : Bool) : (s.setBuffered v).x = s.x := rfl
@[simp] theorem State.setBuffered_seq (v : Bool) : (s.setBuffered v).seq = s.seq := rfl
@[simp] theorem State.setBuffered_configured (v : Bool) : (s.setBuffered v).configured = s.configured := rfl
@[simp] theorem State.setBuffered_buffered (v : Bool) : (s.setBuffered v).buffered = v := rfl
@[simp] theorem State.setBuffered_busy (v : Bool) : (s.setBuffered v).busy = s.busy := rfl
@[simp] theorem State.setBuffered_irqInhibit (v : Bool) : (s.setBuffered v).irqInhibit = s.irqInhibit := rfl
@[simp] theorem State.setBuffered_portOut (v : Bool) : (s.setBuffered v).portOut = s.portOut := rfl
@[simp] theorem State.setBuffered_portDir (v : Bool) : (s.setBuffered v).portDir = s.portDir := rfl
@[simp] theorem State.setBuffered_pinMask (v : Bool) : (s.setBuffered v).pinMask = s.pinMask := rfl
@[simp] theorem State.setBuffered_count (v : Bool) : (s.setBuffered v).count = s.count := rfl
@[simp] theorem State.setBuffered_store (v : Bool) : (s.setBuffered v).store = s.store := rfl
@[simp] theorem State.setBuffered_timer (v : Bool) : (s.setBuffered v).timer = s.timer := rfl
@[simp] theorem State.setBuffered_rsp (v : Bool) : (s.setBuffered v).rsp = s.rsp := rfl
@[simp] theorem State.setBuffered_trace (v : Bool) : (s.setBuffered v).trace = s.trace := rfl
@[simp] theorem State.setBuffered_wire (v : Bool) : (s.setBuffered v).wire = s.wire := rfl
@[simp] theorem State.setBuffered_work (v : Bool) : (s.setBuffered v).work = s.work := rfl
@[simp] theorem State.setBuffered_draws (v : Bool) : (s.setBuffered v).draws = s.draws := rfl
@[simp] theorem State.setBuffered_params (v : Bool) : (s.setBuffered v).params = s.params := rfl
@[simp] theorem State.setBuffered_host (v : Bool) : (s.setBuffered v).host = s.host := rfl
@[simp] theorem State.setBuffered_clock (v : Bool) : (s.setBuffered v).clock = s.clock := rfl
@[simp] theorem State.setBuffered_line (v : Bool) : (s.setBuffered v).line = s.line := rfl

/-! ### setColour -/

@[simp] theorem State.setColour_x (c : Colour) : (s.setColour c).x = c := rfl
@[simp] theorem State.setColour_seq (c : Colour) : (s.setColour c).seq = s.seq := rfl
@[simp] theorem State.setColour_configured (c : Colour) : (s.setColour c).configured = s.configured := rfl
@[simp] theorem State.setColour_buffered (c : Colour) : (s.setColour c).buffered = s.buffered := rfl
@[simp] theorem State.setColour_busy (c : Colour) : (s.setColour c).busy = s.busy := rfl
@[simp] theorem State.setColour_irqInhibit (c : Colour) : (s.setColour c).irqInhibit = s.irqInhibit := rfl
@[simp] theorem State.setColour_portOut (c : Colour) : (s.setColour c).portOut = s.portOut := rfl
@[simp] theorem State.setColour_portDir (c : Colour) : (s.setColour c).portDir = s.portDir := rfl
@[simp] theorem State.setColour_pinMask (c : Colour) : (s.setColour c).pinMask = s.pinMask := rfl
@[simp] theorem State.setColour_count (c : Colour) : (s.setColour c).count = s.count := rfl
@[simp] theorem State.setColour_store (c : Colour) : (s.setColour c).store = s.store := rfl
@[simp] theorem State.setColour_timer (c : Colour) : (s.setColour c).timer = s.timer := rfl
@[simp] theorem State.setColour_rsp (c : Colour) : (s.setColour c).rsp = s.rsp := rfl
@[simp] theorem State.setColour_trace (c : Colour) : (s.setColour c).trace = s.trace := rfl
@[simp] theorem State.setColour_wire (c : Colour) : (s.setColour c).wire = s.wire := rfl
@[simp] theorem State.setColour_work (c : Colour) : (s.setColour c).work = s.work := rfl
@[simp] theorem State.setColour_draws (c : Colour) : (s.setColour c).draws = s.draws := rfl
@[simp] theorem State.setColour_params (c : Colour) : (s.setColour c).params = s.params := rfl
@[simp] theorem State.setColour_host (c : Colour) : (s.setColour c).host = s.host := rfl
@[simp] theorem State.setColour_clock (c : Colour) : (s.setColour c).clock = s.clock := rfl
@[simp] theorem State.setColour_line (c : Colour) : (s.setColour c).line = s.line := rfl

/-! ### goto -/

@[simp] theorem State.goto_x (q : Seq) : (s.goto q).x = s.x := rfl
@[simp] theorem State.goto_seq (q : Seq) : (s.goto q).seq = q := rfl
@[simp] theorem State.goto_configured (q : Seq) : (s.goto q).configured = s.configured := rfl
@[simp] theorem State.goto_buffered (q : Seq) : (s.goto q).buffered = s.buffered := rfl
@[simp] theorem State.goto_busy (q : Seq) : (s.goto q).busy = s.busy := rfl
@[simp] theorem State.goto_irqInhibit (q : Seq) : (s.goto q).irqInhibit = s.irqInhibit := rfl
@[simp] theorem State.goto_portOut (q : Seq) : (s.goto q).portOut = s.portOut := rfl
@[simp] theorem State.goto_portDir (q : Seq) : (s.goto q).portDir = s.portDir := rfl
@[simp] theorem State.goto_pinMask (q : Seq) : (s.goto q).pinMask = s.pinMask := rfl
@[simp] theorem State.goto_count (q : Seq) : (s.goto q).count = s.count := rfl
@[simp] theorem State.goto_store (q : Seq) : (s.goto q).store = s.store := rfl
@[simp] theorem State.goto_timer (q : Seq) : (s.goto q).timer = s.timer := rfl
@[simp] theorem State.goto_rsp (q : Seq) : (s.goto q).rsp = s.rsp := rfl
@[simp] theorem State.goto_trace (q : Seq) : (s.goto q).trace = s.trace := rfl
@[simp] theorem State.goto_wire (q : Seq) : (s.goto q).wire = s.wire := rfl
@[simp] theorem State.goto_work (q : Seq) : (s.goto q).work = s.work := rfl
@[simp] theorem State.goto_draws (q : Seq) : (s.goto q).draws = s.draws := rfl
@[simp] theorem State.goto_params (q : Seq) : (s.goto q).params = s.params := rfl
@[simp] theorem State.goto_host (q : Seq) : (s.goto q).host = s.host := rfl
@[simp] theorem State.goto_clock (q : Seq) : (s.goto q).clock = s.clock := rfl
@[simp] theorem State.goto_line (q : Seq) : (s.goto q).line = s.line := rfl

/-! ### setPinMask -/

@[simp] theorem State.setPinMask_x (m : PortBits) : (s.setPinMask m).x = s.x := rfl
@[simp] theorem State.setPinMask_seq (m : PortBits) : (s.setPinMask m).seq = s.seq := rfl
@[simp] theorem State.setPinMask_configured (m : PortBits) : (s.setPinMask m).configured = s.configured := rfl
@[simp] theorem State.setPinMask_buffered (m : PortBits) : (s.setPinMask m).buffered = s.buffered := rfl
@[simp] theorem State.setPinMask_busy (m : PortBits) : (s.setPinMask m).busy = s.busy := rfl
@[simp] theorem State.setPinMask_irqInhibit (m : PortBits) : (s.setPinMask m).irqInhibit = s.irqInhibit := rfl
@[simp] theorem State.setPinMask_portOut (m : PortBits) : (s.setPinMask m).portOut = s.portOut := rfl
@[simp] theorem State.setPinMask_portDir (m : PortBits) : (s.setPinMask m).portDir = s.portDir := rfl
@[simp] theorem State.setPinMask_pinMask (m : PortBits) : (s.setPinMask m).pinMask = m := rfl
@[simp] theorem State.setPinMask_count (m : PortBits) : (s.setPinMask m).count = s.count := rfl
@[simp] theorem State.setPinMask_store (m : PortBits) : (s.setPinMask m).store = s.store := rfl
@[simp] theorem State.setPinMask_timer (m : PortBits) : (s.setPinMask m).timer = s.timer := rfl
@[simp] theorem State.setPinMask_rsp (m : PortBits) : (s.setPinMask m).rsp = s.rsp := rfl
@[simp] theorem State.setPinMask_trace (m : PortBits) : (s.setPinMask m).trace = s.trace := rfl
@[simp] theorem State.setPinMask_wire (m : PortBits) : (s.setPinMask m).wire = s.wire := rfl
@[simp] theorem State.setPinMask_work (m : PortBits) : (s.setPinMask m).work = s.work := rfl
@[simp] theorem State.setPinMask_draws (m : PortBits) : (s.setPinMask m).draws = s.draws := rfl
@[simp] theorem State.setPinMask_params (m : PortBits) : (s.setPinMask m).params = s.params := rfl
@[simp] theorem State.setPinMask_host (m : PortBits) : (s.setPinMask m).host = s.host := rfl
@[simp] theorem State.setPinMask_clock (m : PortBits) : (s.setPinMask m).clock = s.clock := rfl

/-! ### setCount -/

@[simp] theorem State.setCount_x (n : Idx) : (s.setCount n).x = s.x := rfl
@[simp] theorem State.setCount_seq (n : Idx) : (s.setCount n).seq = s.seq := rfl
@[simp] theorem State.setCount_configured (n : Idx) : (s.setCount n).configured = s.configured := rfl
@[simp] theorem State.setCount_buffered (n : Idx) : (s.setCount n).buffered = s.buffered := rfl
@[simp] theorem State.setCount_busy (n : Idx) : (s.setCount n).busy = s.busy := rfl
@[simp] theorem State.setCount_irqInhibit (n : Idx) : (s.setCount n).irqInhibit = s.irqInhibit := rfl
@[simp] theorem State.setCount_portOut (n : Idx) : (s.setCount n).portOut = s.portOut := rfl
@[simp] theorem State.setCount_portDir (n : Idx) : (s.setCount n).portDir = s.portDir := rfl
@[simp] theorem State.setCount_pinMask (n : Idx) : (s.setCount n).pinMask = s.pinMask := rfl
@[simp] theorem State.setCount_count (n : Idx) : (s.setCount n).count = n := rfl
@[simp] theorem State.setCount_store (n : Idx) : (s.setCount n).store = s.store := rfl
@[simp] theorem State.setCount_timer (n : Idx) : (s.setCount n).timer = s.timer := rfl
@[simp] theorem State.setCount_rsp (n : Idx) : (s.setCount n).rsp = s.rsp := rfl
@[simp] theorem State.setCount_trace (n : Idx) : (s.setCount n).trace = s.trace := rfl
@[simp] theorem State.setCount_wire (n : Idx) : (s.setCount n).wire = s.wire := rfl
@[simp] theorem State.setCount_work (n : Idx) : (s.setCount n).work = s.work := rfl
@[simp] theorem State.setCount_draws (n : Idx) : (s.setCount n).draws = s.draws := rfl
@[simp] theorem State.setCount_params (n : Idx) : (s.setCount n).params = s.params := rfl
@[simp] theorem State.setCount_host (n : Idx) : (s.setCount n).host = s.host := rfl
@[simp] theorem State.setCount_clock (n : Idx) : (s.setCount n).clock = s.clock := rfl
@[simp] theorem State.setCount_line (n : Idx) : (s.setCount n).line = s.line := rfl

/-! ### makeOutput -/

@[simp] theorem State.makeOutput_x : (s.makeOutput).x = s.x := rfl
@[simp] theorem State.makeOutput_seq : (s.makeOutput).seq = s.seq := rfl
@[simp] theorem State.makeOutput_configured : (s.makeOutput).configured = s.configured := rfl
@[simp] theorem State.makeOutput_buffered : (s.makeOutput).buffered = s.buffered := rfl
@[simp] theorem State.makeOutput_busy : (s.makeOutput).busy = s.busy := rfl
@[simp] theorem State.makeOutput_irqInhibit : (s.makeOutput).irqInhibit = s.irqInhibit := rfl
@[simp] theorem State.makeOutput_portOut : (s.makeOutput).portOut = s.portOut := rfl
@[simp] theorem State.makeOutput_portDir : (s.makeOutput).portDir = s.portDir ||| s.pinMask := rfl
@[simp] theorem State.makeOutput_pinMask : (s.makeOutput).pinMask = s.pinMask := rfl
@[simp] theorem State.makeOutput_count : (s.makeOutput).count = s.count := rfl
@[simp] theorem State.makeOutput_store : (s.makeOutput).store = s.store := rfl
@[simp] theorem State.makeOutput_timer : (s.makeOutput).timer = s.timer := rfl
@[simp] theorem State.makeOutput_rsp : (s.makeOutput).rsp = s.rsp := rfl
@[simp] theorem State.makeOutput_trace : (s.makeOutput).trace = s.trace := rfl
@[simp] theorem State.makeOutput_wire : (s.makeOutput).wire = s.wire := rfl
@[simp] theorem State.makeOutput_work : (s.makeOutput).work = s.work := rfl
@[simp] theorem State.makeOutput_draws : (s.makeOutput).draws = s.draws := rfl
@[simp] theorem State.makeOutput_params : (s.makeOutput).params = s.params := rfl
@[simp] theorem State.makeOutput_host : (s.makeOutput).host = s.host := rfl
@[simp] theorem State.makeOutput_clock : (s.makeOutput).clock = s.clock := rfl
@[simp] theorem State.makeOutput_line : (s.makeOutput).line = s.line := rfl

/-! ### setStore -/

@[simp] theorem State.setStore_x (m : Memory) : (s.setStore m).x = s.x := rfl
@[simp] theorem State.setStore_seq (m : Memory) : (s.setStore m).seq = s.seq := rfl
@[simp] theorem State.setStore_configured (m : Memory) : (s.setStore m).configured = s.configured := rfl
@[simp] theorem State.setStore_buffered (m : Memory) : (s.setStore m).buffered = s.buffered := rfl
@[simp] theorem State.setStore_busy (m : Memory) : (s.setStore m).busy = s.busy := rfl
@[simp] theorem State.setStore_irqInhibit (m : Memory) : (s.setStore m).irqInhibit = s.irqInhibit := rfl
@[simp] theorem State.setStore_portOut (m : Memory) : (s.setStore m).portOut = s.portOut := rfl
@[simp] theorem State.setStore_portDir (m : Memory) : (s.setStore m).portDir = s.portDir := rfl
@[simp] theorem State.setStore_pinMask (m : Memory) : (s.setStore m).pinMask = s.pinMask := rfl
@[simp] theorem State.setStore_count (m : Memory) : (s.setStore m).count = s.count := rfl
@[simp] theorem State.setStore_store (m : Memory) : (s.setStore m).store = m := rfl
@[simp] theorem State.setStore_timer (m : Memory) : (s.setStore m).timer = s.timer := rfl
@[simp] theorem State.setStore_rsp (m : Memory) : (s.setStore m).rsp = s.rsp := rfl
@[simp] theorem State.setStore_trace (m : Memory) : (s.setStore m).trace = s.trace := rfl
@[simp] theorem State.setStore_wire (m : Memory) : (s.setStore m).wire = s.wire := rfl
@[simp] theorem State.setStore_work (m : Memory) : (s.setStore m).work = s.work := rfl
@[simp] theorem State.setStore_draws (m : Memory) : (s.setStore m).draws = s.draws := rfl
@[simp] theorem State.setStore_params (m : Memory) : (s.setStore m).params = s.params := rfl
@[simp] theorem State.setStore_host (m : Memory) : (s.setStore m).host = s.host := rfl
@[simp] theorem State.setStore_clock (m : Memory) : (s.setStore m).clock = s.clock := rfl
@[simp] theorem State.setStore_line (m : Memory) : (s.setStore m).line = s.line := rfl

/-! ### respond -/

@[simp] theorem State.respond_x (r : Option RspWord) : (s.respond r).x = s.x := rfl
@[simp] theorem State.respond_seq (r : Option RspWord) : (s.respond r).seq = s.seq := rfl
@[simp] theorem State.respond_configured (r : Option RspWord) : (s.respond r).configured = s.configured := rfl
@[simp] theorem State.respond_buffered (r : Option RspWord) : (s.respond r).buffered = s.buffered := rfl
@[simp] theorem State.respond_busy (r : Option RspWord) : (s.respond r).busy = s.busy := rfl
@[simp] theorem State.respond_irqInhibit (r : Option RspWord) : (s.respond r).irqInhibit = s.irqInhibit := rfl
@[simp] theorem State.respond_portOut (r : Option RspWord) : (s.respond r).portOut = s.portOut := rfl
@[simp] theorem State.respond_portDir (r : Option RspWord) : (s.respond r).portDir = s.portDir := rfl
@[simp] theorem State.respond_pinMask (r : Option RspWord) : (s.respond r).pinMask = s.pinMask := rfl
@[simp] theorem State.respond_count (r : Option RspWord) : (s.respond r).count = s.count := rfl
@[simp] theorem State.respond_store (r : Option RspWord) : (s.respond r).store = s.store := rfl
@[simp] theorem State.respond_timer (r : Option RspWord) : (s.respond r).timer = s.timer := rfl
@[simp] theorem State.respond_rsp (r : Option RspWord) : (s.respond r).rsp = r := rfl
@[simp] theorem State.respond_trace (r : Option RspWord) : (s.respond r).trace = s.trace := rfl
@[simp] theorem State.respond_wire (r : Option RspWord) : (s.respond r).wire = s.wire := rfl
@[simp] theorem State.respond_work (r : Option RspWord) : (s.respond r).work = s.work := rfl
@[simp] theorem State.respond_draws (r : Option RspWord) : (s.respond r).draws = s.draws := rfl
@[simp] theorem State.respond_params (r : Option RspWord) : (s.respond r).params = s.params := rfl
@[simp] theorem State.respond_host (r : Option RspWord) : (s.respond r).host = s.host := rfl
@[simp] theorem State.respond_clock (r : Option RspWord) : (s.respond r).clock = s.clock := rfl
@[simp] theorem State.respond_line (r : Option RspWord) : (s.respond r).line = s.line := rfl

/-! ### setTimer -/

@[simp] theorem State.setTimer_x (t : Timer) : (s.setTimer t).x = s.x := rfl
@[simp] theorem State.setTimer_seq (t : Timer) : (s.setTimer t).seq = s.seq := rfl
@[simp] theorem State.setTimer_configured (t : Timer) : (s.setTimer t).configured = s.configured := rfl
@[simp] theorem State.setTimer_buffered (t : Timer) : (s.setTimer t).buffered = s.buffered := rfl
@[simp] theorem State.setTimer_busy (t : Timer) : (s.setTimer t).busy = s.busy := rfl
@[simp] theorem State.setTimer_irqInhibit (t : Timer) : (s.setTimer t).irqInhibit = s.irqInhibit := rfl
@[simp] theorem State.setTimer_portOut (t : Timer) : (s.setTimer t).portOut = s.portOut := rfl
@[simp] theorem State.setTimer_portDir (t : Timer) : (s.setTimer t).portDir = s.portDir := rfl
@[simp] theorem State.setTimer_pinMask (t : Timer) : (s.setTimer t).pinMask = s.pinMask := rfl
@[simp] theorem State.setTimer_count (t : Timer) : (s.setTimer t).count = s.count := rfl
@[simp] theorem State.setTimer_store (t : Timer) : (s.setTimer t).store = s.store := rfl
@[simp] theorem State.setTimer_timer (t : Timer) : (s.setTimer t).timer = t := rfl
@[simp] theorem State.setTimer_rsp (t : Timer) : (s.setTimer t).rsp = s.rsp := rfl
@[simp] theorem State.setTimer_trace (t : Timer) : (s.setTimer t).trace = s.trace := rfl
@[simp] theorem State.setTimer_wire (t : Timer) : (s.setTimer t).wire = s.wire := rfl
@[simp] theorem State.setTimer_work (t : Timer) : (s.setTimer t).work = s.work := rfl
@[simp] theorem State.setTimer_draws (t : Timer) : (s.setTimer t).draws = s.draws := rfl
@[simp] theorem State.setTimer_params (t : Timer) : (s.setTimer t).params = s.params := rfl
@[simp] theorem State.setTimer_host (t : Timer) : (s.setTimer t).host = s.host := rfl
@[simp] theorem State.setTimer_clock (t : Timer) : (s.setTimer t).clock = s.clock := rfl
@[simp] theorem State.setTimer_line (t : Timer) : (s.setTimer t).line = s.line := rfl

/-! ### setClock -/

@[simp] theorem State.setClock_x (ps : List Period) : (s.setClock ps).x = s.x := rfl
@[simp] theorem State.setClock_seq (ps : List Period) : (s.setClock ps).seq = s.seq := rfl
@[simp] theorem State.setClock_configured (ps : List Period) : (s.setClock ps).configured = s.configured := rfl
@[simp] theorem State.setClock_buffered (ps : List Period) : (s.setClock ps).buffered = s.buffered := rfl
@[simp] theorem State.setClock_busy (ps : List Period) : (s.setClock ps).busy = s.busy := rfl
@[simp] theorem State.setClock_irqInhibit (ps : List Period) : (s.setClock ps).irqInhibit = s.irqInhibit := rfl
@[simp] theorem State.setClock_portOut (ps : List Period) : (s.setClock ps).portOut = s.portOut := rfl
@[simp] theorem State.setClock_portDir (ps : List Period) : (s.setClock ps).portDir = s.portDir := rfl
@[simp] theorem State.setClock_pinMask (ps : List Period) : (s.setClock ps).pinMask = s.pinMask := rfl
@[simp] theorem State.setClock_count (ps : List Period) : (s.setClock ps).count = s.count := rfl
@[simp] theorem State.setClock_store (ps : List Period) : (s.setClock ps).store = s.store := rfl
@[simp] theorem State.setClock_timer (ps : List Period) : (s.setClock ps).timer = s.timer := rfl
@[simp] theorem State.setClock_rsp (ps : List Period) : (s.setClock ps).rsp = s.rsp := rfl
@[simp] theorem State.setClock_trace (ps : List Period) : (s.setClock ps).trace = s.trace := rfl
@[simp] theorem State.setClock_wire (ps : List Period) : (s.setClock ps).wire = s.wire := rfl
@[simp] theorem State.setClock_work (ps : List Period) : (s.setClock ps).work = s.work := rfl
@[simp] theorem State.setClock_draws (ps : List Period) : (s.setClock ps).draws = s.draws := rfl
@[simp] theorem State.setClock_params (ps : List Period) : (s.setClock ps).params = s.params := rfl
@[simp] theorem State.setClock_host (ps : List Period) : (s.setClock ps).host = s.host := rfl
@[simp] theorem State.setClock_clock (ps : List Period) : (s.setClock ps).clock = ps := rfl
@[simp] theorem State.setClock_line (ps : List Period) : (s.setClock ps).line = s.line := rfl

/-! ### setHost -/

@[simp] theorem State.setHost_x (es : List HostEvent) : (s.setHost es).x = s.x := rfl
@[simp] theorem State.setHost_seq (es : List HostEvent) : (s.setHost es).seq = s.seq := rfl
@[simp] theorem State.setHost_configured (es : List HostEvent) : (s.setHost es).configured = s.configured := rfl
@[simp] theorem State.setHost_buffered (es : List HostEvent) : (s.setHost es).buffered = s.buffered := rfl
@[simp] theorem State.setHost_busy (es : List HostEvent) : (s.setHost es).busy = s.busy := rfl
@[simp] theorem State.setHost_irqInhibit (es : List HostEvent) : (s.setHost es).irqInhibit = s.irqInhibit := rfl
@[simp] theorem State.setHost_portOut (es : List HostEvent) : (s.setHost es).portOut = s.portOut := rfl
@[simp] theorem State.setHost_portDir (es : List HostEvent) : (s.setHost es).portDir = s.portDir := rfl
@[simp] theorem State.setHost_pinMask (es : List HostEvent) : (s.setHost es).pinMask = s.pinMask := rfl
@[simp] theorem State.setHost_count (es : List HostEvent) : (s.setHost es).count = s.count := rfl
@[simp] theorem State.setHost_store (es : List HostEvent) : (s.setHost es).store = s.store := rfl
@[simp] theorem State.setHost_timer (es : List HostEvent) : (s.setHost es).timer = s.timer := rfl
@[simp] theorem State.setHost_rsp (es : List HostEvent) : (s.setHost es).rsp = s.rsp := rfl
@[simp] theorem State.setHost_trace (es : List HostEvent) : (s.setHost es).trace = s.trace := rfl
@[simp] theorem State.setHost_wire (es : List HostEvent) : (s.setHost es).wire = s.wire := rfl
@[simp] theorem State.setHost_work (es : List HostEvent) : (s.setHost es).work = s.work := rfl
@[simp] theorem State.setHost_draws (es : List HostEvent) : (s.setHost es).draws = s.draws := rfl
@[simp] theorem State.setHost_params (es : List HostEvent) : (s.setHost es).params = s.params := rfl
@[simp] theorem State.setHost_host (es : List HostEvent) : (s.setHost es).host = es := rfl
@[simp] theorem State.setHost_clock (es : List HostEvent) : (s.setHost es).clock = s.clock := rfl
@[simp] theorem State.setHost_line (es : List HostEvent) : (s.setHost es).line = s.line := rfl

/-! ### setWork -/

@[simp] theorem State.setWork_x (w : Option Work) : (s.setWork w).x = s.x := rfl
@[simp] theorem State.setWork_seq (w : Option Work) : (s.setWork w).seq = s.seq := rfl
@[simp] theorem State.setWork_configured (w : Option Work) : (s.setWork w).configured = s.configured := rfl
@[simp] theorem State.setWork_buffered (w : Option Work) : (s.setWork w).buffered = s.buffered := rfl
@[simp] theorem State.setWork_busy (w : Option Work) : (s.setWork w).busy = s.busy := rfl
@[simp] theorem State.setWork_irqInhibit (w : Option Work) : (s.setWork w).irqInhibit = s.irqInhibit := rfl
@[simp] theorem State.setWork_portOut (w : Option Work) : (s.setWork w).portOut = s.portOut := rfl
@[simp] theorem State.setWork_portDir (w : Option Work) : (s.setWork w).portDir = s.portDir := rfl
@[simp] theorem State.setWork_pinMask (w : Option Work) : (s.setWork w).pinMask = s.pinMask := rfl
@[simp] theorem State.setWork_count (w : Option Work) : (s.setWork w).count = s.count := rfl
@[simp] theorem State.setWork_store (w : Option Work) : (s.setWork w).store = s.store := rfl
@[simp] theorem State.setWork_timer (w : Option Work) : (s.setWork w).timer = s.timer := rfl
@[simp] theorem State.setWork_rsp (w : Option Work) : (s.setWork w).rsp = s.rsp := rfl
@[simp] theorem State.setWork_trace (w : Option Work) : (s.setWork w).trace = s.trace := rfl
@[simp] theorem State.setWork_wire (w : Option Work) : (s.setWork w).wire = s.wire := rfl
@[simp] theorem State.setWork_work (w : Option Work) : (s.setWork w).work = w := rfl
@[simp] theorem State.setWork_draws (w : Option Work) : (s.setWork w).draws = s.draws := rfl
@[simp] theorem State.setWork_params (w : Option Work) : (s.setWork w).params = s.params := rfl
@[simp] theorem State.setWork_host (w : Option Work) : (s.setWork w).host = s.host := rfl
@[simp] theorem State.setWork_clock (w : Option Work) : (s.setWork w).clock = s.clock := rfl
@[simp] theorem State.setWork_line (w : Option Work) : (s.setWork w).line = s.line := rfl

/-! ### memWrite -/

@[simp] theorem State.memWrite_x (i : Idx) (c : Colour) : (s.memWrite i c).x = s.x := rfl
@[simp] theorem State.memWrite_seq (i : Idx) (c : Colour) : (s.memWrite i c).seq = s.seq := rfl
@[simp] theorem State.memWrite_configured (i : Idx) (c : Colour) : (s.memWrite i c).configured = s.configured := rfl
@[simp] theorem State.memWrite_buffered (i : Idx) (c : Colour) : (s.memWrite i c).buffered = s.buffered := rfl
@[simp] theorem State.memWrite_busy (i : Idx) (c : Colour) : (s.memWrite i c).busy = s.busy := rfl
@[simp] theorem State.memWrite_irqInhibit (i : Idx) (c : Colour) : (s.memWrite i c).irqInhibit = s.irqInhibit := rfl
@[simp] theorem State.memWrite_portOut (i : Idx) (c : Colour) : (s.memWrite i c).portOut = s.portOut := rfl
@[simp] theorem State.memWrite_portDir (i : Idx) (c : Colour) : (s.memWrite i c).portDir = s.portDir := rfl
@[simp] theorem State.memWrite_pinMask (i : Idx) (c : Colour) : (s.memWrite i c).pinMask = s.pinMask := rfl
@[simp] theorem State.memWrite_count (i : Idx) (c : Colour) : (s.memWrite i c).count = s.count := rfl
@[simp] theorem State.memWrite_store (i : Idx) (c : Colour) : (s.memWrite i c).store = s.store.write i.toNat c := rfl
@[simp] theorem State.memWrite_timer (i : Idx) (c : Colour) : (s.memWrite i c).timer = s.timer := rfl
@[simp] theorem State.memWrite_rsp (i : Idx) (c : Colour) : (s.memWrite i c).rsp = s.rsp := rfl
@[simp] theorem State.memWrite_trace (i : Idx) (c : Colour) : (s.memWrite i c).trace = s.trace := rfl
@[simp] theorem State.memWrite_wire (i : Idx) (c : Colour) : (s.memWrite i c).wire = s.wire := rfl
@[simp] theorem State.memWrite_work (i : Idx) (c : Colour) : (s.memWrite i c).work = s.work := rfl
@[simp] theorem State.memWrite_draws (i : Idx) (c : Colour) : (s.memWrite i c).draws = s.draws := rfl
@[simp] theorem State.memWrite_params (i : Idx) (c : Colour) : (s.memWrite i c).params = s.params := rfl
@[simp] theorem State.memWrite_host (i : Idx) (c : Colour) : (s.memWrite i c).host = s.host := rfl
@[simp] theorem State.memWrite_clock (i : Idx) (c : Colour) : (s.memWrite i c).clock = s.clock := rfl
@[simp] theorem State.memWrite_line (i : Idx) (c : Colour) : (s.memWrite i c).line = s.line := rfl

/-! ### drive -/

@[simp] theorem State.drive_x (v : Bool) : (s.drive v).x = s.x := rfl
@[simp] theorem State.drive_seq (v : Bool) : (s.drive v).seq = s.seq := rfl
@[simp] theorem State.drive_configured (v : Bool) : (s.drive v).configured = s.configured := rfl
@[simp] theorem State.drive_buffered (v : Bool) : (s.drive v).buffered = s.buffered := rfl
@[simp] theorem State.drive_busy (v : Bool) : (s.drive v).busy = s.busy := rfl
@[simp] theorem State.drive_irqInhibit (v : Bool) : (s.drive v).irqInhibit = s.irqInhibit := rfl
@[simp] theorem State.drive_portOut (v : Bool) : (s.drive v).portOut = (s.portOut &&& ~~~s.pinMask) ||| (if v then s.pinMask else 0) := rfl
@[simp] theorem State.drive_portDir (v : Bool) : (s.drive v).portDir = s.portDir := rfl
@[simp] theorem State.drive_pinMask (v : Bool) : (s.drive v).pinMask = s.pinMask := rfl
@[simp] theorem State.drive_count (v : Bool) : (s.drive v).count = s.count := rfl
@[simp] theorem State.drive_store (v : Bool) : (s.drive v).store = s.store := rfl
@[simp] theorem State.drive_timer (v : Bool) : (s.drive v).timer = s.timer := rfl
@[simp] theorem State.drive_rsp (v : Bool) : (s.drive v).rsp = s.rsp := rfl
@[simp] theorem State.drive_trace (v : Bool) : (s.drive v).trace = s.trace := rfl
@[simp] theorem State.drive_wire (v : Bool) : (s.drive v).wire = s.wire := rfl
@[simp] theorem State.drive_work (v : Bool) : (s.drive v).work = s.work := rfl
@[simp] theorem State.drive_draws (v : Bool) : (s.drive v).draws = s.draws := rfl
@[simp] theorem State.drive_params (v : Bool) : (s.drive v).params = s.params := rfl
@[simp] theorem State.drive_host (v : Bool) : (s.drive v).host = s.host := rfl
@[simp] theorem State.drive_clock (v : Bool) : (s.drive v).clock = s.clock := rfl

/-! ### startPhase -/

@[simp] theorem State.startPhase_x (ph : Phase) : (s.startPhase ph).x = s.x := rfl
@[simp] theorem State.startPhase_seq (ph : Phase) : (s.startPhase ph).seq = s.seq := rfl
@[simp] theorem State.startPhase_configured (ph : Phase) : (s.startPhase ph).configured = s.configured := rfl
@[simp] theorem State.startPhase_buffered (ph : Phase) : (s.startPhase ph).buffered = s.buffered := rfl
@[simp] theorem State.startPhase_busy (ph : Phase) : (s.startPhase ph).busy = s.busy := rfl
@[simp] theorem State.startPhase_irqInhibit (ph : Phase) : (s.startPhase ph).irqInhibit = s.irqInhibit := rfl
@[simp] theorem State.startPhase_portOut (ph : Phase) : (s.startPhase ph).portOut = s.portOut := rfl
@[simp] theorem State.startPhase_portDir (ph : Phase) : (s.startPhase ph).portDir = s.portDir := rfl
@[simp] theorem State.startPhase_pinMask (ph : Phase) : (s.startPhase ph).pinMask = s.pinMask := rfl
@[simp] theorem State.startPhase_count (ph : Phase) : (s.startPhase ph).count = s.count := rfl
@[simp] theorem State.startPhase_store (ph : Phase) : (s.startPhase ph).store = s.store := rfl
@[simp] theorem State.startPhase_timer (ph : Phase) : (s.startPhase ph).timer = s.timer.load (phaseCycles s.params ph) s.irqInhibit := rfl
@[simp] theorem State.startPhase_rsp (ph : Phase) : (s.startPhase ph).rsp = s.rsp := rfl
@[simp] theorem State.startPhase_trace (ph : Phase) : (s.startPhase ph).trace = s.trace := rfl
@[simp] theorem State.startPhase_wire (ph : Phase) : (s.startPhase ph).wire = s.wire := rfl
@[simp] theorem State.startPhase_work (ph : Phase) : (s.startPhase ph).work = s.work := rfl
@[simp] theorem State.startPhase_draws (ph : Phase) : (s.startPhase ph).draws = s.draws := rfl
@[simp] theorem State.startPhase_params (ph : Phase) : (s.startPhase ph).params = s.params := rfl
@[simp] theorem State.startPhase_host (ph : Phase) : (s.startPhase ph).host = s.host := rfl
@[simp] theorem State.startPhase_clock (ph : Phase) : (s.startPhase ph).clock = s.clock := rfl
@[simp] theorem State.startPhase_line (ph : Phase) : (s.startPhase ph).line = s.line := rfl

/-! ### runPhase -/

@[simp] theorem State.runPhase_x (ph : Phase) : (s.runPhase ph).x = s.x := rfl
@[simp] theorem State.runPhase_seq (ph : Phase) : (s.runPhase ph).seq = s.seq := rfl
@[simp] theorem State.runPhase_configured (ph : Phase) : (s.runPhase ph).configured = s.configured := rfl
@[simp] theorem State.runPhase_buffered (ph : Phase) : (s.runPhase ph).buffered = s.buffered := rfl
@[simp] theorem State.runPhase_busy (ph : Phase) : (s.runPhase ph).busy = s.busy := rfl
@[simp] theorem State.runPhase_irqInhibit (ph : Phase) : (s.runPhase ph).irqInhibit = s.irqInhibit := rfl
@[simp] theorem State.runPhase_portOut (ph : Phase) : (s.runPhase ph).portOut = s.portOut := rfl
@[simp] theorem State.runPhase_portDir (ph : Phase) : (s.runPhase ph).portDir = s.portDir := rfl
@[simp] theorem State.runPhase_pinMask (ph : Phase) : (s.runPhase ph).pinMask = s.pinMask := rfl
@[simp] theorem State.runPhase_count (ph : Phase) : (s.runPhase ph).count = s.count := rfl
@[simp] theorem State.runPhase_store (ph : Phase) : (s.runPhase ph).store = s.store := rfl
@[simp] theorem State.runPhase_timer (ph : Phase) : (s.runPhase ph).timer = (Timer.run (isBitPhase ph) s.irqInhibit s.clock s.timer).1 := rfl
@[simp] theorem State.runPhase_rsp (ph : Phase) : (s.runPhase ph).rsp = s.rsp := rfl
@[simp] theorem State.runPhase_trace (ph : Phase) : (s.runPhase ph).trace = s.trace := rfl
@[simp] theorem State.runPhase_wire (ph : Phase) : (s.runPhase ph).wire = s.wire := rfl
@[simp] theorem State.runPhase_work (ph : Phase) : (s.runPhase ph).work = s.work := rfl
@[simp] theorem State.runPhase_draws (ph : Phase) : (s.runPhase ph).draws = s.draws := rfl
@[simp] theorem State.runPhase_params (ph : Phase) : (s.runPhase ph).params = s.params := rfl
@[simp] theorem State.runPhase_host (ph : Phase) : (s.runPhase ph).host = s.host := rfl
@[simp] theorem State.runPhase_clock (ph : Phase) : (s.runPhase ph).clock = (Timer.run (isBitPhase ph) s.irqInhibit s.clock s.timer).2 := rfl
@[simp] theorem State.runPhase_line (ph : Phase) : (s.runPhase ph).line = s.line := rfl

/-! ### endPhase -/

@[simp] theorem State.endPhase_x (ph : Phase) : (s.endPhase ph).x = s.x := rfl
@[simp] theorem State.endPhase_seq (ph : Phase) : (s.endPhase ph).seq = if s.seq.top = .pixel then s.seq.next else s.seq := rfl
@[simp] theorem State.endPhase_configured (ph : Phase) : (s.endPhase ph).configured = s.configured := rfl
@[simp] theorem State.endPhase_buffered (ph : Phase) : (s.endPhase ph).buffered = s.buffered := rfl
@[simp] theorem State.endPhase_busy (ph : Phase) : (s.endPhase ph).busy = s.busy := rfl
@[simp] theorem State.endPhase_irqInhibit (ph : Phase) : (s.endPhase ph).irqInhibit = s.irqInhibit := rfl
@[simp] theorem State.endPhase_portOut (ph : Phase) : (s.endPhase ph).portOut = s.portOut := rfl
@[simp] theorem State.endPhase_portDir (ph : Phase) : (s.endPhase ph).portDir = s.portDir := rfl
@[simp] theorem State.endPhase_pinMask (ph : Phase) : (s.endPhase ph).pinMask = s.pinMask := rfl
@[simp] theorem State.endPhase_count (ph : Phase) : (s.endPhase ph).count = s.count := rfl
@[simp] theorem State.endPhase_store (ph : Phase) : (s.endPhase ph).store = s.store := rfl
@[simp] theorem State.endPhase_timer (ph : Phase) : (s.endPhase ph).timer = ⟨0, s.timer.pending, 0, 0, 0⟩ := rfl
@[simp] theorem State.endPhase_rsp (ph : Phase) : (s.endPhase ph).rsp = s.rsp := rfl
@[simp] theorem State.endPhase_trace (ph : Phase) : (s.endPhase ph).trace = s.trace ++ [s.eventOf ph] := rfl
@[simp] theorem State.endPhase_wire (ph : Phase) : (s.endPhase ph).wire = s.wire ++ [s.spanOf ph] := rfl
@[simp] theorem State.endPhase_work (ph : Phase) : (s.endPhase ph).work = s.work := rfl
@[simp] theorem State.endPhase_draws (ph : Phase) : (s.endPhase ph).draws = s.draws := rfl
@[simp] theorem State.endPhase_params (ph : Phase) : (s.endPhase ph).params = s.params := rfl
@[simp] theorem State.endPhase_host (ph : Phase) : (s.endPhase ph).host = s.host := rfl
@[simp] theorem State.endPhase_clock (ph : Phase) : (s.endPhase ph).clock = s.clock := rfl
@[simp] theorem State.endPhase_line (ph : Phase) : (s.endPhase ph).line = s.line := rfl

/-! ### hold -/

@[simp] theorem State.hold_x (ph : Phase) : (s.hold ph).x = s.x := rfl
@[simp] theorem State.hold_seq (ph : Phase) : (s.hold ph).seq = if s.seq.top = .pixel then s.seq.next else s.seq := rfl
@[simp] theorem State.hold_configured (ph : Phase) : (s.hold ph).configured = s.configured := rfl
@[simp] theorem State.hold_buffered (ph : Phase) : (s.hold ph).buffered = s.buffered := rfl
@[simp] theorem State.hold_busy (ph : Phase) : (s.hold ph).busy = s.busy := rfl
@[simp] theorem State.hold_irqInhibit (ph : Phase) : (s.hold ph).irqInhibit = s.irqInhibit := rfl
@[simp] theorem State.hold_portOut (ph : Phase) : (s.hold ph).portOut = s.portOut := rfl
@[simp] theorem State.hold_portDir (ph : Phase) : (s.hold ph).portDir = s.portDir := rfl
@[simp] theorem State.hold_pinMask (ph : Phase) : (s.hold ph).pinMask = s.pinMask := rfl
@[simp] theorem State.hold_count (ph : Phase) : (s.hold ph).count = s.count := rfl
@[simp] theorem State.hold_store (ph : Phase) : (s.hold ph).store = s.store := rfl
@[simp] theorem State.hold_rsp (ph : Phase) : (s.hold ph).rsp = s.rsp := rfl
@[simp] theorem State.hold_trace (ph : Phase) : (s.hold ph).trace = s.trace ++ [s.eventOf ph] := rfl
@[simp] theorem State.hold_work (ph : Phase) : (s.hold ph).work = s.work := rfl
@[simp] theorem State.hold_draws (ph : Phase) : (s.hold ph).draws = s.draws := rfl
@[simp] theorem State.hold_params (ph : Phase) : (s.hold ph).params = s.params := rfl
@[simp] theorem State.hold_host (ph : Phase) : (s.hold ph).host = s.host := rfl
@[simp] theorem State.hold_line (ph : Phase) : (s.hold ph).line = s.line := rfl

/-! ### beginCommand -/

@[simp] theorem State.beginCommand_x : (s.beginCommand).x = s.x := rfl
@[simp] theorem State.beginCommand_seq : (s.beginCommand).seq = s.seq := rfl
@[simp] theorem State.beginCommand_configured : (s.beginCommand).configured = s.configured := rfl
@[simp] theorem State.beginCommand_buffered : (s.beginCommand).buffered = s.buffered := rfl
@[simp] theorem State.beginCommand_busy : (s.beginCommand).busy = true := rfl
@[simp] theorem State.beginCommand_irqInhibit : (s.beginCommand).irqInhibit = s.irqInhibit := rfl
@[simp] theorem State.beginCommand_portOut : (s.beginCommand).portOut = s.portOut := rfl
@[simp] theorem State.beginCommand_portDir : (s.beginCommand).portDir = s.portDir := rfl
@[simp] theorem State.beginCommand_pinMask : (s.beginCommand).pinMask = s.pinMask := rfl
@[simp] theorem State.beginCommand_count : (s.beginCommand).count = s.count := rfl
@[simp] theorem State.beginCommand_store : (s.beginCommand).store = s.store := rfl
@[simp] theorem State.beginCommand_timer : (s.beginCommand).timer = s.timer := rfl
@[simp] theorem State.beginCommand_rsp : (s.beginCommand).rsp = none := rfl
@[simp] theorem State.beginCommand_trace : (s.beginCommand).trace = s.trace := rfl
@[simp] theorem State.beginCommand_wire : (s.beginCommand).wire = s.wire := rfl
@[simp] theorem State.beginCommand_work : (s.beginCommand).work = s.work := rfl
@[simp] theorem State.beginCommand_draws : (s.beginCommand).draws = s.draws := rfl
@[simp] theorem State.beginCommand_params : (s.beginCommand).params = s.params := rfl
@[simp] theorem State.beginCommand_host : (s.beginCommand).host = s.host := rfl
@[simp] theorem State.beginCommand_clock : (s.beginCommand).clock = s.clock := rfl
@[simp] theorem State.beginCommand_line : (s.beginCommand).line = s.line := rfl

/-! ### endCommand -/

@[simp] theorem State.endCommand_x : (State.endCommand s).x = s.x := rfl
@[simp] theorem State.endCommand_seq : (State.endCommand s).seq = Seq.rest := rfl
@[simp] theorem State.endCommand_configured : (State.endCommand s).configured = s.configured := rfl
@[simp] theorem State.endCommand_buffered : (State.endCommand s).buffered = s.buffered := rfl
@[simp] theorem State.endCommand_busy : (State.endCommand s).busy = false := rfl
@[simp] theorem State.endCommand_irqInhibit : (State.endCommand s).irqInhibit = s.irqInhibit := rfl
@[simp] theorem State.endCommand_portOut : (State.endCommand s).portOut = s.portOut := rfl
@[simp] theorem State.endCommand_portDir : (State.endCommand s).portDir = s.portDir := rfl
@[simp] theorem State.endCommand_pinMask : (State.endCommand s).pinMask = s.pinMask := rfl
@[simp] theorem State.endCommand_count : (State.endCommand s).count = s.count := rfl
@[simp] theorem State.endCommand_store : (State.endCommand s).store = s.store := rfl
@[simp] theorem State.endCommand_timer : (State.endCommand s).timer = s.timer := rfl
@[simp] theorem State.endCommand_rsp : (State.endCommand s).rsp = s.rsp := rfl
@[simp] theorem State.endCommand_trace : (State.endCommand s).trace = s.trace := rfl
@[simp] theorem State.endCommand_wire : (State.endCommand s).wire = s.wire := rfl
@[simp] theorem State.endCommand_work : (State.endCommand s).work = s.work := rfl
@[simp] theorem State.endCommand_draws : (State.endCommand s).draws = s.draws := rfl
@[simp] theorem State.endCommand_params : (State.endCommand s).params = s.params := rfl
@[simp] theorem State.endCommand_host : (State.endCommand s).host = s.host := rfl
@[simp] theorem State.endCommand_clock : (State.endCommand s).clock = s.clock := rfl
@[simp] theorem State.endCommand_line : (State.endCommand s).line = s.line := rfl

/-! ### warmReset -/

@[simp] theorem State.warmReset_x : s.warmReset.x = ⟨Config.freeByte s.draws, Config.freeByte (s.draws + 1), Config.freeByte (s.draws + 2)⟩ := rfl
@[simp] theorem State.warmReset_seq : s.warmReset.seq = Seq.rest := rfl
@[simp] theorem State.warmReset_configured : s.warmReset.configured = false := rfl
@[simp] theorem State.warmReset_buffered : s.warmReset.buffered = false := rfl
@[simp] theorem State.warmReset_busy : s.warmReset.busy = false := rfl
@[simp] theorem State.warmReset_irqInhibit : s.warmReset.irqInhibit = false := rfl
@[simp] theorem State.warmReset_portOut : s.warmReset.portOut = if s.seq.top = .idle then s.portOut else (s.drive (Config.freeLevel s.draws)).portOut := rfl
@[simp] theorem State.warmReset_portDir : s.warmReset.portDir = s.portDir := rfl
@[simp] theorem State.warmReset_pinMask : s.warmReset.pinMask = 0 := rfl
@[simp] theorem State.warmReset_count : s.warmReset.count = 0 := rfl
@[simp] theorem State.warmReset_store : s.warmReset.store = [] := rfl
@[simp] theorem State.warmReset_timer : s.warmReset.timer = Timer.rest := rfl
@[simp] theorem State.warmReset_rsp : s.warmReset.rsp = none := rfl
@[simp] theorem State.warmReset_trace : s.warmReset.trace = [] := rfl
@[simp] theorem State.warmReset_wire : s.warmReset.wire = [] := rfl
@[simp] theorem State.warmReset_work : s.warmReset.work = none := rfl
@[simp] theorem State.warmReset_draws : s.warmReset.draws = s.draws + 3 := rfl
@[simp] theorem State.warmReset_params : s.warmReset.params = s.params := rfl
@[simp] theorem State.warmReset_host : s.warmReset.host = s.host := rfl
@[simp] theorem State.warmReset_clock : s.warmReset.clock = s.clock := rfl

end Sys2Proof.Machine
end

