-- ==== Sys2Proof/Laws/Ops.lean ====
section
/-! SUPPORT. What the shared operations do, once: the store (read after write, the canonical form kept), the phase counter, and
`drive`. -/

namespace Sys2Proof.Machine

/-! ### The store -/

theorem Memory.read_of_all_gt {m : Memory} {i : Nat} (h : m.all (fun e => decide (i < e.1)) = true) :
    Memory.read m i = Colour.black := by
  induction m with
  | nil => rfl
  | cons e m ih =>
    obtain ⟨j, d⟩ := e
    simp only [List.all_cons, Bool.and_eq_true, decide_eq_true_eq] at h
    simp [Memory.read, show j ≠ i by omega, ih h.2]

theorem Memory.wf_cons {j : Nat} {d : Colour} {m : Memory} :
    Memory.wf ((j, d) :: m) = true ↔
      d ≠ Colour.black ∧ m.all (fun e => decide (j < e.1)) = true ∧ Memory.wf m = true := by
  simp [Memory.wf, and_assoc]

/-- A read after a write: the colour written at the index written, the entry as before at any other (R38). -/
theorem Memory.read_write {m : Memory} (hm : Memory.wf m = true) (i j : Nat) (c : Colour) :
    Memory.read (Memory.write m i c) j = if j = i then c else Memory.read m j := by
  induction m with
  | nil =>
    by_cases hc : c = Colour.black <;> by_cases hj : i = j <;> simp [Memory.write, Memory.read, hc, hj]
    exact fun h => absurd h.symm hj
  | cons e m ih =>
    obtain ⟨k, d⟩ := e
    obtain ⟨hd, hall, hwf⟩ := Memory.wf_cons.1 hm
    have below : ∀ n, n ≤ k → Memory.read m n = Colour.black := fun n hn =>
      Memory.read_of_all_gt (by
        simp only [List.all_eq_true, decide_eq_true_eq] at hall ⊢
        intro e he
        have := hall e he
        omega)
    rcases Nat.lt_trichotomy i k with hik | rfl | hik
    · by_cases hc : c = Colour.black
      · by_cases hj : j = i
        · subst hj
          simp [Memory.write, hik, hc, Memory.read, show k ≠ j by omega, below j (by omega)]
        · simp [Memory.write, hik, hc, hj]
      · by_cases hj : j = i
        · simp [Memory.write, hik, hc, Memory.read, hj]
        · simp [Memory.write, hik, hc, Memory.read, hj, Ne.symm hj]
    · by_cases hc : c = Colour.black
      · by_cases hj : j = i
        · subst hj
          simp [Memory.write, hc, below j le_rfl]
        · simp [Memory.write, hc, hj, Memory.read, Ne.symm hj]
      · by_cases hj : j = i
        · simp [Memory.write, hc, hj, Memory.read]
        · simp [Memory.write, hc, hj, Memory.read, Ne.symm hj]
    · have hn : ¬ i < k := by omega
      have hne : i ≠ k := by omega
      by_cases hj : k = j
      · subst hj
        simp [Memory.write, hn, hne, Memory.read, hne.symm]
      · simp [Memory.write, hn, hne, Memory.read, hj, ih hwf]

/-- Every index a write leaves listed was listed before or is the index written. -/
theorem Memory.all_write {m : Memory} {p : Nat → Bool} {i : Nat} {c : Colour}
    (hm : m.all (fun e => p e.1) = true) (hi : p i = true) :
    (Memory.write m i c).all (fun e => p e.1) = true := by
  induction m with
  | nil => by_cases hc : c = Colour.black <;> simp [Memory.write, hc, hi]
  | cons e m ih =>
    obtain ⟨k, d⟩ := e
    simp only [List.all_cons, Bool.and_eq_true] at hm
    rw [Memory.write]
    split_ifs <;> simp [hm.1, hm.2, hi, ih hm.2]

/-- A write keeps the canonical form (log entry 10). -/
theorem Memory.write_wf {m : Memory} (hm : Memory.wf m = true) (i : Nat) (c : Colour) :
    Memory.wf (Memory.write m i c) = true := by
  induction m with
  | nil => by_cases hc : c = Colour.black <;> simp [Memory.write, hc, Memory.wf]
  | cons e m ih =>
    obtain ⟨k, d⟩ := e
    obtain ⟨hd, hall, hwf⟩ := Memory.wf_cons.1 hm
    rw [Memory.write]
    split_ifs with h1 h2 h3 h4
    · exact hm
    · refine Memory.wf_cons.2 ⟨h2, ?_, hm⟩
      simp only [List.all_eq_true, decide_eq_true_eq, List.mem_cons] at hall ⊢
      rintro e (rfl | he)
      · exact h1
      · have := hall e he; omega
    · exact hwf
    · exact Memory.wf_cons.2 ⟨h4, by subst h3; exact hall, hwf⟩
    · exact Memory.wf_cons.2
        ⟨hd, Memory.all_write (p := fun j => decide (k < j)) hall (by simpa using (by omega : k < i)), ih hwf⟩

/-- A write below `n` keeps every entry below `n`. -/
theorem Memory.write_within {m : Memory} {n : Nat} (hm : Memory.within n m = true) {i : Nat} (hi : i < n)
    (c : Colour) : Memory.within n (Memory.write m i c) = true :=
  Memory.all_write (p := fun j => decide (j < n)) hm (by simpa using hi)

theorem Memory.fill_succ (m : Memory) (n : Nat) (c : Colour) :
    Memory.fill m (n + 1) c = Memory.write (Memory.fill m n c) n c := by
  simp [Memory.fill, List.range_succ]

theorem Memory.fill_wf {m : Memory} (hm : Memory.wf m = true) (n : Nat) (c : Colour) :
    Memory.wf (Memory.fill m n c) = true := by
  induction n with
  | zero => simpa [Memory.fill] using hm
  | succ n ih => rw [Memory.fill_succ]; exact Memory.write_wf ih n c

theorem Memory.fill_within {m : Memory} {n : Nat} (hm : Memory.within n m = true) (c : Colour) (k : Nat)
    (hk : k ≤ n) : Memory.within n (Memory.fill m k c) = true := by
  induction k with
  | zero => simpa [Memory.fill] using hm
  | succ k ih => rw [Memory.fill_succ]; exact Memory.write_within (ih (by omega)) (by omega) c

/-- A fill sets every index below its bound and leaves the others (R91). -/
theorem Memory.read_fill {m : Memory} (hm : Memory.wf m = true) (n : Nat) (c : Colour) (j : Nat) :
    Memory.read (Memory.fill m n c) j = if j < n then c else Memory.read m j := by
  induction n with
  | zero => simp [Memory.fill]
  | succ n ih =>
    rw [Memory.fill_succ, Memory.read_write (Memory.fill_wf hm n c), ih]
    by_cases h : j = n
    · simp [h]
    · by_cases h' : j < n
      · simp [h, h', show j < n + 1 by omega]
      · simp [h, h', show ¬ j < n + 1 by omega]

/-- Canonical stores that read alike are equal: the form is canonical. -/
theorem Memory.ext_read {m n : Memory} (hm : Memory.wf m = true) (hn : Memory.wf n = true)
    (h : ∀ i, Memory.read m i = Memory.read n i) : m = n := by
  induction m generalizing n with
  | nil =>
    cases n with
    | nil => rfl
    | cons e n =>
      obtain ⟨k, d⟩ := e
      have := h k
      simp [Memory.read] at this
      exact absurd this.symm (Memory.wf_cons.1 hn).1
  | cons e m ih =>
    obtain ⟨j, c⟩ := e
    obtain ⟨hc, hall, hwf⟩ := Memory.wf_cons.1 hm
    cases n with
    | nil =>
      have := h j
      simp [Memory.read] at this
      exact absurd this hc
    | cons e n =>
      obtain ⟨k, d⟩ := e
      obtain ⟨hd, hall', hwf'⟩ := Memory.wf_cons.1 hn
      have gt : ∀ {m : Memory} {a b : Nat}, m.all (fun e => decide (a < e.1)) = true → b ≤ a →
          Memory.read m b = Colour.black := fun hm hb => Memory.read_of_all_gt (by
        simp only [List.all_eq_true, decide_eq_true_eq] at hm ⊢
        intro e he
        have := hm e he
        omega)
      have hjk : j = k := by
        rcases Nat.lt_trichotomy j k with hjk | hjk | hjk
        · have := h j
          rw [Memory.read, if_pos rfl, Memory.read, if_neg (by omega), gt hall' (by omega)] at this
          exact absurd this hc
        · exact hjk
        · have := h k
          rw [Memory.read, if_neg (by omega), gt hall (by omega), Memory.read, if_pos rfl] at this
          exact absurd this.symm hd
      subst hjk
      have hcd : c = d := by simpa [Memory.read] using h j
      subst hcd
      congr 1
      refine ih hwf hwf' fun i => ?_
      by_cases hij : i ≤ j
      · rw [gt hall hij, gt hall' hij]
      · have := h i
        rwa [Memory.read, if_neg (by omega), Memory.read, if_neg (by omega)] at this

/-! ### The phase counter -/

/-- A loaded timer's count and what it has to serve (R106). -/
theorem Timer.load_inhibited (n : Nat) (t : Timer) : Timer.load n true t = ⟨n, t.pending, 0, 0, 0⟩ := rfl

theorem Timer.load_open (n : Nat) (t : Timer) : Timer.load n false t = ⟨n + t.pending, 0, 0, t.pending, 0⟩ := rfl

/-- An inhibited bit phase takes exactly its count, whatever the environment does (R105, R106). -/
theorem Timer.run_inhibited (ps : List Period) (t : Timer) (h : 0 < t.tmr) :
    (Timer.run true true ps t).1.elapsed = t.elapsed + t.tmr ∧ (Timer.run true true ps t).1.service = t.service
      ∧ (Timer.run true true ps t).1.tmr = 0 := by
  induction ps generalizing t with
  | nil => simp [Timer.run]; omega
  | cons p ps ih =>
    rw [Timer.run]
    by_cases h1 : t.tmr = 1
    · simp [Timer.over, Timer.period, Period.honoured, h1]
    · have := ih (t.period true p) (by simp [Timer.period, Period.honoured]; omega)
      have h2 : ¬ (t.tmr - 1 = 0) := by omega
      rw [if_neg (by simp [Timer.over, Timer.period, Period.honoured, h2])]
      simp only [this]
      simp [Timer.period, Period.honoured]
      omega

/-- A bit phase that is not inhibited lasts its count and the service in it, and defers nothing (R105, R107). -/
theorem Timer.run_open (ps : List Period) (t : Timer) (h : 0 < t.tmr) :
    (Timer.run true false ps t).1.elapsed + t.service = t.elapsed + t.tmr + (Timer.run true false ps t).1.service
      ∧ t.service ≤ (Timer.run true false ps t).1.service
      ∧ (Timer.run true false ps t).1.pending = t.pending ∧ (Timer.run true false ps t).1.tmr = 0 := by
  induction ps generalizing t with
  | nil => simp [Timer.run]; omega
  | cons p ps ih =>
    rw [Timer.run]
    rcases p with ⟨st, li, ex⟩
    cases st
    · by_cases h1 : t.tmr = 1
      · simp [Timer.over, Timer.period, Period.honoured, h1]
      · have := ih (t.period false ⟨false, li, ex⟩) (by simp [Timer.period, Period.honoured]; omega)
        have h2 : ¬ (t.tmr - 1 = 0) := by omega
        rw [if_neg (by simp [Timer.over, Timer.period, Period.honoured, h2])]
        simp [Timer.period, Period.honoured] at this ⊢
        omega
    · have := ih (t.period false ⟨true, li, ex⟩) (by simpa [Timer.period, Period.honoured] using h)
      rw [if_neg (by simp [Timer.over, Timer.period, Period.honoured])]
      simp [Timer.period, Period.honoured] at this ⊢
      omega

/-- A latch or a gap lasts at least its count and the service in it, and defers nothing (R107, D31). -/
theorem Timer.run_loose (ps : List Period) (t : Timer) :
    t.elapsed + t.tmr ≤ (Timer.run false false ps t).1.elapsed
      ∧ t.service ≤ (Timer.run false false ps t).1.service
      ∧ (Timer.run false false ps t).1.pending = t.pending ∧ (Timer.run false false ps t).1.tmr = 0 := by
  induction ps generalizing t with
  | nil => simp [Timer.run]
  | cons p ps ih =>
    rw [Timer.run]
    have := ih (t.period false p)
    rcases p with ⟨st, li, ex⟩
    cases st
    · split_ifs with h
      · simp [Timer.over, Timer.period, Period.honoured] at h ⊢
        omega
      · simp [Timer.period, Period.honoured] at this ⊢
        omega
    · rw [if_neg (by simp [Timer.over, Timer.period, Period.honoured])]
      simp [Timer.period, Period.honoured] at this ⊢
      omega

/-- A bit phase's count is never 0 (R71: at least one period). -/
theorem cycles_pos (p : Params) (t : Nat) : 0 < cycles p t := by
  unfold cycles; omega

/-! ### Operands -/

/-- An index operand is an `IDX_W`-bit number. -/
theorem idxOperand_toNat (p : Params) (v : Idx) : (idxOperand p v).toNat = v.toNat % 2 ^ p.idxW := by
  have h1 := v.isLt
  have h2 := Nat.mod_le v.toNat (2 ^ p.idxW)
  rw [idxOperand, BitVec.toNat_ofNat]
  exact Nat.mod_eq_of_lt (by omega)

theorem idxOperand_lt (p : Params) (v : Idx) : (idxOperand p v).toNat < 2 ^ p.idxW := by
  rw [idxOperand_toNat]
  exact Nat.mod_lt _ (by positivity)

/-- An operand that fits in `IDX_W` bits is read as it stands (R60). -/
theorem idxOperand_of_lt {p : Params} {v : Idx} (h : v.toNat < 2 ^ p.idxW) : idxOperand p v = v :=
  BitVec.eq_of_toNat_eq (by rw [idxOperand_toNat, Nat.mod_eq_of_lt h])

@[simp] theorem idxOperand_idxOperand (p : Params) (v : Idx) : idxOperand p (idxOperand p v) = idxOperand p v :=
  idxOperand_of_lt (idxOperand_lt p v)

/-! ### The line -/

/-- What `drive` leaves outside `PINMASK`, and under it. -/
theorem drive_bits (o m : PortBits) (v : Bool) :
    (o &&& ~~~m ||| (if v then m else 0)) &&& ~~~m = o &&& ~~~m
      ∧ (o &&& ~~~m ||| (if v then m else 0)) &&& m = (if v then m else 0) := by
  constructor <;> ext i hi <;> cases v <;> cases h : o[i] <;> cases h' : m[i] <;> simp [h, h']

/-- Driving the line sets its level, if a pin is selected (R22). -/
theorem State.line_drive (s : State) (h : s.pinMask ≠ 0) (v : Bool) : (s.drive v).line = v := by
  rw [State.line, State.drive_portOut, State.drive_pinMask, (drive_bits _ _ v).2]
  cases v
  · rfl
  · simpa using h

/-- `drive` moves no bit outside `PINMASK` (R22). -/
theorem State.drive_outside (s : State) (v : Bool) :
    (s.drive v).portOut &&& ~~~s.pinMask = s.portOut &&& ~~~s.pinMask := (drive_bits _ _ v).1

/-- Two drives in a row: the last one counts (R22). -/
theorem State.drive_drive (s : State) (v w : Bool) : ((s.drive v).drive w) = s.drive w := by
  have h := (drive_bits s.portOut s.pinMask v).1
  show ({ s with portOut := _ } : State) = { s with portOut := _ }
  rw [State.drive_portOut, State.drive_pinMask, h]

end Sys2Proof.Machine
end

