-- ==== Sys2Proof/Laws/Encoder.lean ====
section
/-! SUPPORT. What the encoder's procedures do: the fields they leave alone, the events they append, and that the realised trace
stays in step with the nominal one. -/

namespace Sys2Proof.Machine

/-! ### The frame: only the line's side of the state moves -/

/-- Between `s` and `t` only the line's port bit, `IRQ_INHIBIT`, `SEQ`, the timer, the traces and the environment's periods moved
(R22, R83). -/
structure WireOnly (s t : State) : Prop where
  x : t.x = s.x
  configured : t.configured = s.configured
  buffered : t.buffered = s.buffered
  busy : t.busy = s.busy
  portDir : t.portDir = s.portDir
  pinMask : t.pinMask = s.pinMask
  count : t.count = s.count
  store : t.store = s.store
  rsp : t.rsp = s.rsp
  work : t.work = s.work
  draws : t.draws = s.draws
  params : t.params = s.params
  host : t.host = s.host
  outside : t.portOut &&& ~~~s.pinMask = s.portOut &&& ~~~s.pinMask

theorem WireOnly.refl (s : State) : WireOnly s s :=
  ⟨rfl, rfl, rfl, rfl, rfl, rfl, rfl, rfl, rfl, rfl, rfl, rfl, rfl, rfl⟩

theorem WireOnly.trans {s t u : State} (h : WireOnly s t) (h' : WireOnly t u) : WireOnly s u where
  x := h'.x.trans h.x
  configured := h'.configured.trans h.configured
  buffered := h'.buffered.trans h.buffered
  busy := h'.busy.trans h.busy
  portDir := h'.portDir.trans h.portDir
  pinMask := h'.pinMask.trans h.pinMask
  count := h'.count.trans h.count
  store := h'.store.trans h.store
  rsp := h'.rsp.trans h.rsp
  work := h'.work.trans h.work
  draws := h'.draws.trans h.draws
  params := h'.params.trans h.params
  host := h'.host.trans h.host
  outside := by
    have h1 := h'.outside
    rw [h.pinMask] at h1
    exact h1.trans h.outside

theorem hold_wireOnly (ph : Phase) (s : State) : WireOnly s (s.hold ph) :=
  ⟨rfl, rfl, rfl, rfl, rfl, rfl, rfl, rfl, rfl, rfl, rfl, rfl, rfl, rfl⟩

theorem drive_wireOnly (v : Bool) (s : State) : WireOnly s (s.drive v) :=
  ⟨rfl, rfl, rfl, rfl, rfl, rfl, rfl, rfl, rfl, rfl, rfl, rfl, rfl, s.drive_outside v⟩

theorem setInhibit_wireOnly (v : Bool) (s : State) : WireOnly s (s.setInhibit v) :=
  ⟨rfl, rfl, rfl, rfl, rfl, rfl, rfl, rfl, rfl, rfl, rfl, rfl, rfl, rfl⟩

theorem goto_wireOnly (q : Seq) (s : State) : WireOnly s (s.goto q) :=
  ⟨rfl, rfl, rfl, rfl, rfl, rfl, rfl, rfl, rfl, rfl, rfl, rfl, rfl, rfl⟩

theorem sendBit_wireOnly (v : Bool) (s : State) : WireOnly s (sendBit v s) := by
  cases v
  · exact ((((((setInhibit_wireOnly _ _).trans (drive_wireOnly _ _)).trans (hold_wireOnly _ _)).trans
      (drive_wireOnly _ _)).trans (setInhibit_wireOnly _ _)).trans (hold_wireOnly _ _))
  · exact (((drive_wireOnly _ _).trans (hold_wireOnly _ _)).trans (drive_wireOnly _ _)).trans
      (hold_wireOnly _ _)

/-- A fold of steps that each keep a relation keeps it. -/
theorem foldl_wireOnly {α : Type} (f : State → α → State) (h : ∀ s a, WireOnly s (f s a)) (as : List α)
    (s : State) : WireOnly s (as.foldl f s) := by
  induction as generalizing s with
  | nil => exact WireOnly.refl s
  | cons a as ih => exact (h s a).trans (ih _)

theorem sendByte_wireOnly (v : Byte) (s : State) : WireOnly s (sendByte v s) :=
  foldl_wireOnly _ (fun s _ => sendBit_wireOnly _ s) _ _

theorem sendChannel_wireOnly (k : Fin 3) (s : State) : WireOnly s (sendChannel k s) :=
  sendByte_wireOnly _ s

theorem sendPixel_wireOnly (pix : Idx) (s : State) : WireOnly s (sendPixel pix s) :=
  (((goto_wireOnly _ _).trans (sendChannel_wireOnly _ _)).trans (sendChannel_wireOnly _ _)).trans
    (sendChannel_wireOnly _ _)

theorem latchSeq_wireOnly (s : State) : WireOnly s (latchSeq s) :=
  ((goto_wireOnly _ _).trans (drive_wireOnly _ _)).trans (hold_wireOnly _ _)

/-! ### The events -/

/-- What a transmission that begins and ends with the inhibit released does to the trace: it appends `es`, and ends with the
inhibit released and the line low. -/
structure Sends (s t : State) (es : List Event) : Prop where
  trace : t.trace = s.trace ++ es
  notInhibited : t.irqInhibit = false
  lineLow : t.line = false

theorem Sends.trans {s t u : State} {es fs : List Event} (h : Sends s t es) (h' : Sends t u fs) :
    Sends s u (es ++ fs) :=
  ⟨by rw [h'.trace, h.trace, List.append_assoc], h'.notInhibited, h'.lineLow⟩

/-- A bit appends its symbol (R52, R53, R73, R74). -/
theorem sendBit_sends (v : Bool) (s : State) (hp : s.pinMask ≠ 0) (hi : s.irqInhibit = false) :
    Sends s (sendBit v s) (bitEvents s.params v) := by
  cases v
  · have h1 := State.line_drive (s.setInhibit true) hp true
    have h2 := State.line_drive (((s.setInhibit true).drive true).hold .t0h) hp false
    constructor
    · simp [sendBit, bit0, bitEvents, State.eventOf, nominalNs, h1, h2]
    · simp [sendBit, bit0]
    · simp [sendBit, bit0, h2]
  · have h1 := State.line_drive s hp true
    have h2 := State.line_drive ((s.drive true).hold .t1h) hp false
    constructor
    · simp [sendBit, bit1, bitEvents, State.eventOf, nominalNs, h1, h2, hi]
    · simp [sendBit, bit1, hi]
    · simp [sendBit, bit1, h2]

theorem sendBits_cons (v : Byte) (b : Fin 8) (bs : List (Fin 8)) (s : State) :
    sendBits v (b :: bs) s = sendBits v bs (sendBit (v.getLsbD b.val) s) := rfl

/-- A list of bits appends their symbols, in order (R76). -/
theorem sendBits_sends (v : Byte) (bs : List (Fin 8)) (s : State) (hp : s.pinMask ≠ 0)
    (hi : s.irqInhibit = false) (hl : s.line = false) :
    Sends s (sendBits v bs s) ((bs.map fun (b : Fin 8) => v.getLsbD b.val).flatMap (bitEvents s.params)) := by
  induction bs generalizing s with
  | nil => exact ⟨by simp [sendBits], hi, hl⟩
  | cons b bs ih =>
    have h1 := sendBit_sends (v.getLsbD b.val) s hp hi
    have w1 := sendBit_wireOnly (v.getLsbD b.val) s
    have h2 := ih (sendBit (v.getLsbD b.val) s) (by rw [w1.pinMask]; exact hp) h1.notInhibited h1.lineLow
    rw [w1.params] at h2
    simpa [sendBits_cons] using h1.trans h2

/-- BYTE appends the symbols of its 8 bits, most significant first (R76). -/
theorem sendByte_sends (v : Byte) (s : State) (hp : s.pinMask ≠ 0) (hi : s.irqInhibit = false) :
    Sends s (sendByte v s) ((byteBits v).flatMap (bitEvents s.params)) := by
  have h1 := sendBit_sends (v.getLsbD 7) s hp hi
  have w1 := sendBit_wireOnly (v.getLsbD 7) s
  have h2 := sendBits_sends v [6, 5, 4, 3, 2, 1, 0] (sendBit (v.getLsbD 7) s) (by rw [w1.pinMask]; exact hp)
    h1.notInhibited h1.lineLow
  rw [w1.params] at h2
  exact h1.trans h2

/-- PIXEL appends the symbols of the 24 wire bits of the colour register file (R77, R79). -/
theorem sendPixel_sends (pix : Idx) (s : State) (hp : s.pinMask ≠ 0) (hi : s.irqInhibit = false) :
    Sends s (sendPixel pix s) (pixelEvents s.params s.x) := by
  have one : ∀ (k : Fin 3) (s : State), s.pinMask ≠ 0 → s.irqInhibit = false →
      Sends s (sendChannel k s) ((byteBits (wireByte k s.x)).flatMap (bitEvents s.params)) :=
    fun k s hp hi => sendByte_sends _ s hp hi
  let s0 := s.goto (Seq.pixelStart pix)
  have h0 := one 0 s0 hp hi
  have w0 := sendChannel_wireOnly 0 s0
  have h1 := one 1 (sendChannel 0 s0) (by rw [w0.pinMask]; exact hp) h0.notInhibited
  have w1 := sendChannel_wireOnly 1 (sendChannel 0 s0)
  have h2 := one 2 (sendChannel 1 (sendChannel 0 s0)) (by rw [w1.pinMask, w0.pinMask]; exact hp) h1.notInhibited
  have h := (h0.trans h1).trans h2
  rw [w1.x, w1.params, w0.x, w0.params] at h
  have e : pixelEvents s.params s.x =
      (byteBits (wireByte 0 s0.x)).flatMap (bitEvents s0.params) ++
        (byteBits (wireByte 1 s0.x)).flatMap (bitEvents s0.params) ++
        (byteBits (wireByte 2 s0.x)).flatMap (bitEvents s0.params) := by
    simp [pixelEvents, wirebits, wireByte, s0]
  rw [e]
  exact ⟨h.trace, h.notInhibited, h.lineLow⟩

/-- LATCHSEQ appends one latch event (R80). -/
theorem latchSeq_sends (s : State) (hp : s.pinMask ≠ 0) (hi : s.irqInhibit = false) :
    Sends s (latchSeq s) [latchEvent s.params] := by
  have h := State.line_drive (s.goto Seq.latchHold) hp false
  constructor
  · simp [latchSeq, latchEvent, State.eventOf, nominalNs, hi, h]
  · simp [latchSeq, hi]
  · simp [latchSeq, h]

/-- A transmission that ends with the line low leaves `PORT_OUT` as it was outside `PINMASK`, and 0 under it (R22). -/
theorem portOut_of_low {s t : State} (w : WireOnly s t) (hl : t.line = false) :
    t.portOut = s.portOut &&& ~~~s.pinMask := by
  have h : t.portOut &&& s.pinMask = 0 := by
    have := hl
    rw [State.line, w.pinMask] at this
    simpa using this
  rw [← w.outside]
  ext i hi
  have hb := congrArg (fun v : PortBits => v[i]) h
  simp only [BitVec.getElem_and, BitVec.getElem_not] at hb ⊢
  cases h1 : t.portOut[i] <;> cases h2 : s.pinMask[i] <;> simp_all

end Sys2Proof.Machine
end

