-- ==== Sys2Proof/Laws/Realised.lean ====
section
/-! SUPPORT. The realised trace stays in step with the nominal one (R107), phase by phase. -/

namespace Sys2Proof.Machine

/-- A span of whole clock periods. -/
@[simp] theorem Span.width_periods (p : Params) (ph : Phase) (l : Bool) (n : Nat) (q : Seq) :
    Span.width p ⟨ph, l, n, 0, 0, q⟩ = n * periodUnits := by
  simp [Span.width]

theorem Span.le_width_periods (p : Params) (ph : Phase) (l : Bool) (ns ex : Nat) (q : Seq) {m n : Nat} (h : m ≤ n) :
    m * periodUnits ≤ Span.width p ⟨ph, l, n, ns, ex, q⟩ := by
  have := Nat.mul_le_mul_right periodUnits h
  simp only [Span.width]
  omega

theorem Span.le_width_ns (p : Params) (ph : Phase) (l : Bool) (n ns ex : Nat) (q : Seq) :
    ns * p.fClk ≤ Span.width p ⟨ph, l, n, ns, ex, q⟩ := by
  simp only [Span.width]
  omega

theorem State.hold_wire (ph : Phase) (s : State) :
    (s.hold ph).wire = s.wire ++ [((s.startPhase ph).runPhase ph).spanOf ph] := rfl

theorem State.hold_clock (ph : Phase) (s : State) :
    (s.hold ph).clock = ((s.startPhase ph).runPhase ph).clock := rfl

theorem State.hold_timer (ph : Phase) (s : State) :
    (s.hold ph).timer = ⟨0, ((s.startPhase ph).runPhase ph).timer.pending, 0, 0, 0⟩ := rfl

/-- The deferred service is served by the first phase that is not inhibited: the timer is at rest after one (R106, R29). -/
theorem hold_timer_rest (ph : Phase) (s : State) (hi : s.irqInhibit = false) :
    (s.hold ph).timer = Timer.rest := by
  rw [State.hold_timer]
  have : ((s.startPhase ph).runPhase ph).timer.pending = 0 := by
    simp only [State.runPhase_timer, State.startPhase_timer, State.startPhase_irqInhibit, hi, Timer.load_open]
    cases ph
    case latch => exact (Timer.run_loose _ _).2.2.1
    case gap => exact (Timer.run_loose _ _).2.2.1
    all_goals exact (Timer.run_open _ _ (by simp only [phaseCycles, nominalNs]; have := cycles_pos s.params; simp [this])).2.2.1
  rw [this]
  rfl

/-- A `hold` adds a span that realises its event, if the inhibit is up exactly for the high phase of a 0-bit (R74, R107). -/
theorem hold_realises (ph : Phase) (s : State) (hi : s.irqInhibit = (ph == .t0h)) :
    realises s.params (s.eventOf ph) (((s.startPhase ph).runPhase ph).spanOf ph) = true := by
  have bit : ∀ q : Phase, isBitPhase q = true → q ≠ .t0h → s.irqInhibit = false →
      cycles s.params (nominalNs s.params q) ≤
        (Timer.run true false s.clock (s.timer.load (cycles s.params (nominalNs s.params q)) false)).1.elapsed := by
    intro q _ _ _
    have := Timer.run_open s.clock (s.timer.load (cycles s.params (nominalNs s.params q)) false)
      (by rw [Timer.load_open]; have := cycles_pos s.params (nominalNs s.params q); simp; omega)
    rw [Timer.load_open] at this ⊢
    simp only at this
    omega
  cases ph
  case t0h =>
    have hi' : s.irqInhibit = true := by simpa using hi
    have := (Timer.run_inhibited s.clock (s.timer.load (cycles s.params (nominalNs s.params .t0h)) true)
      (by rw [Timer.load_inhibited]; exact cycles_pos _ _)).1
    rw [Timer.load_inhibited] at this
    simp only [nominalNs] at this
    simp [realises, State.eventOf, State.spanOf, hi', isBitPhase, phaseCycles, nominalNs, Timer.load_inhibited, this]
  case latch =>
    have hi' : s.irqInhibit = false := hi.trans (by decide)
    have := (Timer.run_loose s.clock (s.timer.load (latchCycles s.params) false)).1
    rw [Timer.load_open] at this
    simp only at this
    simp [realises, State.eventOf, State.spanOf, hi', isBitPhase, phaseCycles, Timer.load_open]
    exact Span.le_width_periods _ _ _ _ _ _ (by omega)
  case gap =>
    have hi' : s.irqInhibit = false := hi.trans (by decide)
    simp [realises, State.eventOf, State.spanOf, nominalNs, hi']
    exact Span.le_width_ns _ _ _ _ _ _ _
  all_goals
    have hi' : s.irqInhibit = false := hi.trans (by decide)
    simp [realises, State.eventOf, State.spanOf, hi', isBitPhase, phaseCycles]
  case t1h => exact Nat.mul_le_mul_right _ (bit .t1h rfl (by decide) hi')
  case t1l => exact Nat.mul_le_mul_right _ (bit .t1l rfl (by decide) hi')
  case t0l => exact Nat.mul_le_mul_right _ (bit .t0l rfl (by decide) hi')

theorem tracesAgree_append {p : Params} {es fs : List Event} {us vs : List Span}
    (h : tracesAgree p es us = true) (h' : tracesAgree p fs vs = true) :
    tracesAgree p (es ++ fs) (us ++ vs) = true := by
  induction es generalizing us with
  | nil => cases us with
    | nil => exact h'
    | cons u us => simp [tracesAgree] at h
  | cons e es ih => cases us with
    | nil => simp [tracesAgree] at h
    | cons u us =>
      simp only [tracesAgree, Bool.and_eq_true, List.cons_append] at h ⊢
      exact ⟨h.1, ih h.2⟩

/-- From `s` to `t` the nominal and the realised trace grew in step (R27: nothing is taken away; R107). -/
def InStep (s t : State) : Prop :=
  ∃ es us, t.trace = s.trace ++ es ∧ t.wire = s.wire ++ us ∧ tracesAgree s.params es us = true

theorem InStep.refl (s : State) : InStep s s := ⟨[], [], by simp, by simp, rfl⟩

theorem InStep.trans {s t u : State} (h : InStep s t) (hp : t.params = s.params) (h' : InStep t u) :
    InStep s u := by
  obtain ⟨es, us, h1, h2, h3⟩ := h
  obtain ⟨fs, vs, h4, h5, h6⟩ := h'
  rw [hp] at h6
  exact ⟨es ++ fs, us ++ vs, by rw [h4, h1, List.append_assoc], by rw [h5, h2, List.append_assoc],
    tracesAgree_append h3 h6⟩

/-- States with the same two traces are in step. -/
theorem InStep.of_eq {s t : State} (h1 : t.trace = s.trace) (h2 : t.wire = s.wire) : InStep s t :=
  ⟨[], [], by simp [h1], by simp [h2], rfl⟩

theorem hold_inStep (ph : Phase) (s : State) (hi : s.irqInhibit = (ph == .t0h)) : InStep s (s.hold ph) :=
  ⟨[_], [_], State.hold_trace s ph, State.hold_wire ph s, by simp [tracesAgree, hold_realises ph s hi]⟩

/-- A bit keeps the traces in step and leaves the timer at rest (R73, R74). -/
theorem sendBit_inStep (v : Bool) (s : State) (hi : s.irqInhibit = false) :
    InStep s (sendBit v s) ∧ (sendBit v s).timer = Timer.rest := by
  cases v
  · refine ⟨?_, hold_timer_rest _ _ (by simp)⟩
    have h1 : InStep s ((((s.setInhibit true).drive true).hold .t0h)) :=
      hold_inStep .t0h ((s.setInhibit true).drive true) (by simp)
    refine InStep.trans h1 (by simp) ?_
    exact hold_inStep .t0l (((((s.setInhibit true).drive true).hold .t0h).drive false).setInhibit false) (by simp)
  · refine ⟨?_, hold_timer_rest _ _ (by simp [hi])⟩
    have h1 : InStep s ((s.drive true).hold .t1h) := hold_inStep .t1h (s.drive true) (by simp [hi])
    refine InStep.trans h1 (by simp) ?_
    exact hold_inStep .t1l (((s.drive true).hold .t1h).drive false) (by simp [hi])

theorem sendBits_inStep (v : Byte) (bs : List (Fin 8)) (s : State) (hi : s.irqInhibit = false)
    (ht : s.timer = Timer.rest) :
    InStep s (sendBits v bs s) ∧ (sendBits v bs s).timer = Timer.rest ∧ (sendBits v bs s).irqInhibit = false := by
  induction bs generalizing s with
  | nil => exact ⟨InStep.refl s, ht, hi⟩
  | cons b bs ih =>
    have h1 := sendBit_inStep (v.getLsbD b.val) s hi
    have i1 : (sendBit (v.getLsbD b.val) s).irqInhibit = false := by
      cases v.getLsbD b.val <;> simp [sendBit, bit0, bit1, hi]
    obtain ⟨h2, h3, h4⟩ := ih _ i1 h1.2
    exact ⟨h1.1.trans (sendBit_wireOnly _ s).params h2, h3, h4⟩

theorem sendChannel_inStep (k : Fin 3) (s : State) (hi : s.irqInhibit = false) (ht : s.timer = Timer.rest) :
    InStep s (sendChannel k s) ∧ (sendChannel k s).timer = Timer.rest ∧ (sendChannel k s).irqInhibit = false :=
  sendBits_inStep _ _ s hi ht

/-- A pixel keeps the traces in step and leaves the timer at rest. -/
theorem sendPixel_inStep (pix : Idx) (s : State) (hi : s.irqInhibit = false) (ht : s.timer = Timer.rest) :
    InStep s (sendPixel pix s) ∧ (sendPixel pix s).timer = Timer.rest ∧ (sendPixel pix s).irqInhibit = false := by
  obtain ⟨a0, t0, i0⟩ := sendChannel_inStep 0 (s.goto (Seq.pixelStart pix)) hi ht
  obtain ⟨a1, t1, i1⟩ := sendChannel_inStep 1 _ i0 t0
  obtain ⟨a2, t2, i2⟩ := sendChannel_inStep 2 _ i1 t1
  have w0 := sendChannel_wireOnly 0 (s.goto (Seq.pixelStart pix))
  have w1 := sendChannel_wireOnly 1 (sendChannel 0 (s.goto (Seq.pixelStart pix)))
  have a : InStep (s.goto (Seq.pixelStart pix)) (sendPixel pix s) :=
    (a0.trans w0.params a1).trans (w1.params.trans w0.params) a2
  exact ⟨(InStep.of_eq rfl rfl).trans rfl a, t2, i2⟩

/-- A latch keeps the traces in step and leaves the timer at rest. -/
theorem latchSeq_inStep (s : State) (hi : s.irqInhibit = false) :
    InStep s (latchSeq s) ∧ (latchSeq s).timer = Timer.rest ∧ (latchSeq s).irqInhibit = false := by
  refine ⟨?_, hold_timer_rest _ _ (by simpa using hi), by simpa [latchSeq] using hi⟩
  exact hold_inStep .latch ((s.goto Seq.latchHold).drive false) (hi.trans (by decide))

end Sys2Proof.Machine
end

