-- ==== Sys2Proof/Laws/Clock.lean ====
section
/-! SUPPORT. The clocked sequencer, phase by phase: from the start of a phase a busy block comes, in some number of clock periods, to
the end of it as `hold` has it. -/

namespace Sys2Proof.Machine

theorem busyRun_add (m n : Nat) (s : State) : busyRun (m + n) s = busyRun n (busyRun m s) := by
  induction m generalizing s with
  | zero => simp [busyRun]
  | succ m ih =>
    rw [Nat.succ_add, busyRun, busyRun]
    by_cases hb : s.busy = true
    · rw [if_pos hb, if_pos hb, ih]
    · rw [if_neg hb, if_neg hb]
      cases n with
      | zero => rfl
      | succ n => rw [busyRun, if_neg hb]

/-- The clocked block comes from `s` to `t` in some number of clock periods. -/
def Reaches (s t : State) : Prop := ∃ n, busyRun n s = t

theorem Reaches.refl (s : State) : Reaches s s := ⟨0, rfl⟩

theorem Reaches.trans {s t u : State} (h : Reaches s t) (h' : Reaches t u) : Reaches s u := by
  obtain ⟨m, rfl⟩ := h
  obtain ⟨n, rfl⟩ := h'
  exact ⟨m + n, busyRun_add m n s⟩

theorem Reaches.step {s t : State} (hb : s.busy = true) (h : busyStep s = t) : Reaches s t :=
  ⟨1, by rw [busyRun, if_pos hb, h]; rfl⟩

/-- The block is in a phase: busy, with work that has phases, and no response on the port. -/
structure InPhase (s : State) : Prop where
  busy : s.busy = true
  work : ∀ i, s.work ≠ some (.quick i)
  rsp : s.rsp = none

theorem busyStep_inPhase {s : State} (h : InPhase s) :
    busyStep s = phaseTick (takePeriod s).1 (takePeriod s).2 := by
  have hr : ∀ t : State, t.rsp = none → t.respond none = t := fun t ht => by
    simp only [State.respond, ← ht]
  have hw : ∀ (p : Period) (t : State), t.work = s.work → t.rsp = none → busyTick p t = phaseTick p t := by
    intro p t hw ht
    unfold busyTick
    rw [hr t ht]
    split
    · next i hi => exact absurd (hw ▸ hi) (h.work i)
    · rfl
  have hb : busyStep s = busyTick (takePeriod s).1 (takePeriod s).2 := by
    unfold busyStep
    split
    · next i hi => exact absurd hi (h.work i)
    · rfl
  rw [hb]
  unfold takePeriod
  split
  · exact hw _ _ rfl h.rsp
  · exact hw _ _ rfl h.rsp

/-- The phase the block is in does not depend on the timer or the periods to come. -/
theorem phaseNow_setTimer (t : Timer) (s : State) : phaseNow (s.setTimer t) = phaseNow s := rfl

theorem phaseNow_setClock (ps : List Period) (s : State) : phaseNow (s.setClock ps) = phaseNow s := rfl

/-- From anywhere in a phase the block comes to the phase's end (R105, R114, R136), where the next phase is entered. -/
theorem phase_reaches (s : State) (h : InPhase s) :
    Reaches s (afterPhase (s.runPhase (phaseNow s))) := by
  suffices H : ∀ (ps : List Period) (t : Timer),
      Reaches ((s.setTimer t).setClock ps)
        (afterPhase ((s.setTimer (Timer.run (isBitPhase (phaseNow s)) s.irqInhibit ps t).1).setClock
          (Timer.run (isBitPhase (phaseNow s)) s.irqInhibit ps t).2)) from H s.clock s.timer
  intro ps
  have hp : ∀ (t : Timer) (ps : List Period), InPhase ((s.setTimer t).setClock ps) := fun _ _ =>
    ⟨h.busy, h.work, h.rsp⟩
  induction ps with
  | nil =>
    intro t
    have one : ∀ t : Timer, busyStep ((s.setTimer t).setClock []) =
        if t.tmr - 1 = 0 then afterPhase ((s.setTimer ⟨t.tmr - 1, t.pending, t.elapsed + 1, t.service, t.excess⟩).setClock [])
        else (s.setTimer ⟨t.tmr - 1, t.pending, t.elapsed + 1, t.service, t.excess⟩).setClock [] := by
      intro t
      have step : busyStep ((s.setTimer t).setClock []) =
          if (t.period s.irqInhibit .quiet).over (isBitPhase (phaseNow s)) s.irqInhibit .quiet = true then
            afterPhase ((s.setTimer (t.period s.irqInhibit .quiet)).setClock [])
          else (s.setTimer (t.period s.irqInhibit .quiet)).setClock [] := by
        rw [busyStep_inPhase (hp t [])]
        rfl
      have quiet : t.period s.irqInhibit .quiet = ⟨t.tmr - 1, t.pending, t.elapsed + 1, t.service, t.excess⟩ := rfl
      rw [step, quiet]
      by_cases h0 : t.tmr - 1 = 0 <;> simp [Timer.over, Period.honoured, Period.quiet, h0]
    obtain ⟨n, hn⟩ : ∃ n, t.tmr ≤ n + 1 := ⟨t.tmr, by omega⟩
    induction n generalizing t with
    | zero =>
      refine Reaches.step (hp t []).busy ?_
      rw [one, if_pos (by omega)]
      have : max t.tmr 1 = 1 := by omega
      simp only [Timer.run, this]
      rw [show t.tmr - 1 = 0 by omega]
    | succ n ih =>
      by_cases h0 : t.tmr - 1 = 0
      · refine Reaches.step (hp t []).busy ?_
        rw [one, if_pos h0]
        have : max t.tmr 1 = 1 := by omega
        simp only [Timer.run, this]
        rw [h0]
      · refine (Reaches.step (hp t []).busy ((one t).trans (if_neg h0))).trans ?_
        have := ih ⟨t.tmr - 1, t.pending, t.elapsed + 1, t.service, t.excess⟩ (by simp; omega)
        simp only [Timer.run] at this ⊢
        rwa [show t.elapsed + 1 + max (t.tmr - 1) 1 = t.elapsed + max t.tmr 1 by omega] at this
  | cons p ps ih =>
    intro t
    have one : busyStep ((s.setTimer t).setClock (p :: ps)) =
        if (t.period s.irqInhibit p).over (isBitPhase (phaseNow s)) s.irqInhibit p = true then
          afterPhase ((s.setTimer (t.period s.irqInhibit p)).setClock ps)
        else (s.setTimer (t.period s.irqInhibit p)).setClock ps := by
      rw [busyStep_inPhase (hp t (p :: ps))]
      rfl
    rw [Timer.run]
    by_cases ho : (t.period s.irqInhibit p).over (isBitPhase (phaseNow s)) s.irqInhibit p = true
    · rw [if_pos ho]
      exact Reaches.step (hp t (p :: ps)).busy (one.trans (if_pos ho))
    · rw [if_neg ho]
      exact (Reaches.step (hp t (p :: ps)).busy (one.trans (if_neg ho))).trans (ih _)

/-! ### A bit, a pixel, a latch -/

/-- Where the sequencer is after a bit that is not the last of its byte (R16). -/
theorem sendBit_seq (v : Bool) (s : State) (h : s.seq.top = .pixel) :
    (sendBit v s).seq = s.seq.next.next := by
  have hn : ∀ q : Seq, q.next.top = q.top := by
    intro q
    unfold Seq.next
    split
    · rfl
    · split_ifs <;> rfl
  cases v <;> simp [sendBit, bit0, bit1, h, hn]

theorem sendBit_inPhase {s : State} (h : InPhase s) (v : Bool) : InPhase (sendBit v s) :=
  have w := sendBit_wireOnly v s
  ⟨w.busy.trans h.busy, by rw [w.work]; exact h.work, w.rsp.trans h.rsp⟩

/-- The bit at a position does not depend on the half of it that is on the wire. -/
theorem seqBit_congr {s t : State} (hk : t.seq.k = s.seq.k) (hb : t.seq.b = s.seq.b) (hx : t.x = s.x) :
    seqBit t = seqBit s := by
  simp only [seqBit, hk, hb, hx]

/-- The phase at a pixel's position outside a gap. -/
theorem phaseNow_pixel {s : State} (ht : s.seq.top = .pixel) (hg : s.work ≠ some (.sendAll true)) :
    phaseNow s = bitPhaseOf s.seq.ph (seqBit s) := by
  rw [phaseNow, if_neg (by rw [ht]; decide), if_neg hg]

/-- From the start of one phase of a bit to what follows it. -/
theorem bitPhase_reaches (s : State) (ph : Phase) (h : InPhase s) (hph : phaseNow s = ph) (h1 : ph ≠ .latch)
    (h2 : ph ≠ .gap) :
    Reaches (s.startPhase ph)
      (if lastPosition s.seq = true then pixelDone (s.hold ph) else enterBit (s.hold ph)) := by
  have r := phase_reaches (s.startPhase ph) ⟨h.busy, h.work, h.rsp⟩
  have e0 : phaseNow (s.startPhase ph) = ph := hph
  have e : phaseNow ((s.startPhase ph).runPhase ph) = ph := hph
  have e' : afterPhase ((s.startPhase ph).runPhase ph) =
      if lastPosition s.seq = true then pixelDone (s.hold ph) else enterBit (s.hold ph) := by
    unfold afterPhase
    rw [e]
    cases ph <;> first | exact absurd rfl h1 | exact absurd rfl h2 | rfl
  rw [e0, e'] at r
  exact r

theorem hold_seq_hi (ph : Phase) (s : State) (ht : s.seq.top = .pixel) (hh : s.seq.ph = .hi) :
    (s.hold ph).seq = { s.seq with ph := .lo } := by
  rw [State.hold_seq, if_pos ht, Seq.next, hh]

/-- From the rising edge of a bit the block comes through both its phases (R73, R74) to what follows: the next bit, or the end of the
pixel. -/
theorem bit_reaches (s : State) (h : InPhase s) (hg : s.work ≠ some (.sendAll true)) (ht : s.seq.top = .pixel)
    (hh : s.seq.ph = .hi) :
    Reaches (enterBit s)
      (if s.seq.k = 2 ∧ s.seq.b = 0 then pixelDone (sendBit (seqBit s) s) else enterBit (sendBit (seqBit s) s)) := by
  have lastLo : ∀ q : Seq, q = { s.seq with ph := .lo } →
      (lastPosition q = true ↔ s.seq.k = 2 ∧ s.seq.b = 0) := by
    rintro q rfl
    simp [lastPosition]
  have notHi : ¬ lastPosition s.seq = true := by simp [lastPosition, hh]
  cases hv : seqBit s
  · have e1 : enterBit s = ((s.setInhibit true).drive true).startPhase .t0h := by
      unfold enterBit; rw [hh, hv]
    have n1 : phaseNow ((s.setInhibit true).drive true) = .t0h := by
      have : phaseNow ((s.setInhibit true).drive true) = phaseNow s := rfl
      rw [this, phaseNow_pixel ht hg, hh, hv]; rfl
    have r1 := bitPhase_reaches ((s.setInhibit true).drive true) .t0h ⟨h.busy, h.work, h.rsp⟩ n1 (by decide) (by decide)
    rw [if_neg (show ¬ lastPosition ((s.setInhibit true).drive true).seq = true from notHi)] at r1
    generalize hu : ((s.setInhibit true).drive true).hold .t0h = u at r1
    have qu : u.seq = { s.seq with ph := .lo } := by rw [← hu]; exact hold_seq_hi _ _ ht hh
    have wu : u.work = s.work := by rw [← hu]; rfl
    have xu : u.x = s.x := by rw [← hu]; rfl
    have vu : seqBit u = false := by
      rw [← hv]; exact seqBit_congr (by rw [qu]) (by rw [qu]) xu
    have pu : InPhase u := by rw [← hu]; exact ⟨h.busy, h.work, h.rsp⟩
    have e2 : enterBit u = ((u.drive false).setInhibit false).startPhase .t0l := by
      unfold enterBit; rw [vu, qu]
    have n2 : phaseNow ((u.drive false).setInhibit false) = .t0l := by
      have : phaseNow ((u.drive false).setInhibit false) = phaseNow u := rfl
      rw [this, phaseNow_pixel (by rw [qu]; exact ht) (by rw [wu]; exact hg), vu, qu]; rfl
    have r2 : Reaches (((u.drive false).setInhibit false).startPhase .t0l)
        (if lastPosition u.seq = true then pixelDone (((u.drive false).setInhibit false).hold .t0l) else enterBit (((u.drive false).setInhibit false).hold .t0l)) :=
      bitPhase_reaches ((u.drive false).setInhibit false) .t0l ⟨pu.busy, pu.work, pu.rsp⟩ n2 (by decide) (by decide)
    rw [e1]
    refine r1.trans ?_
    rw [e2]
    have e3 : ((u.drive false).setInhibit false).hold .t0l = sendBit false s := by rw [← hu]; rfl
    rw [e3] at r2
    by_cases hl : s.seq.k = 2 ∧ s.seq.b = 0
    · rw [if_pos hl]; rwa [if_pos ((lastLo _ qu).2 hl)] at r2
    · rw [if_neg hl]; rwa [if_neg (fun h => hl ((lastLo _ qu).1 h))] at r2
  · have e1 : enterBit s = (s.drive true).startPhase .t1h := by
      unfold enterBit; rw [hh, hv]
    have n1 : phaseNow (s.drive true) = .t1h := by
      have : phaseNow (s.drive true) = phaseNow s := rfl
      rw [this, phaseNow_pixel ht hg, hh, hv]; rfl
    have r1 := bitPhase_reaches (s.drive true) .t1h ⟨h.busy, h.work, h.rsp⟩ n1 (by decide) (by decide)
    rw [if_neg (show ¬ lastPosition (s.drive true).seq = true from notHi)] at r1
    generalize hu : (s.drive true).hold .t1h = u at r1
    have qu : u.seq = { s.seq with ph := .lo } := by rw [← hu]; exact hold_seq_hi _ _ ht hh
    have wu : u.work = s.work := by rw [← hu]; rfl
    have xu : u.x = s.x := by rw [← hu]; rfl
    have vu : seqBit u = true := by
      rw [← hv]; exact seqBit_congr (by rw [qu]) (by rw [qu]) xu
    have pu : InPhase u := by rw [← hu]; exact ⟨h.busy, h.work, h.rsp⟩
    have e2 : enterBit u = (u.drive false).startPhase .t1l := by
      unfold enterBit; rw [vu, qu]
    have n2 : phaseNow (u.drive false) = .t1l := by
      have : phaseNow (u.drive false) = phaseNow u := rfl
      rw [this, phaseNow_pixel (by rw [qu]; exact ht) (by rw [wu]; exact hg), vu, qu]; rfl
    have r2 : Reaches ((u.drive false).startPhase .t1l)
        (if lastPosition u.seq = true then pixelDone ((u.drive false).hold .t1l) else enterBit ((u.drive false).hold .t1l)) :=
      bitPhase_reaches (u.drive false) .t1l ⟨pu.busy, pu.work, pu.rsp⟩ n2 (by decide) (by decide)
    rw [e1]
    refine r1.trans ?_
    rw [e2]
    have e3 : (u.drive false).hold .t1l = sendBit true s := by rw [← hu]; rfl
    rw [e3] at r2
    by_cases hl : s.seq.k = 2 ∧ s.seq.b = 0
    · rw [if_pos hl]; rwa [if_pos ((lastLo _ qu).2 hl)] at r2
    · rw [if_neg hl]; rwa [if_neg (fun h => hl ((lastLo _ qu).1 h))] at r2

/-- The bit before, in wire order: the lists `b, b-1, .., 0` (R16). -/
def bitsFrom : Nat → List (Fin 8)
  | 0 => [0]
  | n + 1 => Fin.ofNat 8 (n + 1) :: bitsFrom n

theorem bitOrder_eq : bitOrder = bitsFrom 7 := rfl

/-- Where a run of bits ends (R16). -/
theorem sendBits_seq (v : Byte) (n : Nat) (hn : n < 8) (s : State) (pix : Idx) (k : Fin 3)
    (hs : s.seq = ⟨.pixel, pix, k, Fin.ofNat 8 n, .hi⟩) :
    (sendBits v (bitsFrom n) s).seq =
      if k = 2 then ⟨.pixel, pix, 2, 0, .lo⟩ else ⟨.pixel, pix, k + 1, 7, .hi⟩ := by
  induction n generalizing s with
  | zero =>
    rw [bitsFrom, sendBits_cons]
    have := sendBit_seq (v.getLsbD (0 : Fin 8).val) s (by rw [hs])
    rw [hs] at this
    by_cases hk : k = 2 <;> simpa [sendBits, Seq.next, hk] using this
  | succ n ih =>
    rw [bitsFrom, sendBits_cons]
    refine ih (by omega) _ ?_
    rw [sendBit_seq _ s (by rw [hs]), hs]
    have h0 : Fin.ofNat 8 (n + 1) ≠ 0 ∧ Fin.ofNat 8 (n + 1) - 1 = Fin.ofNat 8 n := by
      have : n < 7 := by omega
      interval_cases n <;> decide
    simp only [Seq.next, ne_eq, h0.1, not_false_eq_true, if_true, h0.2]

theorem sendChannel_seq (s : State) (pix : Idx) (k : Fin 3) (hs : s.seq = ⟨.pixel, pix, k, 7, .hi⟩) :
    (sendChannel k s).seq = if k = 2 then ⟨.pixel, pix, 2, 0, .lo⟩ else ⟨.pixel, pix, k + 1, 7, .hi⟩ :=
  sendBits_seq _ 7 (by omega) s pix k hs

/-- From the first of a run of bits to what follows its last (R76). -/
theorem bits_reaches (k : Fin 3) (n : Nat) (hn : n < 8) (s : State) (h : InPhase s)
    (hg : s.work ≠ some (.sendAll true)) (pix : Idx) (hs : s.seq = ⟨.pixel, pix, k, Fin.ofNat 8 n, .hi⟩) :
    Reaches (enterBit s)
      (if k = 2 then pixelDone (sendBits (wireByte k s.x) (bitsFrom n) s)
       else enterBit (sendBits (wireByte k s.x) (bitsFrom n) s)) := by
  induction n generalizing s with
  | zero =>
    have r := bit_reaches s h hg (by rw [hs]) (by rw [hs])
    have e : seqBit s = (wireByte k s.x).getLsbD (0 : Fin 8).val := by simp [seqBit, hs]
    rw [e, hs] at r
    by_cases hk : k = 2
    · rw [if_pos hk]; rwa [if_pos ⟨hk, rfl⟩] at r
    · rw [if_neg hk]; rwa [if_neg (fun h => hk h.1)] at r
  | succ n ih =>
    have r := bit_reaches s h hg (by rw [hs]) (by rw [hs])
    have e : seqBit s = (wireByte k s.x).getLsbD (Fin.ofNat 8 (n + 1)).val := by simp only [seqBit, hs]
    have h0 : Fin.ofNat 8 (n + 1) ≠ 0 ∧ Fin.ofNat 8 (n + 1) - 1 = Fin.ofNat 8 n := by
      have : n < 7 := by omega
      interval_cases n <;> decide
    have hne : ¬ (s.seq.k = 2 ∧ s.seq.b = 0) := by rw [hs]; exact fun h => h0.1 h.2
    rw [if_neg hne] at r
    rw [e] at r
    generalize hu : sendBit ((wireByte k s.x).getLsbD (Fin.ofNat 8 (n + 1)).val) s = u at r
    have w : WireOnly s u := by rw [← hu]; exact sendBit_wireOnly _ s
    have qu : u.seq = ⟨.pixel, pix, k, Fin.ofNat 8 n, .hi⟩ := by
      rw [← hu, sendBit_seq _ s (by rw [hs]), hs]
      simp only [Seq.next, ne_eq, h0.1, not_false_eq_true, if_true, h0.2]
    have r2 := ih (by omega) u ⟨w.busy.trans h.busy, by rw [w.work]; exact h.work, w.rsp.trans h.rsp⟩
      (by rw [w.work]; exact hg) qu
    rw [w.x] at r2
    rw [bitsFrom, sendBits_cons, hu]
    exact r.trans r2

/-- From the first bit of a byte the block comes to what follows its last (R76): the next byte, or the end of the pixel. -/
theorem channel_reaches (s : State) (h : InPhase s) (hg : s.work ≠ some (.sendAll true)) (pix : Idx) (k : Fin 3)
    (hs : s.seq = ⟨.pixel, pix, k, 7, .hi⟩) :
    Reaches (enterBit s) (if k = 2 then pixelDone (sendChannel k s) else enterBit (sendChannel k s)) :=
  bits_reaches k 7 (by omega) s h hg pix hs

theorem sendChannel_inPhase {s : State} (h : InPhase s) (k : Fin 3) : InPhase (sendChannel k s) :=
  have w := sendChannel_wireOnly k s
  ⟨w.busy.trans h.busy, by rw [w.work]; exact h.work, w.rsp.trans h.rsp⟩

/-- From the start of a pixel the block comes to its end as PIXEL has it (R77). -/
theorem pixel_reaches (pix : Idx) (s : State) (h : InPhase s) (hg : s.work ≠ some (.sendAll true)) :
    Reaches (enterPixel pix s) (pixelDone (sendPixel pix s)) := by
  have p0 : InPhase (s.goto (Seq.pixelStart pix)) := ⟨h.busy, h.work, h.rsp⟩
  have w0 := sendChannel_wireOnly 0 (s.goto (Seq.pixelStart pix))
  have w1 := sendChannel_wireOnly 1 (sendChannel 0 (s.goto (Seq.pixelStart pix)))
  have q0 : (sendChannel 0 (s.goto (Seq.pixelStart pix))).seq = ⟨.pixel, pix, 1, 7, .hi⟩ :=
    sendChannel_seq _ pix 0 rfl
  have q1 := sendChannel_seq _ pix 1 q0
  have c0 := channel_reaches (s.goto (Seq.pixelStart pix)) p0 hg pix 0 rfl
  have c1 := channel_reaches _ (sendChannel_inPhase p0 0) (by rw [w0.work]; exact hg) pix 1 q0
  have c2 := channel_reaches _ (sendChannel_inPhase (sendChannel_inPhase p0 0) 1)
    (by rw [w1.work, w0.work]; exact hg) pix 2 q1
  exact (c0.trans c1).trans c2

/-- From the start of a latch the block comes to the end of the command that holds it (R80). -/
theorem latch_reaches (s : State) (h : InPhase s) : Reaches (enterLatch s) (finish (latchSeq s)) := by
  have := phase_reaches (enterLatch s) ⟨h.busy, h.work, h.rsp⟩
  have e : phaseNow (enterLatch s) = .latch := rfl
  rw [e] at this
  refine this.trans ?_
  have e' : afterPhase ((enterLatch s).runPhase .latch) = finish (latchSeq s) := rfl
  rw [e']
  exact Reaches.refl _

/-! ### A SENDALL's walk -/

theorem WireOnly.inPhase {s t : State} (w : WireOnly s t) (h : InPhase s) : InPhase t :=
  ⟨w.busy.trans h.busy, by rw [w.work]; exact h.work, w.rsp.trans h.rsp⟩

theorem sendGap_wireOnly (i : Nat) (s : State) : WireOnly s (sendGap i s) := by
  unfold sendGap
  split
  · exact hold_wireOnly _ _
  · exact WireOnly.refl s

/-- One turn of the walk writes the colour register file and what a transmission writes, and nothing else (R93). -/
theorem sendEntry_wireOnly (i : Nat) (s : State) :
    WireOnly s ((sendEntry i s).setColour s.x) ∧ (sendEntry i s).x = s.store.read (BitVec.ofNat 16 i).toNat := by
  have g := sendGap_wireOnly i s
  have w := sendPixel_wireOnly (BitVec.ofNat 16 i) ((sendGap i s).setColour ((sendGap i s).memRead (BitVec.ofNat 16 i)))
  have e : sendEntry i s =
      sendPixel (BitVec.ofNat 16 i) ((sendGap i s).setColour ((sendGap i s).memRead (BitVec.ofNat 16 i))) := rfl
  rw [← e] at w
  refine ⟨⟨rfl, w.configured.trans g.configured, w.buffered.trans g.buffered, w.busy.trans g.busy,
    w.portDir.trans g.portDir, w.pinMask.trans g.pinMask, w.count.trans g.count, w.store.trans g.store,
    w.rsp.trans g.rsp, w.work.trans g.work, w.draws.trans g.draws, w.params.trans g.params, w.host.trans g.host, ?_⟩, ?_⟩
  · have h := w.outside
    rw [State.setColour_pinMask, g.pinMask] at h
    exact h.trans g.outside
  · exact w.x.trans (by show (sendGap i s).store.read _ = _; rw [g.store])

theorem sendEntries_succ (n : Nat) (s : State) : sendEntries (n + 1) s = sendEntry n (sendEntries n s) := by
  simp only [sendEntries]
  rw [List.range_succ, List.foldl_append]
  rfl

/-- Where the sequencer is after a pixel: at the last of its positions (R16). -/
theorem sendPixel_seq (pix : Idx) (s : State) : (sendPixel pix s).seq = ⟨.pixel, pix, 2, 0, .lo⟩ := by
  have q0 : (sendChannel 0 (s.goto (Seq.pixelStart pix))).seq = ⟨.pixel, pix, 1, 7, .hi⟩ :=
    sendChannel_seq _ pix 0 rfl
  have q1 := sendChannel_seq _ pix 1 q0
  exact sendChannel_seq _ pix 2 q1

theorem setWork_self {s : State} {w : Option Work} (h : s.work = w) : s.setWork w = s := by
  subst h
  rfl

/-- The walk as a whole: phase, work, count and parameters are kept. -/
theorem sendEntries_keeps (n : Nat) (s : State) (h : InPhase s) :
    InPhase (sendEntries n s) ∧ (sendEntries n s).work = s.work ∧ (sendEntries n s).count = s.count
      ∧ (sendEntries n s).params = s.params := by
  induction n with
  | zero => exact ⟨h, rfl, rfl, rfl⟩
  | succ n ih =>
    rw [sendEntries_succ]
    have w := (sendEntry_wireOnly n (sendEntries n s)).1
    exact ⟨⟨w.busy.trans ih.1.busy, by rw [show (sendEntry n (sendEntries n s)).work = _ from w.work]; exact ih.1.work,
      w.rsp.trans ih.1.rsp⟩, w.work.trans ih.2.1, w.count.trans ih.2.2.1, w.params.trans ih.2.2.2⟩

/-- From the first entry's pixel the clocked block comes to the end of the walk over the first `k + 1` entries (R93). -/
theorem entries_reaches (k : Nat) (s : State) (h : InPhase s) (hw : s.work = some (.sendAll false))
    (hk : k < s.count.toNat) : Reaches (enterEntry 0 s) (pixelDone (sendEntries (k + 1) s)) := by
  induction k with
  | zero =>
    have e : sendEntries 1 s = sendPixel 0 (s.setColour (s.memRead 0)) := by
      simp [sendEntries, List.range_succ, sendEntry, sendGap]
    have e2 : enterEntry 0 s = enterPixel 0 (s.setColour (s.memRead 0)) := by
      unfold enterEntry
      rw [setWork_self hw]
    rw [e, e2]
    exact pixel_reaches 0 _ ⟨h.busy, h.work, h.rsp⟩ (by simp [hw])
  | succ k ih =>
    refine (ih (by omega)).trans ?_
    rw [sendEntries_succ (k + 1)]
    obtain ⟨hp, hwk, hc, -⟩ := sendEntries_keeps (k + 1) s h
    have hseq : (sendEntries (k + 1) s).seq = ⟨.pixel, BitVec.ofNat 16 k, 2, 0, .lo⟩ := by
      rw [sendEntries_succ]; exact sendPixel_seq _ _
    generalize sendEntries (k + 1) s = u at *
    rw [hw] at hwk
    have hpix : u.seq.pix.toNat = k := by
      have := s.count.isLt
      rw [hseq]; simp; omega
    have hpix1 : u.seq.pix + 1 = BitVec.ofNat 16 (k + 1) := by
      rw [hseq]; apply BitVec.eq_of_toNat_eq; simp
    have next : ∀ v : State, v.work = some (.sendAll true) ∨ v.work = some (.sendAll false) →
        v.setWork (some (.sendAll false)) = sendGap (k + 1) u →
        enterEntry (u.seq.pix + 1) v =
          enterPixel (BitVec.ofNat 16 (k + 1))
            ((sendGap (k + 1) u).setColour ((sendGap (k + 1) u).memRead (BitVec.ofNat 16 (k + 1)))) := by
      intro v _ hv
      unfold enterEntry
      rw [hpix1, hv]
      have : v.memRead (BitVec.ofNat 16 (k + 1)) = (sendGap (k + 1) u).memRead (BitVec.ofNat 16 (k + 1)) := by
        rw [← hv]; rfl
      rw [this]
    have gw := sendGap_wireOnly (k + 1) u
    have pix := pixel_reaches (BitVec.ofNat 16 (k + 1))
      ((sendGap (k + 1) u).setColour ((sendGap (k + 1) u).memRead (BitVec.ofNat 16 (k + 1))))
      ⟨gw.busy.trans hp.busy, by show ∀ i, (sendGap (k + 1) u).work ≠ _; rw [gw.work]; exact hp.work, gw.rsp.trans hp.rsp⟩
      (by show (sendGap (k + 1) u).work ≠ _; rw [gw.work, hwk]; simp)
    unfold pixelDone
    rw [hwk]
    simp only
    rw [if_pos (by rw [hpix, hc]; omega)]
    by_cases hg : 0 < u.params.gapNs
    · rw [if_pos hg]
      have r := phase_reaches ((u.setWork (some (.sendAll true))).startPhase .gap) ⟨hp.busy, by simp, hp.rsp⟩
      have pn : phaseNow ((u.setWork (some (.sendAll true))).startPhase .gap) = .gap := by
        rw [phaseNow]; simp [hseq]
      have pn' : phaseNow (((u.setWork (some (.sendAll true))).startPhase .gap).runPhase .gap) = .gap := pn
      have ap : afterPhase (((u.setWork (some (.sendAll true))).startPhase .gap).runPhase .gap) =
          enterEntry (u.seq.pix + 1) ((u.setWork (some (.sendAll true))).hold .gap) := by
        unfold afterPhase; rw [pn']; rfl
      rw [pn, ap] at r
      refine r.trans ?_
      rw [next _ (.inl rfl) (by
        unfold sendGap
        rw [if_pos ⟨by omega, hg⟩, ← setWork_self (s := u.hold .gap) (w := some (.sendAll false)) hwk]
        rfl)]
      exact pix
    · rw [if_neg hg, next _ (.inr hwk) (by
        unfold sendGap
        rw [if_neg (by omega)]
        exact setWork_self hwk)]
      exact pix

end Sys2Proof.Machine
end

