-- ==== Sys2Proof/Laws/Decode.lean ====
section
/-! SUPPORT. What each field of a command word reads from a word built of fields: the low part of a concatenation is read through,
and the fields of R59 are read back. -/

namespace Sys2Proof

/-- A field that lies in the low part of a concatenation is a field of the low part. -/
theorem field_low {v w : Nat} (hi : BitVec v) (lo : BitVec w) {start len : Nat} (h : start + len ≤ w) :
    (hi ++ lo).extractLsb' start len = lo.extractLsb' start len :=
  BitVec.extractLsb'_append_eq_of_add_le h

/-- A field that lies in the high part of a concatenation is a field of the high part. -/
theorem field_high {v w : Nat} (hi : BitVec v) (lo : BitVec w) {start len : Nat} (h : w ≤ start) :
    (hi ++ lo).extractLsb' start len = hi.extractLsb' (start - w) len :=
  BitVec.extractLsb'_append_eq_of_le h

/-- A field that is the whole of a value. -/
theorem field_whole {w : Nat} (v : BitVec w) : v.extractLsb' 0 w = v := by
  ext i hi
  simp

/-- The channels of a packed colour (D7). -/
theorem packColour_fields (c : Colour) :
    (packColour c).extractLsb' 16 8 = c.r ∧ (packColour c).extractLsb' 8 8 = c.g ∧ (packColour c).extractLsb' 0 8 = c.b := by
  refine ⟨?_, ?_, ?_⟩
  · show (c.r ++ (c.g ++ c.b) : BitVec (8 + (8 + 8))).extractLsb' 16 8 = c.r
    rw [field_high _ _ (by omega)]
    exact field_whole c.r
  · show (c.r ++ (c.g ++ c.b) : BitVec (8 + (8 + 8))).extractLsb' 8 8 = c.g
    rw [field_low _ _ (by omega), field_high _ _ (by omega)]
    exact field_whole c.g
  · show (c.r ++ (c.g ++ c.b) : BitVec (8 + (8 + 8))).extractLsb' 0 8 = c.b
    rw [field_low _ _ (by omega), field_low _ _ (by omega)]
    exact field_whole c.b

/-- The colour field of a word that ends in a packed colour (R60). -/
theorem cmdColour_append (x : BitVec 24) (c : Colour) : cmdColour (x ++ packColour c : BitVec (24 + 24)) = c := by
  obtain ⟨h1, h2, h3⟩ := packColour_fields c
  unfold cmdColour
  rw [field_low _ _ (by omega), field_low _ _ (by omega), field_low _ _ (by omega), h1, h2, h3]

/-- The index field of a word (R60). -/
theorem cmdIdx_append (x : BitVec 8) (i : Idx) (y : BitVec 24) : cmdIdx (x ++ (i ++ y) : BitVec (8 + (16 + 24))) = i := by
  unfold cmdIdx
  rw [field_low _ _ (by omega), field_high _ _ (by omega)]
  exact field_whole i

/-- The pin field of a word (R60). -/
theorem cmdPin_append (x : BitVec 40) (p : Byte) : cmdPin (x ++ p : BitVec (40 + 8)) = p := by
  unfold cmdPin
  rw [field_low _ _ (by omega)]
  exact field_whole p

/-- A flag as a one-bit field reads back. -/
theorem flagBit_get (f : Bool) : (flagBit f).getLsbD 0 = f := by cases f <;> rfl

end Sys2Proof
end

