-- ==== Sys2Proof/Laws/PerInstr.lean ====
section
/-! SUPPORT. A fact about every command as syntax, command by command: its canonical word carries the operation code R61 gives it,
in bits 47:44. -/

namespace Sys2Proof.Laws

/-- The operation code of R61. -/
def opNumber : Instr → Nat
  | .init _ _ _ => 1
  | .send1 _ => 2
  | .latch => 3
  | .setAt _ _ => 4
  | .setAll _ => 5
  | .sendAll => 6
  | .getAt _ => 7

/-- The canonical word's `op` field is the command's operation code (R59, R61). -/
def OpField.Statement (i : Instr) : Prop := (cmdOp (encode i)).toNat = opNumber i

/-- The top field of a word that begins with a 4-bit field. -/
theorem cmdOp_append (op : BitVec 4) (rest : BitVec 44) : cmdOp (op ++ rest : BitVec 48) = op := by
  unfold cmdOp
  ext i hi
  simp only [BitVec.getElem_extractLsb', BitVec.getLsbD_append]
  rw [if_neg (by omega)]
  simp [hi]

theorem OpField.init (pin : Byte) (count : Idx) (buffered : Bool) : OpField.Statement (.init pin count buffered) :=
  congrArg BitVec.toNat (cmdOp_append 1 ((0#3) ++ (flagBit buffered ++ (count ++ ((0#16) ++ pin)))))

theorem OpField.send1 (c : Colour) : OpField.Statement (.send1 c) :=
  congrArg BitVec.toNat (cmdOp_append 2 ((0#20) ++ packColour c))

theorem OpField.latch : OpField.Statement .latch := congrArg BitVec.toNat (cmdOp_append 3 0)

theorem OpField.setAt (index : Idx) (c : Colour) : OpField.Statement (.setAt index c) :=
  congrArg BitVec.toNat (cmdOp_append 4 ((0#4) ++ (index ++ packColour c)))

theorem OpField.setAll (c : Colour) : OpField.Statement (.setAll c) :=
  congrArg BitVec.toNat (cmdOp_append 5 ((0#20) ++ packColour c))

theorem OpField.sendAll : OpField.Statement .sendAll := congrArg BitVec.toNat (cmdOp_append 6 0)

theorem OpField.getAt (index : Idx) : OpField.Statement (.getAt index) :=
  congrArg BitVec.toNat (cmdOp_append 7 ((0#4) ++ (index ++ (0#24))))

end Sys2Proof.Laws
end

