-- ==== Sys2Proof/Laws/Step.lean ====
section
/-! SUPPORT. What a step and a command can do, once: the inversions later proofs cite instead of unfolding. -/

namespace Sys2Proof.Machine

/-- Everything a step of an idle block can do. -/
theorem step_cases {s t : State} (hb : s.busy = false) (h : step s = .next t) :
    (s.host = [] ∧ t = s.respond none)
      ∨ (∃ es, s.host = .reset :: es ∧ t = (s.setHost es).warmReset)
      ∨ (∃ w es i, s.host = .word w :: es ∧ decode w = .instr i ∧ exec i (s.setHost es) = .next t)
      ∨ (∃ w es op, s.host = .word w :: es ∧ decode w = .reservedOp op ∧ t = (s.setHost es).respond none)
      ∨ ∃ w n es, s.host = .cutWord w n :: es ∧ cutShort w n (s.setHost es) = .next t := by
  unfold step at h
  rw [if_neg (by simp [hb])] at h
  split at h
  · next hh => exact .inl ⟨hh, (by simpa using h.symm)⟩
  · next es hh => exact .inr (.inl ⟨es, hh, (by simpa using h.symm)⟩)
  · next w es hh =>
    unfold runWord at h
    split at h
    · next i hd => exact .inr (.inr (.inl ⟨w, es, i, hh, hd, h⟩))
    · next op hd => exact .inr (.inr (.inr (.inl ⟨w, es, op, hh, hd, (by simpa using h.symm)⟩)))
  · next w n es hh => exact .inr (.inr (.inr (.inr ⟨w, n, es, hh, h⟩)))

/-- A command cut short ends in a reset. -/
theorem cutShort_cases {w : CmdWord} {n : Nat} {s t : State} (h : cutShort w n s = .next t) :
    t = s.warmReset ∨ ∃ i a, decode w = .instr i ∧ accept i s = .next a ∧ t = (busyRun n a).warmReset := by
  unfold cutShort at h
  split at h
  · exact .inl (by simpa using h.symm)
  · next i hd =>
    split at h
    · next a ha => exact .inr ⟨i, a, hd, ha, (by simpa using h.symm)⟩
    · cases h
    · cases h

/-- When SEND1 completes, and with what. -/
theorem execSend1_next {c : Colour} {s t : State} (h : execSend1 c s = .next t) :
    s.configured = true ∧ t = State.endCommand (sendPixel 0 (s.beginCommand.setColour c)) := by
  unfold execSend1 at h
  split at h
  · cases h
  · next hc => exact ⟨by simpa using hc, by simpa using h.symm⟩

/-- When LATCH completes, and with what. -/
theorem execLatch_next {s t : State} (h : execLatch s = .next t) :
    s.configured = true ∧ t = State.endCommand (latchSeq s.beginCommand) := by
  unfold execLatch at h
  split at h
  · cases h
  · next hc => exact ⟨by simpa using hc, by simpa using h.symm⟩

/-- INIT's refusals in terms of its operands (R86 step 1). -/
theorem initRefusal_none {pin : Byte} {count : Idx} {buffered : Bool} {s : State} :
    initRefusal pin count buffered s = none ↔
      pin.toNat < s.params.portW ∧ (buffered = true → count.toNat ≤ s.params.maxPixels) := by
  unfold initRefusal
  by_cases hp : s.params.portW ≤ pin.toNat
  · simp [hp]
  · cases buffered <;> simp [hp, Nat.not_le.1 hp]

/-- When INIT completes, and with what. -/
theorem execInit_next {pin : Byte} {count : Idx} {buffered : Bool} {s t : State}
    (h : execInit pin count buffered s = .next t) :
    initRefusal pin (idxOperand s.params count) buffered s = none
      ∧ t = State.endCommand (initStore (idxOperand s.params count) buffered s.count
          (latchSeq (sendPixel 0 (initLine pin (idxOperand s.params count) s.beginCommand)))) := by
  unfold execInit at h
  simp only at h
  split at h
  · cases h
  · next hr => exact ⟨hr, by simpa using h.symm⟩

/-- The pin's mask as a number (R24, R69.2). -/
theorem pinBit_toNat (pin : Byte) : (pinBit pin).toNat = 2 ^ pin.toNat := by
  have h : 2 ^ pin.toNat < 2 ^ 256 := Nat.pow_lt_pow_right (by omega) pin.isLt
  simp only [pinBit, BitVec.toNat_shiftLeft, BitVec.toNat_ofNat, Nat.shiftLeft_eq]
  omega

/-- The pin's mask is never 0. -/
theorem pinBit_ne_zero (pin : Byte) : pinBit pin ≠ 0 := by
  intro h
  have := pinBit_toNat pin
  rw [h] at this
  exact absurd this.symm (Nat.two_pow_pos _).ne'

/-- The mask of a pin of the port is one bit of the port, and fits in it (R24). -/
theorem pinBit_fits {p : Params} {pin : Byte} (h : pin.toNat < p.portW) :
    oneBit p (pinBit pin) = true ∧ portFits p (pinBit pin) = true := by
  constructor
  · simp only [oneBit, List.any_eq_true, List.mem_range, beq_iff_eq]
    exact ⟨pin.toNat, lt_min h pin.isLt, rfl⟩
  · simp only [portFits, decide_eq_true_eq, pinBit_toNat]
    exact Nat.pow_lt_pow_right (by omega) h

end Sys2Proof.Machine
end

