-- ==== Sys2Proof/Tests/Slice0.lean ====
section
/-! SUPPORT. Tests of one command or one clock edge each, their expected results from spec/95_test_vectors.md (the vector named in
each comment), and a witness for the hypotheses of each statement of the obligations file that has any. -/

namespace Sys2Proof.Tests

open Sys2Proof.Machine

/-! ### Well-formedness -/

theorem smoke_pin_out_of_range : (Instr.init 8 1 false).wellFormed defaultParams = false := by decide

theorem smoke_pin_in_range : (Instr.init 7 1 false).wellFormed defaultParams = true := by decide

theorem smoke_index_out_of_range : (Instr.getAt 16).wellFormed { defaultParams with idxW := 4 } = false := by decide

theorem smoke_index_in_range : (Instr.getAt 15).wellFormed { defaultParams with idxW := 4 } = true := by decide

/-! ### Decoding: words written out from R61 and the vectors V2, V4, V5, V7 -/

/-- op 0001, f = 1, count 5, pin 3 (V4.3). -/
theorem test_decode_init :
    decode 0b0001_0001_0000000000000101_0000000000000000_00000011 = .instr (.init 3 5 true) := by decide

/-- op 0010, r 0x12, g 0x34, b 0x56 (V2.6). -/
theorem test_decode_send1 :
    decode 0b0010_0000_0000000000000000_00010010_00110100_01010110 = .instr (.send1 ⟨0x12, 0x34, 0x56⟩) := by decide

/-- op 0011, every ignored bit 1 (V7.6). -/
theorem test_decode_latch : decode 0x3FFFFFFFFFFF = .instr .latch := by decide

/-- op 0100, index 2, (10, 20, 30), bits 43:40 ignored (V7.10). -/
theorem test_decode_setAt : decode 0x4F00020A141E = .instr (.setAt 2 ⟨10, 20, 30⟩) := by decide

/-- op 0101, bits 43:24 ignored (V7.11). -/
theorem test_decode_setAll : decode 0x5ABCDE050505 = .instr (.setAll ⟨5, 5, 5⟩) := by decide

/-- op 0110 (V7.12). -/
theorem test_decode_sendAll : decode 0x6123456789AB = .instr .sendAll := by decide

/-- op 0111, index 2, bits 23:0 ignored (V7.13). -/
theorem test_decode_getAt : decode 0x700002FFFFFF = .instr (.getAt 2) := by decide

/-- An all-zero word is reserved (V7.1); so is op 0xF (V7.3). -/
theorem test_decode_reserved : decode 0 = .reservedOp 0 ∧ decode 0xF00000FFFFFF = .reservedOp 15 := by decide

/-- Bit 40 alone tells V7.8 from V7.7. -/
theorem test_decode_init_bit40 : decode 0x1E0005000003 = .instr (.init 3 5 false) := by decide

/-! ### States and helpers -/

/-- The defaults at 8 MHz (V9.7). -/
def params8 : Params := { defaultParams with fClk := 8000000 }

/-- Reset state, `PORT_OUT` all ones, no direction bit set. -/
def fresh : State := { State.reset with params := params8, portOut := 0xFF }

/-- Configured on pin 3, Unbuffered, the line low. -/
def configured : State :=
  { fresh with configured := true, pinMask := 8, portDir := 8, portOut := 0xF7 }

/-- Buffered, `COUNT = 3`, `STORE = [(255, 0, 0), (1, 2, 3), (0, 0, 0)]` (V6.5). -/
def buffered : State :=
  { configured with buffered := true, count := 3, store := [(0, ⟨255, 0, 0⟩), (1, ⟨1, 2, 3⟩)] }

/-- The state a command leaves, if it leaves one. -/
def after (i : Instr) (s : State) : Option State :=
  match exec i s with
  | .next t => some t
  | .fault _ => none
  | .refused _ => none

/-- The reason a command is refused, if it is. -/
def why (i : Instr) (s : State) : Option Refusal :=
  match exec i s with
  | .next _ => none
  | .fault _ => none
  | .refused r => some r

/-- `Z` of the vectors: the two events of a 0-bit. -/
def z : List Event := [⟨true, 350, true⟩, ⟨false, 500, false⟩]

/-- `O` of the vectors: the two events of a 1-bit. -/
def o : List Event := [⟨true, 900, false⟩, ⟨false, 350, false⟩]

/-- `LT` of the vectors. -/
def lt : Event := ⟨false, 260000, false⟩

theorem fresh_inv : Inv fresh := by constructor <;> decide

theorem configured_inv : Inv configured := by constructor <;> decide

theorem buffered_inv : Inv buffered := by constructor <;> decide

/-! ### One command each -/

/-- V2.6: green 0x34, red 0x12, blue 0x56, most significant bits first. -/
theorem test_send1_events :
    (after (.send1 ⟨0x12, 0x34, 0x56⟩) configured).map (·.trace) =
      some (z ++ z ++ o ++ o ++ z ++ o ++ z ++ z ++ z ++ z ++ z ++ o ++ z ++ z ++ o ++ z ++ z ++ o ++ z ++ o ++ z ++ o ++ o ++ z) := by
  decide +kernel

/-- V2.16: refused before INIT. -/
theorem test_send1_refused : why (.send1 ⟨1, 2, 3⟩) fresh = some .notConfigured := by decide

/-- V3.1. -/
theorem test_latch_event : (after .latch configured).map (·.trace) = some [lt] := by decide

/-- V3.5. -/
theorem test_latch_refused : why .latch fresh = some .notConfigured := by decide

/-- V4.3, with `o = 0xFF` and `d = 0`. -/
theorem test_init_state :
    (after (.init 3 5 true) fresh).map (fun t => (t.pinMask, t.count, t.portDir, t.portOut)) = some (8, 5, 8, 0xF7)
      ∧ (after (.init 3 5 true) fresh).map (fun t => (t.configured, t.buffered)) = some (true, true) := by
  decide +kernel

/-- V4.10: another count discards the contents; V4.9: the same count keeps them. -/
theorem test_init_store :
    (after (.init 3 2 true) buffered).map (·.store) = some []
      ∧ (after (.init 3 3 true) buffered).map (·.store) = some buffered.store := by
  decide +kernel

/-- V4.6 (U3) and V4.7 (U1). -/
theorem test_init_refused :
    why (.init 8 1 false) fresh = some .pinOutOfRange
      ∧ why (.init 0 101 true) { fresh with params := { params8 with maxPixels := 100 } } = some .storeTooLarge := by
  decide

/-- V5.3 and V5.5: `COUNT - 1` is written; a large index does not wrap. -/
theorem test_setAt :
    (after (.setAt 2 ⟨7, 8, 9⟩) buffered).map (·.store) =
        some [(0, ⟨255, 0, 0⟩), (1, ⟨1, 2, 3⟩), (2, ⟨7, 8, 9⟩)]
      ∧ (after (.setAt 65535 ⟨1, 1, 1⟩) buffered).map (·.store) = some buffered.store := by
  decide

/-- V5.10: ignored with no store. -/
theorem test_setAt_no_store : after (.setAt 0 ⟨255, 0, 0⟩) fresh = some fresh := by
  rfl

/-- V5.8. -/
theorem test_setAll :
    (after (.setAll ⟨5, 5, 5⟩) buffered).map (·.store) = some [(0, ⟨5, 5, 5⟩), (1, ⟨5, 5, 5⟩), (2, ⟨5, 5, 5⟩)] := by
  decide

/-- V6.4 with `GAP_NS = 2000` (V6.6): a gap between the two pixels, none elsewhere. -/
theorem test_sendAll_gap :
    (after .sendAll { buffered with count := 2, store := [(0, ⟨255, 0, 0⟩)], params := { params8 with gapNs := 2000 } }).map
        (fun t => (t.trace.length, traceNs t.trace, t.trace[48]?)) =
      some (98, 306000, some ⟨false, 2000, false⟩) := by
  decide +kernel

/-- V6.2: an empty store sends a latch only; V6.1: no store, nothing. -/
theorem test_sendAll_empty :
    (after .sendAll { buffered with count := 0, store := [] }).map (·.trace) = some [lt]
      ∧ (after .sendAll configured).map (·.trace) = some [] := by
  decide

/-- V5.2 (`valid = 1`), V5.6 (out of range), P2 step 7 (never written). -/
theorem test_getAt :
    (after (.getAt 1) buffered).map (·.rsp) = some (some 0x1010203)
      ∧ (after (.getAt 3) buffered).map (·.rsp) = some (some 0x0000000)
      ∧ (after (.getAt 2) buffered).map (·.rsp) = some (some 0x1000000) := by
  decide

/-! ### Timing, the receiver, the clocked sequencer -/

/-- V9.2 and V9.12: the counts and the validity at 2 and 16.5 MHz. -/
theorem test_cycles :
    (let p := { defaultParams with fClk := 2000000 }
     (cycles p 350, cycles p 500, cycles p 900, latchCycles p, clockValid p)) = (1, 1, 2, 520, false)
      ∧ (let p := { defaultParams with fClk := 16500000 }
     (cycles p 350, cycles p 500, cycles p 900, latchCycles p, clockValid p)) = (6, 8, 15, 4290, true) := by
  decide

/-- V10.3: 8 stalled periods from the second of the three periods of a 0-bit's high phase: the high phase lasts 3 periods, the low
phase 12. -/
theorem test_deferred_service :
    ((bit0 { configured with clock := .quiet :: List.replicate 8 ⟨true, false, 0⟩ }).wire.map fun u => u.periods) = [3, 12] := by
  decide

/-- V10.2: 4 stalled periods in a 1-bit's high phase at 8 MHz: 11 periods, 1375 ns, and still read as a 1 (V11.4). -/
theorem test_stalled_one :
    ((bit1 { configured with clock := List.replicate 4 ⟨true, false, 0⟩ }).wire.map fun u => u.periods) = [11, 3]
      ∧ readHigh params8 ⟨true, 1375 * 8000000⟩ = some true := by
  decide

/-- V11.1, V11.6 (600 ns: undefined), V11.8 (260500 ns: a latch), V11.9 (50000 ns: either). -/
theorem test_receiver :
    readHigh params8 ⟨true, 375 * 8000000⟩ = some false ∧ readHigh params8 ⟨true, 600 * 8000000⟩ = none
      ∧ readLow params8 ⟨false, 260500 * 8000000⟩ = [.latch] ∧ readLow params8 ⟨false, 50000 * 8000000⟩ = [.either] := by
  decide

/-- V10.5: a latch low of 260100 ns at 8 MHz, 2080 periods and 100 ns more, realises the latch event; 259875 ns does not. -/
theorem test_latch_any_longer :
    (latchSeq { configured with clock := List.replicate 2079 .quiet ++ [⟨false, false, 100 * 8000000⟩] }).wire.map (Span.width params8)
        = [260100 * 8000000]
      ∧ realises params8 lt ⟨.latch, false, 2080, 0, 100 * 8000000, Seq.latchHold⟩ = true
      ∧ realises params8 lt ⟨.latch, false, 2079, 0, 0, Seq.latchHold⟩ = false := by
  decide +kernel

/-- R6: with `PORT_W = 16` pin 15 is a pin, and with `IDX_W = 4` an index is 4 bits. -/
theorem test_widths :
    (after (.init 15 0x13 true) { fresh with params := { params8 with portW := 16, idxW := 4 } }).map
      (fun t => (t.pinMask, t.count)) = some (0x8000, 3) := by
  decide +kernel

/-- V3.4 in part: two lows merge. -/
theorem test_normalise : normalise (z ++ [lt, lt]) = [⟨true, 350, true⟩, ⟨false, 520500, false⟩] := by decide

/-- R19, R74: one clock edge accepts a SEND1 of black; the block is busy, inhibits, and drives the line high. -/
theorem test_accept_send1 :
    (match tick ⟨true, true, 0x200000000000, false, false, 0⟩ configured with
      | .next t => some (t.busy, t.irqInhibit, t.line, t.timer.tmr)
      | _ => none) = some (true, true, true, 3) := by
  decide

/-- R107: in the second line of V10.3 the third period of the high phase ends it, the inhibit falls and the deferred periods are in
the low phase's count. -/
theorem test_tick_falls :
    (match tick ⟨true, false, 0, true, false, 0⟩
        { configured with busy := true, work := some .send1, irqInhibit := true, portOut := 0xFF,
                          seq := ⟨.pixel, 0, 0, 7, .hi⟩, timer := ⟨1, 1, 2, 0, 0⟩ } with
      | .next t => some (t.irqInhibit, t.line, t.timer.tmr, t.timer.pending)
      | _ => none) = some (false, false, 6, 0) := by
  decide

/-- R62: a reserved word is taken and changes nothing else. -/
theorem test_step_reserved : step (fresh.withFetchWord 48 0) = .next fresh := by rfl

/-- R122: a SEND1 cut short after 5 clock periods leaves no trace and the direction bits. -/
theorem test_cut_short :
    (match step { configured with host := [.cutWord 0x200000FF0000 5] } with
      | .next t => some (t.trace, t.busy, t.configured, t.portDir, t.irqInhibit)
      | _ => none) = some ([], false, false, 8, false) := by
  decide

/-! ### Witnesses for the hypotheses of the obligations -/

theorem witness_EncodeDecode : decode 0x2FFFFF123456 = .instr (.send1 ⟨0x12, 0x34, 0x56⟩) := by decide

theorem witness_UnusedBitsIgnored :
    cmdOp 0x2FFFFF123456 = cmdOp 0x200000123456
      ∧ (0x2FFFFF123456 : CmdWord) &&& usedBits (cmdOp 0x2FFFFF123456) = 0x200000123456 &&& usedBits (cmdOp 0x2FFFFF123456) := by
  decide

theorem witness_StepRunsDecoded :
    ∃ (s : State) (w : CmdWord) (es : List HostEvent) (i : Instr),
      s.busy = false ∧ s.host = .word w :: es ∧ decode w = .instr i :=
  ⟨{ fresh with host := [.word 0x700000000000] }, 0x700000000000, [], .getAt 0, rfl, rfl, by decide⟩

theorem witness_ReservedWordIgnored :
    ∃ (s : State) (w : CmdWord) (es : List HostEvent),
      s.busy = false ∧ s.host = .word w :: es ∧ (w.toNat / 2 ^ 44 = 0 ∨ 8 ≤ w.toNat / 2 ^ 44) :=
  ⟨{ fresh with host := [.word 0x800000000000] }, 0x800000000000, [], rfl, rfl, by decide⟩

theorem witness_ReservedWordIgnored_bounds :
    (0x0FFFFFFFFFFF : CmdWord).toNat / 2 ^ 44 = 0 ∧ 8 ≤ (0xF00000000000 : CmdWord).toNat / 2 ^ 44
      ∧ ¬ 8 ≤ (0x7FFFFFFFFFFF : CmdWord).toNat / 2 ^ 44 := by
  decide

theorem witness_WireOrder : 23 < 24 := by decide

theorem witness_Send1Completes : Inv configured ∧ configured.configured = true := ⟨configured_inv, rfl⟩

theorem witness_Send1Events :
    (Inv configured ∧ configured.configured = true) ∧ (wirebits ⟨0, 0, 1⟩)[23]? = some true :=
  ⟨⟨configured_inv, rfl⟩, by decide⟩

theorem witness_Send1Positions : Inv configured ∧ configured.configured = true := ⟨configured_inv, rfl⟩

theorem witness_LatchCompletes : Inv configured ∧ configured.configured = true := ⟨configured_inv, rfl⟩

theorem witness_TransmitBeforeInitRefused : fresh.configured = false := rfl

theorem witness_EncoderIgnoresStore : ∃ i t, (i = Instr.latch) ∧ exec i buffered = .next t := ⟨.latch, _, rfl, rfl⟩

theorem witness_EncoderIgnoresStore_send1 :
    ∃ t, Instr.send1 ⟨1, 2, 3⟩ = .send1 ⟨1, 2, 3⟩ ∧ exec (.send1 ⟨1, 2, 3⟩) buffered = .next t := ⟨_, rfl, rfl⟩

theorem witness_InitRefused_pin : fresh.params.portW ≤ (8 : Byte).toNat := by decide

theorem witness_InitRefused_count :
    (7 : Byte).toNat < params8.portW ∧ (100 : Nat) < (idxOperand { params8 with maxPixels := 100 } 101).toNat := by decide

theorem witness_InitCompletes :
    Inv fresh ∧ (7 : Byte).toNat < fresh.params.portW ∧ (true = true → (idxOperand fresh.params 65535).toNat ≤ fresh.params.maxPixels) :=
  ⟨fresh_inv, by decide, by decide⟩

theorem witness_InitStoreLifeCycle : ∃ t, exec (.init 3 3 true) buffered = .next t := ⟨_, rfl⟩

theorem witness_InitStoreLifeCycle_others :
    (∃ t, exec (.init 3 2 true) buffered = .next t) ∧ (∃ t, exec (.init 3 3 false) buffered = .next t)
      ∧ ∃ t, exec (.init 3 0 true) fresh = .next t :=
  ⟨⟨_, rfl⟩, ⟨_, rfl⟩, ⟨_, rfl⟩⟩

theorem witness_InitIdempotent :
    ∃ t u v, Inv fresh ∧ exec (.init 3 3 true) fresh = .next t ∧ (∀ i ∈ [Instr.setAt 2 ⟨1, 2, 3⟩], isInit i = false)
      ∧ execList [Instr.setAt 2 ⟨1, 2, 3⟩] t = .next u ∧ exec (.init 3 3 true) u = .next v :=
  ⟨_, _, _, fresh_inv, rfl, by decide, rfl, rfl⟩

theorem witness_InitLeavesOldPin :
    ∃ t u, Inv configured ∧ configured.configured = true ∧ (3 : Byte).toNat < configured.params.portW
      ∧ configured.pinMask = 1#256 <<< (3 : Byte).toNat ∧ (5 : Byte) ≠ 3 ∧ exec (.init 5 0 false) configured = .next t
      ∧ (∀ i ∈ [Instr.setAll ⟨1, 1, 1⟩], namesPin 3 i = false) ∧ execList [Instr.setAll ⟨1, 1, 1⟩] t = .next u :=
  ⟨_, _, configured_inv, rfl, by decide, by decide, by decide, rfl, by decide, rfl⟩

theorem witness_SetAtCompletes :
    Inv buffered ∧ (idxOperand buffered.params 2).toNat < buffered.count.toNat
      ∧ ¬ (idxOperand buffered.params 3).toNat < buffered.count.toNat :=
  ⟨buffered_inv, by decide, by decide⟩

theorem witness_SetAtThenGetAt :
    ∃ t u, Inv buffered ∧ buffered.buffered = true ∧ (idxOperand buffered.params 2).toNat < buffered.count.toNat
      ∧ exec (.setAt 2 ⟨7, 8, 9⟩) buffered = .next t
      ∧ (∀ i ∈ [Instr.setAt 1 ⟨1, 1, 1⟩, .init 3 3 true], sparesEntry buffered.params (idxOperand buffered.params 2) buffered.count i = true)
      ∧ execList [Instr.setAt 1 ⟨1, 1, 1⟩, .init 3 3 true] t = .next u :=
  ⟨_, _, buffered_inv, rfl, by decide, rfl, by decide, rfl⟩

theorem witness_SetAllCompletes : Inv buffered := buffered_inv

theorem witness_SetAllCompletes_bounds :
    (buffered.buffered = true ∧ 2 < buffered.count.toNat) ∧ ¬ 3 < buffered.count.toNat := by decide

theorem witness_SetAllIsSetAts : Inv buffered ∧ buffered.rsp = none := ⟨buffered_inv, rfl⟩

theorem witness_GetAtCompletes :
    Inv buffered ∧ (buffered.buffered = true ∧ (idxOperand buffered.params 2).toNat < buffered.count.toNat)
      ∧ (buffered.buffered = false ∨ buffered.count.toNat ≤ (idxOperand buffered.params 3).toNat) :=
  ⟨buffered_inv, by decide, by decide⟩

theorem witness_SendAllCompletes : Inv buffered ∧ buffered.buffered = true := ⟨buffered_inv, rfl⟩

theorem witness_SendAllCompletes_empty :
    Inv { buffered with count := 0, store := [] } ∧ ({ buffered with count := 0, store := [] } : State).buffered = true :=
  ⟨by constructor <;> decide, rfl⟩

theorem witness_SendAllEvents : Inv buffered ∧ buffered.buffered = true := ⟨buffered_inv, rfl⟩

theorem witness_SendAllUnbuffered : Inv configured ∧ configured.buffered = false := ⟨configured_inv, rfl⟩

theorem witness_SendAllIsSends :
    ∃ t, Inv buffered ∧ buffered.buffered = true ∧ buffered.params.gapNs = 0 ∧ exec .sendAll buffered = .next t :=
  ⟨_, buffered_inv, rfl, rfl, rfl⟩

theorem witness_BeforeInit : Inv fresh ∧ fresh.configured = false := ⟨fresh_inv, rfl⟩

theorem witness_BeforeInit_bounds :
    (7 : Byte).toNat < fresh.params.portW ∧ (idxOperand fresh.params 65535).toNat ≤ fresh.params.maxPixels
      ∧ 8 ≤ (0x800000000000 : CmdWord).toNat / 2 ^ 44 ∧ (0x0FFFFFFFFFFF : CmdWord).toNat / 2 ^ 44 = 0 := by
  decide

theorem witness_OnlyInitConfigures : ∃ t, isInit .sendAll = false ∧ exec .sendAll buffered = .next t := ⟨_, rfl, rfl⟩

theorem witness_WhoWrites : ∃ t, exec (.setAt 2 ⟨7, 8, 9⟩) buffered = .next t := ⟨_, rfl⟩

theorem witness_OtherPortBitsKept : ∃ t, exec (.init 5 0 false) configured = .next t := ⟨_, rfl⟩

theorem witness_TraceOnlyGrows : ∃ t, exec .sendAll buffered = .next t := ⟨_, rfl⟩

theorem witness_StoreStaysCanonical : ∃ t, buffered.store.wf = true ∧ exec (.setAll ⟨0, 0, 0⟩) buffered = .next t :=
  ⟨_, rfl, rfl⟩

theorem witness_InvAtReset : (0xFF : PortBits).toNat < 2 ^ 8 ∧ (0 : PortBits).toNat < 2 ^ 8 := by decide

theorem witness_InvStep :
    ∃ t, Inv (buffered.withFetchWord 48 0x600000000000) ∧ step (buffered.withFetchWord 48 0x600000000000) = .next t :=
  ⟨_, by constructor <;> decide, rfl⟩

theorem witness_InhibitedNeverStretched : ∃ t, Inv configured ∧ exec (.send1 ⟨0, 0, 0⟩) configured = .next t :=
  ⟨_, configured_inv, rfl⟩

theorem witness_DeferredServiceServed :
    configured.irqInhibit = false ∧ configured.timer = Timer.rest
      ∧ [Period.quiet, ⟨true, false, 0⟩, ⟨true, false, 0⟩].length = cycles configured.params configured.params.t0hNs := by
  decide

theorem witness_TimingNotObserved : ∃ t, Inv configured ∧ exec (.send1 ⟨1, 2, 3⟩) configured = .next t :=
  ⟨_, configured_inv, rfl⟩

theorem witness_ClockedRunIsExec : ∃ t, Inv buffered ∧ exec .sendAll buffered = .next t := ⟨_, buffered_inv, rfl⟩

theorem witness_ClockEdgeKeepsInv :
    ∃ t, ClockInv configured ∧ tick ⟨true, true, 0x200000000000, false, false, 0⟩ configured = .next t := by
  refine ⟨_, ?_, rfl⟩
  constructor <;> simp [configured, fresh, State.reset] <;> decide

theorem witness_InvIsClockInv : Inv configured := configured_inv

theorem witness_BusyTakesNoWord : ({ configured with busy := true, work := some .latch } : State).busy = true := rfl

theorem witness_AcceptedIsBusy :
    ∃ t, configured.busy = false ∧ decode 0x300000000000 = .instr .latch
      ∧ tick ⟨true, true, 0x300000000000, false, false, 0⟩ configured = .next t :=
  ⟨_, rfl, by decide, rfl⟩

/-- `configured` in the high phase of the first bit of a pixel. -/
def sentMidway : State := { configured with busy := true, work := some .send1, seq := Seq.pixelStart 0 }

theorem witness_ResetEdge : (⟨false, true, 0x600000000000, true, false, 0⟩ : PortIn).rstN = false := rfl

theorem witness_ResetEdge_idle : configured.seq.top = .idle ∧ sentMidway.seq.top ≠ .idle := by decide

theorem witness_ResetAbandons :
    ∃ t, ({ configured with host := [.cutWord 0x200000FF0000 5] } : State).busy = false
      ∧ step { configured with host := [.cutWord 0x200000FF0000 5] } = .next t :=
  ⟨_, rfl, rfl⟩

/-- `configured` after a SEND1 of green 128, and after the LATCH that ends its frame. -/
def sent : State := State.endCommand (sendPixel 0 (configured.beginCommand.setColour ⟨0, 128, 0⟩))

def sentFrame : State := State.endCommand (latchSeq sent.beginCommand)

theorem configured_wire : configured.wire = [] := rfl

theorem witness_Send1Received :
    Inv configured ∧ configured.configured = true ∧ receiverPremises configured.params = true
      ∧ exec (.send1 ⟨0, 128, 0⟩) configured = .next sent ∧ sent.wire = configured.wire ++ sent.wire
      ∧ lowsShort configured.params sent.wire = true :=
  ⟨configured_inv, rfl, by decide, rfl, by rw [configured_wire, List.nil_append], by decide +kernel⟩

theorem witness_FrameReceived :
    Inv configured ∧ configured.configured = true ∧ [(⟨0, 128, 0⟩ : Colour)] ≠ []
      ∧ receiverPremises configured.params = true
      ∧ execList (unbufferedFrame [⟨0, 128, 0⟩]) configured = .next sentFrame
      ∧ sentFrame.wire = configured.wire ++ sentFrame.wire
      ∧ lowsShort configured.params sentFrame.wire = true :=
  ⟨configured_inv, rfl, by decide, by decide, rfl, by rw [configured_wire, List.nil_append], by decide +kernel⟩

end Sys2Proof.Tests
end

section
/-! PROOFS. What a command that completes leaves, once per command: the inversion of `exec` the later proofs split on. -/

namespace Sys2Proof.Machine

/-! ### The store's operations as one write -/

/-- SETAT's write as a replacement of the entries (R89). -/
theorem storeSetAt_eq (index : Idx) (c : Colour) (s : State) :
    storeSetAt index c s =
      s.setStore (if s.holdsIndex index = true then s.store.write index.toNat c else s.store) := by
  unfold storeSetAt
  split <;> rfl

/-- SETALL's writes as a replacement of the entries (R91). -/
theorem storeSetAll_eq (c : Colour) (s : State) :
    storeSetAll c s = s.setStore (if s.buffered = true then s.store.fill s.count.toNat c else s.store) := by
  unfold storeSetAll
  split <;> rfl

/-- INIT's store step (R86 step 6): the entries are kept or gone, and BUFFERED is the operand. -/
theorem initStore_eq (count : Idx) (buffered : Bool) (old : Idx) (s : State) :
    initStore count buffered old s =
      (s.setStore (if buffered = true ∧ s.buffered = true ∧ old = count ∧ s.params.reinitClears = false then s.store
        else [])).setBuffered buffered := by
  unfold initStore
  cases buffered
  · simp
  · by_cases hk : s.buffered = true ∧ old = count ∧ s.params.reinitClears = false
    · obtain ⟨hb, ho, hr⟩ := hk
      simp [hb, ho, hr]
      rfl
    · have hk' : s.buffered = false ∨ old ≠ count ∨ s.params.reinitClears = true := by
        by_contra hn
        simp only [not_or, Bool.not_eq_false, Bool.not_eq_true, not_not] at hn
        exact hk hn
      rw [if_pos rfl, if_pos hk', if_neg (fun h => hk h.2)]
      rfl

/-! ### The commands -/

/-- The state each command leaves where it completes, and when it does: the arms of `exec`. -/
inductive Completes (s : State) : Instr → State → Prop where
  | init {pin : Byte} {count : Idx} {buffered : Bool}
      (accepted : initRefusal pin (idxOperand s.params count) buffered s = none) :
      Completes s (.init pin count buffered)
        (State.endCommand (initStore (idxOperand s.params count) buffered s.count
          (latchSeq (sendPixel 0 (initLine pin (idxOperand s.params count) s.beginCommand)))))
  | send1 {c : Colour} (configured : s.configured = true) :
      Completes s (.send1 c) (State.endCommand (sendPixel 0 (s.beginCommand.setColour c)))
  | latch (configured : s.configured = true) : Completes s .latch (State.endCommand (latchSeq s.beginCommand))
  | setAt {index : Idx} {c : Colour} :
      Completes s (.setAt index c) ((storeSetAt (idxOperand s.params index) c s.beginCommand).setBusy false)
  | setAll {c : Colour} : Completes s (.setAll c) ((storeSetAll c s.beginCommand).setBusy false)
  | sendAll (buffered : s.buffered = true) :
      Completes s .sendAll (State.endCommand (latchSeq (sendEntries s.count.toNat s.beginCommand)))
  | sendAllIgnored (absent : s.buffered = false) : Completes s .sendAll (State.endCommand s.beginCommand)
  | getAt {index : Idx} :
      Completes s (.getAt index)
        ((s.beginCommand.respond (some (getAtResponse (idxOperand s.params index) s))).setBusy false)

theorem completes_of_exec {i : Instr} {s t : State} (h : exec i s = .next t) : Completes s i t := by
  cases i with
  | init pin count buffered =>
    obtain ⟨hr, rfl⟩ := execInit_next h
    exact .init hr
  | send1 c =>
    obtain ⟨hc, rfl⟩ := execSend1_next h
    exact .send1 hc
  | latch =>
    obtain ⟨hc, rfl⟩ := execLatch_next h
    exact .latch hc
  | setAt index c =>
    cases h
    exact .setAt
  | setAll c =>
    cases h
    exact .setAll
  | sendAll =>
    cases h
    cases hb : s.buffered
    · exact .sendAllIgnored hb
    · exact .sendAll hb
  | getAt index =>
    cases h
    exact .getAt

theorem exec_of_completes {i : Instr} {s t : State} (h : Completes s i t) : exec i s = .next t := by
  cases h with
  | init hr => simp [exec, execInit, hr]
  | send1 hc => simp [exec, execSend1, hc]
  | latch hc => simp [exec, execLatch, hc]
  | setAt => rfl
  | setAll => rfl
  | sendAll hb => simp [exec, execSendAll, hb]
  | sendAllIgnored hb => simp [exec, execSendAll, hb]
  | getAt => rfl

/-- `exec` answers a next state exactly where the command completes, and that state. -/
theorem exec_next_iff {i : Instr} {s t : State} : exec i s = .next t ↔ Completes s i t :=
  ⟨completes_of_exec, exec_of_completes⟩

/-! ### Accepting a command at the clock's level -/

/-- A command that drives no phase in this state: the store's, and a SENDALL with no store (IC3). -/
def drivesNoPhase (s : State) : Instr → Bool
  | .setAt _ _ => true
  | .setAll _ => true
  | .getAt _ => true
  | .sendAll => !s.buffered
  | .init _ _ _ => false
  | .send1 _ => false
  | .latch => false

/-- The state in which each command is begun where it is accepted, and when it is: the arms of `accept`. -/
inductive Accepts (s : State) : Instr → State → Prop where
  | init {pin : Byte} {count : Idx} {buffered : Bool}
      (accepted : initRefusal pin (idxOperand s.params count) buffered s = none) :
      Accepts s (.init pin count buffered)
        (enterPixel 0 ((initLine pin (idxOperand s.params count) s.beginCommand).setWork
          (some (.init (idxOperand s.params count) buffered s.count))))
  | send1 {c : Colour} (configured : s.configured = true) :
      Accepts s (.send1 c) (enterPixel 0 ((s.beginCommand.setColour c).setWork (some .send1)))
  | latch (configured : s.configured = true) : Accepts s .latch (enterLatch (s.beginCommand.setWork (some .latch)))
  | sendAllEmpty (buffered : s.buffered = true) (empty : s.count = 0) :
      Accepts s .sendAll (enterLatch (s.beginCommand.setWork (some (.sendAll false))))
  | sendAll (buffered : s.buffered = true) (nonempty : s.count ≠ 0) : Accepts s .sendAll (enterEntry 0 s.beginCommand)
  | quick {i : Instr} (quick : drivesNoPhase s i = true) : Accepts s i (s.beginCommand.setWork (some (.quick i)))

theorem accepts_of_accept {i : Instr} {s a : State} (h : accept i s = .next a) : Accepts s i a := by
  cases i with
  | init pin count buffered =>
    simp only [accept] at h
    split at h
    · cases h
    · next hr =>
      cases h
      exact .init hr
  | send1 c =>
    simp only [accept] at h
    split_ifs at h with hc
    cases h
    exact .send1 (by simpa using hc)
  | latch =>
    simp only [accept] at h
    split_ifs at h with hc
    cases h
    exact .latch (by simpa using hc)
  | sendAll =>
    simp only [accept] at h
    split_ifs at h with hb hz
    · cases h
      exact .sendAllEmpty hb hz
    · cases h
      exact .sendAll hb hz
    · cases h
      exact .quick (by simpa [drivesNoPhase] using hb)
  | setAt index c =>
    cases h
    exact .quick rfl
  | setAll c =>
    cases h
    exact .quick rfl
  | getAt index =>
    cases h
    exact .quick rfl

theorem accept_of_accepts {i : Instr} {s a : State} (h : Accepts s i a) : accept i s = .next a := by
  cases h with
  | init hr => simp [accept, hr]
  | send1 hc => simp [accept, hc]
  | latch hc => simp [accept, hc]
  | sendAllEmpty hb hz => simp [accept, hb, hz]
  | sendAll hb hz => simp only [accept, hb, hz, if_true, if_false]
  | quick hq =>
    cases i with
    | sendAll => simp [accept, show s.buffered = false by simpa [drivesNoPhase] using hq]
    | setAt | setAll | getAt => rfl
    | init | send1 | latch => cases hq

/-- `accept` answers a next state exactly where the command is accepted, and that state. -/
theorem accept_next_iff {i : Instr} {s a : State} : accept i s = .next a ↔ Accepts s i a :=
  ⟨accepts_of_accept, accept_of_accepts⟩

/-! ### The frames of INIT's transmission and of SENDALL's walk -/

/-- INIT's blanking pulse and its latch (R86 steps 4 and 5). -/
theorem initPulse_wireOnly (pin : Byte) (n : Idx) (s : State) :
    WireOnly (initLine pin n s) (latchSeq (sendPixel 0 (initLine pin n s))) :=
  (sendPixel_wireOnly 0 _).trans (latchSeq_wireOnly _)

/-- A frame does not depend on the colour its two states share. -/
theorem WireOnly.recolour {s t : State} (w : WireOnly s t) (c : Colour) : WireOnly (s.setColour c) (t.setColour c) :=
  ⟨rfl, w.configured, w.buffered, w.busy, w.portDir, w.pinMask, w.count, w.store, w.rsp, w.work, w.draws, w.params,
    w.host, w.outside⟩

/-- SENDALL's walk writes the colour register file and what a transmission writes, and nothing else (R93). -/
theorem sendEntries_wireOnly (n : Nat) (s : State) : WireOnly s ((sendEntries n s).setColour s.x) := by
  induction n with
  | zero => exact WireOnly.refl s
  | succ n ih =>
    rw [sendEntries_succ]
    exact ih.trans ((sendEntry_wireOnly n (sendEntries n s)).1.recolour s.x)

/-! ### What the encoder does not see -/

/-- An update of a part of the state that the pulse encoder neither reads nor writes. -/
structure Unseen (f : State → State) : Prop where
  x : ∀ s, (f s).x = s.x
  goto : ∀ s q, (f s).goto q = f (s.goto q)
  drive : ∀ s v, (f s).drive v = f (s.drive v)
  setInhibit : ∀ s v, (f s).setInhibit v = f (s.setInhibit v)
  hold : ∀ s ph, (f s).hold ph = f (s.hold ph)

theorem setWork_unseen (w : Option Work) : Unseen (State.setWork w) :=
  ⟨fun _ => rfl, fun _ _ => rfl, fun _ _ => rfl, fun _ _ => rfl, fun _ _ => rfl⟩

namespace Unseen

variable {f : State → State} (hf : Unseen f)
include hf

theorem sendBit (v : Bool) (s : State) : Machine.sendBit v (f s) = f (Machine.sendBit v s) := by
  cases v
  · simp [Machine.sendBit, bit0, hf.drive, hf.setInhibit, hf.hold]
  · simp [Machine.sendBit, bit1, hf.drive, hf.hold]

theorem sendBits (v : Byte) (bs : List (Fin 8)) (s : State) :
    Machine.sendBits v bs (f s) = f (Machine.sendBits v bs s) := by
  induction bs generalizing s with
  | nil => rfl
  | cons b bs ih => rw [sendBits_cons, sendBits_cons, hf.sendBit, ih]

theorem sendChannel (k : Fin 3) (s : State) : Machine.sendChannel k (f s) = f (Machine.sendChannel k s) := by
  unfold Machine.sendChannel
  rw [hf.x]
  exact hf.sendBits _ _ s

theorem sendPixel (pix : Idx) (s : State) : Machine.sendPixel pix (f s) = f (Machine.sendPixel pix s) := by
  simp [Machine.sendPixel, hf.goto, hf.sendChannel]

theorem latchSeq (s : State) : Machine.latchSeq (f s) = f (Machine.latchSeq s) := by
  simp [Machine.latchSeq, hf.goto, hf.drive, hf.hold]

end Unseen

theorem sendGap_setWork (w : Option Work) (i : Nat) (s : State) :
    sendGap i (s.setWork w) = (sendGap i s).setWork w := by
  unfold sendGap
  rw [State.setWork_params]
  split <;> rfl

theorem sendEntries_setWork (w : Option Work) (n : Nat) (s : State) :
    sendEntries n (s.setWork w) = (sendEntries n s).setWork w := by
  induction n with
  | zero => rfl
  | succ n ih =>
    rw [sendEntries_succ, sendEntries_succ, ih]
    simp only [sendEntry, sendGap_setWork]
    exact (setWork_unseen w).sendPixel _ ((sendGap n _).setColour _)

end Sys2Proof.Machine
end

section
/-! PROOFS. What the encoder's procedures append to the two traces, from any state, and where the sequencer stands at each
phase. -/

namespace Sys2Proof.Machine

/-! ### The traces only grow, and in step -/

/-- From `s` to `t` both traces were appended to, event for event (R27, log entry 20). -/
def Grows (s t : State) : Prop :=
  ∃ es us, t.trace = s.trace ++ es ∧ t.wire = s.wire ++ us ∧ es.length = us.length

theorem Grows.of_eq {s t : State} (ht : t.trace = s.trace) (hw : t.wire = s.wire) : Grows s t :=
  ⟨[], [], by simp [ht], by simp [hw], rfl⟩

theorem Grows.trans {s t u : State} (h : Grows s t) (h' : Grows t u) : Grows s u := by
  obtain ⟨es, us, ht, hw, hl⟩ := h
  obtain ⟨fs, vs, ht', hw', hl'⟩ := h'
  exact ⟨es ++ fs, us ++ vs, by rw [ht', ht, List.append_assoc], by rw [hw', hw, List.append_assoc], by simp [hl, hl']⟩

theorem hold_grows (ph : Phase) (s : State) : Grows s (s.hold ph) :=
  ⟨[_], [_], State.hold_trace s ph, State.hold_wire ph s, rfl⟩

theorem sendBit_grows (v : Bool) (s : State) : Grows s (sendBit v s) := by
  cases v
  · have hi := hold_grows .t0h ((s.setInhibit true).drive true)
    have lo := hold_grows .t0l (((((s.setInhibit true).drive true).hold .t0h).drive false).setInhibit false)
    exact (Grows.of_eq rfl rfl).trans (hi.trans ((Grows.of_eq rfl rfl).trans lo))
  · have hi := hold_grows .t1h (s.drive true)
    have lo := hold_grows .t1l (((s.drive true).hold .t1h).drive false)
    exact (Grows.of_eq rfl rfl).trans (hi.trans ((Grows.of_eq rfl rfl).trans lo))

theorem sendBits_grows (v : Byte) (bs : List (Fin 8)) (s : State) : Grows s (sendBits v bs s) := by
  induction bs generalizing s with
  | nil => exact .of_eq rfl rfl
  | cons b bs ih => exact (sendBit_grows _ s).trans (ih _)

theorem sendPixel_grows (pix : Idx) (s : State) : Grows s (sendPixel pix s) :=
  ((sendBits_grows _ _ (s.goto (Seq.pixelStart pix))).trans (sendBits_grows _ _ _)).trans (sendBits_grows _ _ _)

theorem latchSeq_grows (s : State) : Grows s (latchSeq s) := hold_grows .latch ((s.goto Seq.latchHold).drive false)

theorem sendGap_grows (i : Nat) (s : State) : Grows s (sendGap i s) := by
  unfold sendGap
  split
  · exact hold_grows _ _
  · exact .of_eq rfl rfl

theorem sendEntries_grows (n : Nat) (s : State) : Grows s (sendEntries n s) := by
  induction n with
  | zero => exact .of_eq rfl rfl
  | succ n ih =>
    rw [sendEntries_succ]
    exact (ih.trans (sendGap_grows n _)).trans (sendPixel_grows (BitVec.ofNat 16 n) (State.setColour _ _))

/-! ### The sequencer positions of a pixel -/

@[simp] theorem Seq.next_top (q : Seq) : q.next.top = q.top := by
  unfold Seq.next
  split
  · rfl
  · split_ifs <;> rfl

@[simp] theorem State.spanOf_seq (ph : Phase) (s : State) : (s.spanOf ph).seq = s.seq := by cases ph <;> rfl

/-- From `s` to `t` the sequencer took `n` steps inside a pixel, one phase recorded at each position it left (R16). -/
structure Walks (s t : State) (n : Nat) : Prop where
  top : t.seq.top = .pixel
  seq : t.seq = Seq.next^[n] s.seq
  spans : ∃ us, t.wire = s.wire ++ us ∧ us.map (·.seq) = List.iterate Seq.next s.seq n

theorem Walks.refl {s : State} (h : s.seq.top = .pixel) : Walks s s 0 := ⟨h, rfl, [], by simp, rfl⟩

theorem Walks.trans {s t u : State} {m n : Nat} (h : Walks s t m) (h' : Walks t u n) : Walks s u (m + n) := by
  obtain ⟨us, hw, hu⟩ := h.spans
  obtain ⟨vs, hw', hv⟩ := h'.spans
  refine ⟨h'.top, ?_, us ++ vs, by rw [hw', hw, List.append_assoc], ?_⟩
  · rw [h'.seq, h.seq, Nat.add_comm, Function.iterate_add_apply]
  · rw [List.map_append, hu, hv, h.seq, List.iterate_add]

/-- A phase is one step of the walk, whatever was driven before it. -/
theorem hold_walks (ph : Phase) {s t : State} (h : s.seq.top = .pixel) (hs : t.seq = s.seq) (hw : t.wire = s.wire) :
    Walks s (t.hold ph) 1 :=
  ⟨by simp [hs, h], by simp [hs, h], [_], hw ▸ State.hold_wire ph t, by simp [hs, List.iterate]⟩

theorem sendBit_walks (v : Bool) {s : State} (h : s.seq.top = .pixel) : Walks s (sendBit v s) 2 := by
  cases v
  · have hi : Walks s (((s.setInhibit true).drive true).hold .t0h) 1 := hold_walks .t0h h rfl rfl
    have lo : Walks _ (bit0 s) 1 :=
      hold_walks .t0l (t := ((((s.setInhibit true).drive true).hold .t0h).drive false).setInhibit false) hi.top rfl rfl
    exact hi.trans lo
  · have hi : Walks s ((s.drive true).hold .t1h) 1 := hold_walks .t1h h rfl rfl
    have lo : Walks _ (bit1 s) 1 := hold_walks .t1l (t := ((s.drive true).hold .t1h).drive false) hi.top rfl rfl
    exact hi.trans lo

theorem sendBits_walks (v : Byte) (bs : List (Fin 8)) {s : State} (h : s.seq.top = .pixel) :
    Walks s (sendBits v bs s) (2 * bs.length) := by
  induction bs generalizing s with
  | nil => exact .refl h
  | cons b bs ih =>
    have h1 := sendBit_walks (v.getLsbD b.val) h
    rw [List.length_cons, Nat.mul_succ, Nat.add_comm]
    exact h1.trans (ih h1.top)

theorem sendChannel_walks (k : Fin 3) {s : State} (h : s.seq.top = .pixel) : Walks s (sendChannel k s) 16 :=
  sendBits_walks _ bitOrder h

theorem sendPixel_walks (pix : Idx) (s : State) : Walks (s.goto (Seq.pixelStart pix)) (sendPixel pix s) 48 := by
  have h0 := sendChannel_walks 0 (s := s.goto (Seq.pixelStart pix)) rfl
  have h1 := sendChannel_walks 1 h0.top
  have h2 := sendChannel_walks 2 h1.top
  exact (h0.trans h1).trans h2

/-- The steps from a pixel's first position are its 48 positions (R16). -/
theorem iterate_next_pixelStart :
    List.iterate Seq.next (Seq.pixelStart 0) 48 = (List.range 48).map (positionOf 0) := by decide

/-- PIXEL outside SENDALL records one span at each of a pixel's 48 positions, in order (R16, R77). -/
theorem sendPixel_positions (s : State) :
    ∃ us, (sendPixel 0 s).wire = s.wire ++ us ∧ us.map (·.seq) = (List.range 48).map (positionOf 0) := by
  obtain ⟨us, hw, hu⟩ := (sendPixel_walks 0 s).spans
  exact ⟨us, hw, hu.trans iterate_next_pixelStart⟩

end Sys2Proof.Machine
end

section
/-! PROOFS. The statements about single commands. -/

namespace Sys2Proof.Machine

/-- Settles O11: SEND1 sends one pixel, whose phases are recorded at the positions the sequencer walks. -/
theorem send1Positions : Obligations.Send1Positions := by
  unfold Obligations.Send1Positions
  intro c s _ hc
  obtain ⟨us, hw, hu⟩ := sendPixel_positions (s.beginCommand.setColour c)
  exact ⟨_, us, exec_of_completes (.send1 hc), hw, hu⟩

/-- Settles O31, command by command: the encoder's frame for what transmits, the one store write for what does not. -/
theorem whoWrites : Obligations.WhoWrites := by
  unfold Obligations.WhoWrites
  intro i s t h
  cases completes_of_exec h with
  | init => simp [isInit]
  | send1 => exact ⟨.inr (.inr (.inr ⟨_, rfl⟩)), .inl (sendPixel_wireOnly 0 _).store⟩
  | latch => exact ⟨.inl (latchSeq_wireOnly _).x, .inl (latchSeq_wireOnly _).store⟩
  | setAt => exact ⟨.inl (by simp [storeSetAt_eq]), .inr (.inr (.inl ⟨_, _, rfl⟩))⟩
  | setAll => exact ⟨.inl (by simp [storeSetAll_eq]), .inr (.inr (.inr ⟨_, rfl⟩))⟩
  | sendAll =>
    exact ⟨.inr (.inr (.inl rfl)), .inl ((latchSeq_wireOnly _).store.trans (sendEntries_wireOnly _ _).store)⟩
  | sendAllIgnored => exact ⟨.inl rfl, .inl rfl⟩
  | getAt => exact ⟨.inl rfl, .inl rfl⟩

/-- Settles O32: a transmission moves no bit outside PINMASK, and INIT, which alone sets PINMASK and a direction bit, transmits
on the new pin. -/
theorem otherPortBitsKept : Obligations.OtherPortBitsKept := by
  unfold Obligations.OtherPortBitsKept
  have keeps : ∀ {s t : State}, WireOnly s t →
      t.portOut &&& ~~~t.pinMask = s.portOut &&& ~~~t.pinMask ∧ t.portDir = s.portDir := fun w =>
    ⟨by rw [w.pinMask, w.outside], w.portDir⟩
  intro i s t h
  cases completes_of_exec h with
  | @init pin count =>
    have w := initPulse_wireOnly pin (idxOperand s.params count) s.beginCommand
    simp only [initStore_eq, State.endCommand_portOut, State.endCommand_pinMask, State.endCommand_portDir,
      State.setBuffered_portOut, State.setBuffered_pinMask, State.setBuffered_portDir, State.setStore_portOut,
      State.setStore_pinMask, State.setStore_portDir]
    refine ⟨(keeps w).1, .inr ?_⟩
    rw [w.portDir, w.pinMask]
    rfl
  | send1 => exact (keeps (sendPixel_wireOnly 0 _)).imp_right .inl
  | latch => exact (keeps (latchSeq_wireOnly _)).imp_right .inl
  | setAt => simp [storeSetAt_eq]
  | setAll => simp [storeSetAll_eq]
  | sendAll =>
    have latched := latchSeq_wireOnly (sendEntries s.count.toNat s.beginCommand)
    have sent := sendEntries_wireOnly s.count.toNat s.beginCommand
    exact (keeps (sent.trans (latched.recolour s.x))).imp_right .inl
  | sendAllIgnored => exact ⟨rfl, .inl rfl⟩
  | getAt => exact ⟨rfl, .inl rfl⟩

/-- Settles O33: every `hold` appends one event and one span, and nothing else touches the traces. -/
theorem traceOnlyGrows : Obligations.TraceOnlyGrows := by
  unfold Obligations.TraceOnlyGrows
  intro i s t h
  change Grows s t
  cases completes_of_exec h with
  | @init pin count =>
    have g := (sendPixel_grows 0 (initLine pin (idxOperand s.params count) s.beginCommand)).trans (latchSeq_grows _)
    rw [initStore_eq]
    exact g
  | @send1 c => exact sendPixel_grows 0 (s.beginCommand.setColour c)
  | latch => exact latchSeq_grows s.beginCommand
  | setAt => exact .of_eq (by simp [storeSetAt_eq]) (by simp [storeSetAt_eq])
  | setAll => exact .of_eq (by simp [storeSetAll_eq]) (by simp [storeSetAll_eq])
  | sendAll => exact (sendEntries_grows s.count.toNat s.beginCommand).trans (latchSeq_grows _)
  | sendAllIgnored => exact .of_eq rfl rfl
  | getAt => exact .of_eq rfl rfl

/-- Settles O34: a write and a fill keep the canonical form, INIT keeps the entries or leaves none. -/
theorem storeStaysCanonical : Obligations.StoreStaysCanonical := by
  unfold Obligations.StoreStaysCanonical
  intro i s t hwf h
  have kept : ∀ {m : Memory}, m = s.store → m.wf = true := fun hm => hm ▸ hwf
  cases completes_of_exec h with
  | @init pin count =>
    have w := initPulse_wireOnly pin (idxOperand s.params count) s.beginCommand
    rw [initStore_eq]
    show Memory.wf (if _ then _ else _) = true
    split
    · rw [w.store]
      exact hwf
    · rfl
  | send1 => exact kept (sendPixel_wireOnly 0 _).store
  | latch => exact kept (latchSeq_wireOnly _).store
  | setAt =>
    rw [storeSetAt_eq]
    show Memory.wf (if _ then _ else _) = true
    split
    · exact Memory.write_wf hwf _ _
    · exact hwf
  | setAll =>
    rw [storeSetAll_eq]
    show Memory.wf (if _ then _ else _) = true
    split
    · exact Memory.fill_wf hwf _ _
    · exact hwf
  | sendAll => exact kept ((latchSeq_wireOnly _).store.trans (sendEntries_wireOnly _ s.beginCommand).store)
  | sendAllIgnored => exact hwf
  | getAt => exact hwf

/-- Settles O44: a busy edge looks at `rst_n` and the environment's period alone. -/
theorem busyTakesNoWord : Obligations.BusyTakesNoWord := by
  unfold Obligations.BusyTakesNoWord
  intro inp v w s hb
  simp [tick, hb]

/-- Settles O48: every value stands in `State.reset` or in `defaultParams`. -/
theorem resetValues : Obligations.ResetValues := by
  unfold Obligations.ResetValues
  have atRest : AtRest State.reset := ⟨rfl, rfl, rfl, rfl⟩
  exact ⟨⟨atRest, rfl, rfl, rfl, rfl, rfl, rfl, rfl, rfl⟩, rfl, rfl, rfl, rfl, rfl, rfl, rfl, rfl, rfl, rfl, rfl, rfl, rfl,
    rfl, rfl, rfl⟩

/-- Settles O35: the port is 8 bits wide at reset, and the other clauses hold of R32's values. -/
theorem invAtReset : Obligations.InvAtReset := by
  unfold Obligations.InvAtReset
  intro o d c ho hd
  have fits : ∀ v : PortBits, v.toNat < 2 ^ 8 → portFits defaultParams v = true := fun v hv => decide_eq_true hv
  refine ⟨rfl, rfl, rfl, rfl, rfl, ?_, rfl, rfl, fun _ => rfl, ?_, fits o ho, fits d hd, ?_, ?_, ?_, ?_, rfl⟩
  all_goals simp [State.reset]

end Sys2Proof.Machine
end

section
/-! PROOFS. What `normalise` gives (R27). -/

namespace Sys2Proof.Machine

/-- One event stands for one run: not empty, of the event's level, its duration the run's sum and its `inh` the run's `or`. -/
def MergesRun (run : List Event) (n : Event) : Prop :=
  run ≠ [] ∧ (∀ e ∈ run, e.level = n.level) ∧ n.dur = traceNs run ∧ n.inh = run.any (·.inh)

theorem MergesRun.single (e : Event) : MergesRun [e] e := by simp [MergesRun, traceNs]

/-- An event of the same level put before a run. -/
theorem MergesRun.cons {run : List Event} {e n : Event} (h : MergesRun run n) (hl : e.level = n.level) :
    MergesRun (e :: run) ⟨n.level, e.dur + n.dur, e.inh || n.inh⟩ := by
  obtain ⟨-, hlevel, hdur, hinh⟩ := h
  refine ⟨by simp, ?_, ?_, ?_⟩
  · simpa [hl] using hlevel
  · simp [traceNs, hdur]
  · simp [hinh]

/-- A chain of levels that differ sees its first event's level alone. -/
theorem isChain_level_of_head {e f : Event} {fs : List Event} (hl : e.level = f.level)
    (h : (f :: fs).IsChain (fun e f => e.level ≠ f.level)) : (e :: fs).IsChain (fun e f => e.level ≠ f.level) := by
  cases fs with
  | nil => exact .singleton e
  | cons g gs =>
    rw [List.isChain_cons_cons] at h ⊢
    exact ⟨hl ▸ h.1, h.2⟩

/-- Settles O49, by induction on the trace: the first event joins the first run or begins one of its own. -/
theorem normaliseMerges : Obligations.NormaliseMerges := by
  unfold Obligations.NormaliseMerges
  change ∀ es, ∃ runs : List (List Event), runs.flatten = es ∧ List.Forall₂ MergesRun runs (normalise es) ∧ _
  intro es
  induction es with
  | nil => exact ⟨[], rfl, .nil, .nil⟩
  | cons e es ih =>
    obtain ⟨runs, hflat, hruns, hchain⟩ := ih
    rw [normalise]
    split
    · next hn =>
      rw [hn] at hruns
      cases hruns
      exact ⟨[[e]], by simp [← hflat], .cons (.single e) .nil, .singleton e⟩
    · next f fs hn =>
      rw [hn] at hruns hchain
      by_cases hl : e.level = f.level
      · rw [if_pos hl]
        obtain _ | ⟨hrun, hrest⟩ := hruns
        next run rest =>
        exact ⟨(e :: run) :: rest, by simp [← hflat], .cons (hrun.cons hl) hrest,
          isChain_level_of_head (f := f) rfl hchain⟩
      · rw [if_neg hl]
        exact ⟨[e] :: runs, by simp [hflat], .cons (.single e) hruns, List.isChain_cons_cons.2 ⟨hl, hchain⟩⟩

end Sys2Proof.Machine
end

section
/-! PROOFS. What holds at every clock edge (R20, R104, R52 to R54, R19): entering a phase, ending one, accepting a command. -/

namespace Sys2Proof.Machine

/-! ### What `ClockInv` does not look at -/

theorem ClockInv.setTimer {s : State} (h : ClockInv s) (t : Timer) : ClockInv (s.setTimer t) :=
  ⟨h.inhibitExact, h.lineExact, h.movingBusy, h.restingWork, h.idleWork, h.gapPlace, h.onePin, h.storeConfigured,
    h.inhibited⟩

theorem ClockInv.setClock {s : State} (h : ClockInv s) (ps : List Period) : ClockInv (s.setClock ps) :=
  ⟨h.inhibitExact, h.lineExact, h.movingBusy, h.restingWork, h.idleWork, h.gapPlace, h.onePin, h.storeConfigured,
    h.inhibited⟩

theorem ClockInv.respond {s : State} (h : ClockInv s) (r : Option RspWord) : ClockInv (s.respond r) :=
  ⟨h.inhibitExact, h.lineExact, h.movingBusy, h.restingWork, h.idleWork, h.gapPlace, h.onePin, h.storeConfigured,
    h.inhibited⟩

/-! ### The phase the sequencer names -/

theorem bitPhaseOf_ne_latch (half : BitHalf) (v : Bool) : bitPhaseOf half v ≠ .latch := by
  cases half <;> cases v <;> decide

theorem bitPhaseOf_ne_gap (half : BitHalf) (v : Bool) : bitPhaseOf half v ≠ .gap := by
  cases half <;> cases v <;> decide

theorem phaseNow_latch_iff {s : State} : phaseNow s = .latch ↔ s.seq.top = .latching := by
  unfold phaseNow
  split_ifs with ht hg
  · simp [ht]
  · simp [ht]
  · simp [ht, bitPhaseOf_ne_latch]

theorem phaseNow_gap_iff {s : State} :
    phaseNow s = .gap ↔ s.seq.top ≠ .latching ∧ s.work = some (.sendAll true) := by
  unfold phaseNow
  split_ifs with ht hg
  · simp [ht]
  · simp [ht, hg]
  · simp [hg, bitPhaseOf_ne_gap]

/-- A mask of one bit of the port is some pin's (R24). -/
theorem exists_pin_of_oneBit {p : Params} {m : PortBits} (h : oneBit p m = true) :
    ∃ pin : Byte, pin.toNat < p.portW ∧ m = pinBit pin := by
  simp only [oneBit, List.any_eq_true, List.mem_range, beq_iff_eq] at h
  obtain ⟨k, hk, rfl⟩ := h
  have e : (BitVec.ofNat 8 k).toNat = k := Nat.mod_eq_of_lt (lt_of_lt_of_le hk (min_le_right _ _))
  exact ⟨BitVec.ofNat 8 k, by rw [e]; exact lt_of_lt_of_le hk (min_le_left _ _), by rw [pinBit, e]⟩

theorem ne_zero_of_oneBit {p : Params} {m : PortBits} (h : oneBit p m = true) : m ≠ 0 := by
  obtain ⟨pin, -, rfl⟩ := exists_pin_of_oneBit h
  exact pinBit_ne_zero pin

/-! ### Between two phases of a transmission -/

/-- The block is inside a command that transmits, at a moment between two phases (R16, R19). -/
structure Sending (s : State) : Prop where
  busy : s.busy = true
  configured : s.configured = true
  onePin : oneBit s.params s.pinMask = true
  work : ∃ w, s.work = some w ∧ ∀ i, w ≠ .quick i
  inhibited : ∀ e ∈ s.trace, inhibitedOk s.params e = true

theorem Sending.of_wireOnly {s t : State} (h : Sending s) (w : WireOnly s t) (ht : t.trace = s.trace) : Sending t :=
  ⟨w.busy.trans h.busy, w.configured.trans h.configured, by rw [w.params, w.pinMask]; exact h.onePin,
    by rw [w.work]; exact h.work, by rw [w.params, ht]; exact h.inhibited⟩

theorem Sending.recolour {s : State} (h : Sending s) (c : Colour) : Sending (s.setColour c) :=
  ⟨h.busy, h.configured, h.onePin, h.work, h.inhibited⟩

theorem Sending.setWork {s : State} (h : Sending s) {w : Work} (hw : ∀ i, w ≠ .quick i) : Sending (s.setWork (some w)) :=
  ⟨h.busy, h.configured, h.onePin, ⟨w, rfl, hw⟩, h.inhibited⟩

theorem Sending.line_drive {s : State} (h : Sending s) (v : Bool) : (s.drive v).line = v :=
  s.line_drive (ne_zero_of_oneBit h.onePin) v

/-- Inside a transmission what is left of the clocked invariant is the inhibit, the line and a gap's place. -/
theorem Sending.clockInv {s : State} (h : Sending s) (ht : s.seq.top ≠ .idle)
    (hi : s.irqInhibit = (decide (s.seq.top = .pixel) && phaseNow s == .t0h)) (hl : s.line = inHighPhase s)
    (hg : s.work = some (.sendAll true) → s.seq.top = .pixel ∧ lastPosition s.seq = true) : ClockInv s where
  inhibitExact := hi
  lineExact _ := hl
  movingBusy _ := ⟨h.busy, h.configured, h.work⟩
  restingWork hidle := absurd hidle ht
  idleWork hb := absurd (h.busy.symm.trans hb) (by decide)
  gapPlace := hg
  onePin _ := h.onePin
  storeConfigured _ := h.configured
  inhibited := h.inhibited

/-! ### Entering a phase -/

theorem startPhase_wireOnly (ph : Phase) (s : State) : WireOnly s (s.startPhase ph) :=
  ⟨rfl, rfl, rfl, rfl, rfl, rfl, rfl, rfl, rfl, rfl, rfl, rfl, rfl, rfl⟩

/-- Entering a bit's phase drives the line high for a high phase, sets the inhibit for the high phase of a 0-bit and releases it
for its low phase (R73, R74). -/
theorem enterBit_spec (s : State) :
    WireOnly s (enterBit s) ∧ (enterBit s).seq = s.seq ∧ (enterBit s).trace = s.trace
      ∧ (enterBit s).line = (s.drive (s.seq.ph == .hi)).line
      ∧ (enterBit s).irqInhibit = if seqBit s then s.irqInhibit else s.seq.ph == .hi := by
  unfold enterBit
  split
  · next hp hv => exact ⟨(drive_wireOnly _ _).trans (startPhase_wireOnly _ _), rfl, rfl, by rw [hp]; rfl, by rw [hv]; rfl⟩
  · next hp hv =>
    exact ⟨((setInhibit_wireOnly _ _).trans (drive_wireOnly _ _)).trans (startPhase_wireOnly _ _), rfl, rfl,
      by rw [hp]; rfl, by rw [hp, hv]; rfl⟩
  · next hp hv => exact ⟨(drive_wireOnly _ _).trans (startPhase_wireOnly _ _), rfl, rfl, by rw [hp]; rfl, by rw [hv]; rfl⟩
  · next hp hv =>
    exact ⟨((drive_wireOnly _ _).trans (setInhibit_wireOnly _ _)).trans (startPhase_wireOnly _ _), rfl, rfl,
      by rw [hp]; rfl, by rw [hp, hv]; rfl⟩

theorem enterBit_wireOnly (s : State) : WireOnly s (enterBit s) := (enterBit_spec s).1

theorem enterPixel_wireOnly (pix : Idx) (s : State) : WireOnly s (enterPixel pix s) :=
  (goto_wireOnly _ _).trans (enterBit_wireOnly _)

theorem enterLatch_wireOnly (s : State) : WireOnly s (enterLatch s) :=
  ((goto_wireOnly _ _).trans (drive_wireOnly _ _)).trans (startPhase_wireOnly _ _)

/-- A bit's phase is entered with the inhibit released, but for the low phase of a 0-bit, whose entry releases it (R74, D13). -/
theorem enterBit_clockInv {s : State} (h : Sending s) (ht : s.seq.top = .pixel) (hg : s.work ≠ some (.sendAll true))
    (hi : s.irqInhibit = true → seqBit s = false) : ClockInv (enterBit s) := by
  obtain ⟨w, hseq, htrace, hline, hinh⟩ := enterBit_spec s
  have htop : (enterBit s).seq.top = .pixel := by rw [hseq, ht]
  have hwork : (enterBit s).work ≠ some (.sendAll true) := by rwa [w.work]
  have hbit : seqBit (enterBit s) = seqBit s := seqBit_congr (by rw [hseq]) (by rw [hseq]) w.x
  have hphase : phaseNow (enterBit s) = bitPhaseOf s.seq.ph (seqBit s) := by
    rw [phaseNow_pixel htop hwork, hseq, hbit]
  refine (h.of_wireOnly w htrace).clockInv (by simp [htop]) ?_ ?_ (fun hw => absurd hw hwork)
  · rw [hinh, hphase, htop]
    cases hb : seqBit s <;> cases hp : s.seq.ph <;> simp_all [bitPhaseOf]
  · rw [hline, h.line_drive, inHighPhase, hphase, htop]
    cases seqBit s <;> cases s.seq.ph <;> decide

theorem enterPixel_clockInv {s : State} (h : Sending s) (pix : Idx) (hg : s.work ≠ some (.sendAll true))
    (hi : s.irqInhibit = false) : ClockInv (enterPixel pix s) :=
  enterBit_clockInv (h.of_wireOnly (goto_wireOnly _ _) rfl) rfl hg (fun hi' => absurd (hi.symm.trans hi') (by decide))

theorem enterEntry_clockInv {s : State} (h : Sending s) (i : Idx) (hi : s.irqInhibit = false) :
    ClockInv (enterEntry i s) :=
  enterPixel_clockInv ((h.setWork (w := .sendAll false) (by simp)).recolour _) i (by simp) hi

theorem enterLatch_clockInv {s : State} (h : Sending s) (hg : s.work ≠ some (.sendAll true))
    (hi : s.irqInhibit = false) : ClockInv (enterLatch s) := by
  have low : (enterLatch s).line = false := (h.of_wireOnly (goto_wireOnly Seq.latchHold s) rfl).line_drive false
  exact (h.of_wireOnly (enterLatch_wireOnly s) rfl).clockInv (by simp [enterLatch, Seq.latchHold]) hi low
    (fun hw => absurd hw hg)

/-! ### Ending a phase, and a command -/

/-- An idle block meets the clocked invariant with the inhibit released and the line low (R19, R33.3, R33.4). -/
theorem ClockInv.of_idle {s : State} (hb : s.busy = false) (hw : s.work = none) (ht : s.seq.top = .idle)
    (hi : s.irqInhibit = false) (hl : s.configured = true → s.line = false)
    (hp : s.configured = true → oneBit s.params s.pinMask = true) (hs : s.buffered = true → s.configured = true)
    (he : ∀ e ∈ s.trace, inhibitedOk s.params e = true) : ClockInv s where
  inhibitExact := by simp [hi, ht]
  lineExact hc := by simp [hl hc, inHighPhase, ht]
  movingBusy hne := absurd ht hne
  restingWork _ hb' := absurd (hb.symm.trans hb') (by decide)
  idleWork _ := ⟨hw, ht⟩
  gapPlace hg := absurd (hw.symm.trans hg) (by simp)
  onePin := hp
  storeConfigured := hs
  inhibited := he

/-- The end of a command: idle, no command in progress, and at most the store's state changed (R86 step 6). -/
theorem finish_eq (s : State) :
    ∃ m b, finish s = State.endCommand (((s.setStore m).setBuffered b).setWork none) := by
  unfold finish
  split
  · next count buffered old _ => exact ⟨_, buffered, by rw [initStore_eq]⟩
  · exact ⟨s.store, s.buffered, rfl⟩

theorem finish_clockInv {s : State} (h : Sending s) (hi : s.irqInhibit = false) (hl : s.line = false) :
    ClockInv (finish s) := by
  obtain ⟨m, b, e⟩ := finish_eq s
  rw [e]
  exact .of_idle rfl rfl rfl hi (fun _ => hl) (fun _ => h.onePin) (fun _ => h.configured) h.inhibited

/-- After a pixel's last phase: the latch, the gap before the next pixel, the next pixel, or the end (R16). -/
theorem pixelDone_clockInv {s : State} (h : Sending s) (ht : s.seq.top = .pixel) (hlast : lastPosition s.seq = true)
    (hg : s.work ≠ some (.sendAll true)) (hi : s.irqInhibit = false) (hl : s.line = false) :
    ClockInv (pixelDone s) := by
  unfold pixelDone
  split
  · exact enterLatch_clockInv h hg hi
  · split_ifs
    · have hgap : phaseNow ((s.setWork (some (.sendAll true))).startPhase .gap) = .gap :=
        phaseNow_gap_iff.2 ⟨by simp [ht], rfl⟩
      refine ((h.setWork (w := .sendAll true) (by simp)).of_wireOnly (startPhase_wireOnly .gap _) rfl).clockInv
        (by simp [ht]) ?_ ?_ (fun _ => ⟨ht, hlast⟩)
      · simp [hi, hgap]
      · simp [hl, inHighPhase, hgap]
    · exact enterEntry_clockInv h _ hi
    · exact enterLatch_clockInv h hg hi
  · exact finish_clockInv h hi hl

/-- The event of the phase the block is in, if inhibited, is a high of `T0H_NS` (R33.5). -/
theorem ClockInv.eventOf_inhibitedOk {s : State} (h : ClockInv s) (hc : s.configured = true) :
    inhibitedOk s.params (s.eventOf (phaseNow s)) = true := by
  cases hi : s.irqInhibit
  · simp [inhibitedOk, State.eventOf, hi]
  · have ht0h := hi.symm.trans h.inhibitExact
    simp only [Bool.true_eq, Bool.and_eq_true, decide_eq_true_eq, beq_iff_eq] at ht0h
    obtain ⟨htop, hph⟩ := ht0h
    have hline : s.line = true := by simp [h.lineExact hc, inHighPhase, htop, hph]
    simp [inhibitedOk, State.eventOf, hline, hph, nominalNs]

/-- The end of the phase the block is in leaves it between two phases. -/
theorem ClockInv.endPhase_sending {s : State} (h : ClockInv s) (ht : s.seq.top ≠ .idle) :
    Sending (s.endPhase (phaseNow s)) := by
  obtain ⟨hb, hc, hw⟩ := h.movingBusy ht
  refine ⟨hb, hc, h.onePin hc, hw, ?_⟩
  simp only [State.endPhase_trace, State.endPhase_params, List.mem_append, List.mem_singleton]
  rintro e (he | rfl)
  · exact h.inhibited e he
  · exact h.eventOf_inhibitedOk hc

/-- The end of a bit's phase: the next phase of the pixel, or what follows the pixel. -/
theorem afterPhase_bit {s : State} (hl : phaseNow s ≠ .latch) (hg : phaseNow s ≠ .gap) :
    afterPhase s = if lastPosition s.seq then pixelDone (s.endPhase (phaseNow s)) else enterBit (s.endPhase (phaseNow s)) := by
  unfold afterPhase
  split
  · contradiction
  · contradiction
  · rfl

theorem Seq.next_of_last {q : Seq} (h : lastPosition q = true) : q.next = q := by
  simp only [lastPosition, decide_eq_true_eq] at h
  obtain ⟨hk, hb, hp⟩ := h
  simp [Seq.next, hk, hb, hp]

theorem Seq.next_of_hi {q : Seq} (h : q.ph = .hi) : q.next = { q with ph := .lo } := by
  simp [Seq.next, h]

theorem afterPhase_bit_clockInv {s : State} (h : ClockInv s) (ht : s.seq.top ≠ .idle) (hnl : phaseNow s ≠ .latch)
    (hng : phaseNow s ≠ .gap) : ClockInv (afterPhase s) := by
  have hlatching : s.seq.top ≠ .latching := mt phaseNow_latch_iff.2 hnl
  have htop : s.seq.top = .pixel := by cases hs : s.seq.top <;> simp_all
  have hwork : s.work ≠ some (.sendAll true) := fun hw => hng (phaseNow_gap_iff.2 ⟨hlatching, hw⟩)
  have hphase := phaseNow_pixel htop hwork
  have hseq : (s.endPhase (phaseNow s)).seq = s.seq.next := by simp [htop]
  have hsend := h.endPhase_sending ht
  rw [afterPhase_bit hnl hng]
  split_ifs with hlast
  · have hlo : s.seq.ph = .lo := (of_decide_eq_true hlast).2.2
    have hnot : phaseNow s ≠ .t0h ∧ phaseNow s ≠ .t1h := by
      rw [hphase, hlo]
      cases seqBit s <;> decide
    have hc := (h.movingBusy ht).2.1
    refine pixelDone_clockInv hsend (by simp [htop]) ?_ hwork ?_ ?_
    · rw [hseq, Seq.next_of_last hlast]
      exact hlast
    · simp [h.inhibitExact, hnot]
    · simp [h.lineExact hc, inHighPhase, hnot]
  · refine enterBit_clockInv hsend (by simp [htop]) hwork fun hi => ?_
    have hi' : s.irqInhibit = true := hi
    rw [h.inhibitExact, hphase] at hi'
    cases hp : s.seq.ph <;> cases hb : seqBit s <;> simp [hp, hb, bitPhaseOf] at hi'
    rw [← hb]
    exact seqBit_congr (by rw [hseq, Seq.next_of_hi hp]) (by rw [hseq, Seq.next_of_hi hp]) rfl

/-- The edge that ends a phase keeps the clocked invariant. -/
theorem afterPhase_clockInv {s : State} (h : ClockInv s) (ht : s.seq.top ≠ .idle) : ClockInv (afterPhase s) := by
  have hsend := h.endPhase_sending ht
  have hc := (h.movingBusy ht).2.1
  by_cases hl : phaseNow s = .latch
  · rw [hl] at hsend
    have e : afterPhase s = finish (s.endPhase .latch) := by unfold afterPhase; rw [hl]
    rw [e]
    exact finish_clockInv hsend (by simp [h.inhibitExact, hl]) (by simp [h.lineExact hc, inHighPhase, hl])
  by_cases hg : phaseNow s = .gap
  · rw [hg] at hsend
    have e : afterPhase s = enterEntry (s.seq.pix + 1) (s.endPhase .gap) := by unfold afterPhase; rw [hg]
    rw [e]
    exact enterEntry_clockInv hsend _ (by simp [h.inhibitExact, hg])
  exact afterPhase_bit_clockInv h ht hl hg

/-! ### One clock edge -/

/-- What a command that drives no phase does as it completes: the store's entries and the response, then idle. -/
theorem finishQuick_eq (i : Instr) (s : State) :
    ∃ m r q, (q = s.seq ∨ q = Seq.rest)
      ∧ finishQuick i s = ((((s.setStore m).respond r).goto q).setWork none).setBusy false := by
  unfold finishQuick
  split
  · next index c =>
    exact ⟨(storeSetAt (idxOperand s.params index) c s).store, s.rsp, s.seq, .inl rfl, by rw [storeSetAt_eq]; rfl⟩
  · next c => exact ⟨(storeSetAll c s).store, s.rsp, s.seq, .inl rfl, by rw [storeSetAll_eq]; rfl⟩
  · next index => exact ⟨s.store, some (getAtResponse (idxOperand s.params index) s), s.seq, .inl rfl, rfl⟩
  · exact ⟨s.store, s.rsp, Seq.rest, .inr rfl, rfl⟩

theorem finishQuick_clockInv {s : State} (h : ClockInv s) (i : Instr) (ht : s.seq.top = .idle) :
    ClockInv (finishQuick i s) := by
  obtain ⟨m, r, q, hq, e⟩ := finishQuick_eq i s
  have htop : q.top = .idle := by
    rcases hq with rfl | rfl
    · exact ht
    · rfl
  rw [e]
  exact .of_idle rfl rfl htop (by simp [h.inhibitExact, ht]) (fun hc => (h.lineExact hc).trans (by simp [inHighPhase, ht]))
    h.onePin h.storeConfigured h.inhibited

theorem phaseTick_clockInv {s : State} (h : ClockInv s) (ht : s.seq.top ≠ .idle) (p : Period) :
    ClockInv (phaseTick p s) := by
  unfold phaseTick
  simp only
  split
  · exact afterPhase_clockInv (h.setTimer _) ht
  · exact h.setTimer _

/-- A clock period of a busy block keeps the clocked invariant. -/
theorem busyTick_clockInv {s : State} (h : ClockInv s) (hb : s.busy = true) (p : Period) : ClockInv (busyTick p s) := by
  unfold busyTick
  split
  · next i hw =>
    have ht : s.seq.top = .idle := by
      by_contra hne
      obtain ⟨-, -, w, hw', hq⟩ := h.movingBusy hne
      exact hq i (Option.some.inj (hw'.symm.trans hw))
    split
    · exact h.respond none
    · exact finishQuick_clockInv (h.respond none) i ht
  · next hq =>
    refine phaseTick_clockInv (h.respond none) (fun hidle => ?_) p
    obtain ⟨i, hw⟩ := h.restingWork hidle hb
    exact hq i hw

/-- A command begun on an idle block: busy with `w`, between two phases. -/
theorem sending_of_accept {s : State} (h : ClockInv s) (hc : s.configured = true) {w : Work} (hw : ∀ i, w ≠ .quick i) :
    Sending (s.beginCommand.setWork (some w)) :=
  ⟨rfl, hc, h.onePin hc, ⟨w, rfl, hw⟩, h.inhibited⟩

/-- A command that drives no phase is accepted with the sequencer at rest (log entry 14). -/
theorem acceptQuick_clockInv {s : State} (h : ClockInv s) (ht : s.seq.top = .idle) (i : Instr) :
    ClockInv (s.beginCommand.setWork (some (.quick i))) where
  inhibitExact := by simp [h.inhibitExact, ht]
  lineExact hc := (h.lineExact hc).trans (by simp [inHighPhase, ht])
  movingBusy hne := absurd ht hne
  restingWork _ _ := ⟨i, rfl⟩
  idleWork hb := absurd hb (by simp)
  gapPlace hw := absurd hw (by simp)
  onePin := h.onePin
  storeConfigured := h.storeConfigured
  inhibited := h.inhibited

/-- INIT's line configuration on an accepted pin (R86 steps 2 to 4) leaves the block between two phases. -/
theorem initLine_sending {s : State} (h : ClockInv s) {pin : Byte} {n : Idx} (hp : pin.toNat < s.params.portW) {w : Work}
    (hw : ∀ i, w ≠ .quick i) : Sending ((initLine pin n s.beginCommand).setWork (some w)) :=
  ⟨rfl, rfl, by simpa [initLine] using (pinBit_fits hp).1, ⟨w, rfl, hw⟩, by simpa [initLine] using h.inhibited⟩

/-- Accepting a command keeps the clocked invariant. -/
theorem accept_clockInv {i : Instr} {s t : State} (h : ClockInv s) (hb : s.busy = false) (ha : accept i s = .next t) :
    ClockInv t := by
  have ht : s.seq.top = .idle := (h.idleWork hb).2
  have hi : s.irqInhibit = false := by simp [h.inhibitExact, ht]
  cases accepts_of_accept ha with
  | init hr => exact enterPixel_clockInv (initLine_sending h (initRefusal_none.1 hr).1 (by simp)) 0 (by simp) hi
  | send1 hc =>
    exact enterPixel_clockInv ((sending_of_accept h hc (w := .send1) (by simp)).recolour _) 0 (by simp) hi
  | latch hc => exact enterLatch_clockInv (sending_of_accept h hc (by simp)) (by simp) hi
  | sendAllEmpty hbuf => exact enterLatch_clockInv (sending_of_accept h (h.storeConfigured hbuf) (by simp)) (by simp) hi
  | sendAll hbuf =>
    exact enterEntry_clockInv (sending_of_accept h (h.storeConfigured hbuf) (w := .sendAll false) (by simp)) 0 hi
  | quick => exact acceptQuick_clockInv h ht _

/-- The reset state meets the clocked invariant, whatever it came from. -/
theorem warmReset_clockInv (s : State) : ClockInv s.warmReset :=
  .of_idle rfl rfl rfl rfl (by simp) (by simp) (by simp) (by simp)

/-- Settles O42: a reset edge leaves an idle block, a busy block ends a phase and enters the next with the inhibit and the line of
the new one, an idle block accepts. -/
theorem clockEdgeKeepsInv : Obligations.ClockEdgeKeepsInv := by
  unfold Obligations.ClockEdgeKeepsInv
  intro inp s t h ht
  unfold tick at ht
  split_ifs at ht with hr hb hv
  · cases ht
    exact warmReset_clockInv s
  · cases ht
    exact busyTick_clockInv h hb _
  · split at ht
    · exact accept_clockInv (h.respond none) (by simpa using hb) ht
    · cases ht
      exact h.respond none
  · cases ht
    exact h.respond none

/-- Settles O43: an idle block with the inhibit released and the line low. -/
theorem invIsClockInv : Obligations.InvIsClockInv := by
  unfold Obligations.InvIsClockInv
  intro s h
  exact .of_idle h.idle h.noWork (by rw [h.atRest]; rfl) h.notInhibited h.lineLow h.onePin h.storeConfigured h.inhibited

end Sys2Proof.Machine
end

section
/-! PROOFS. The block clock period by clock period comes to what `exec` gives (R16, R19, R66, R105, R114, R136). -/

namespace Sys2Proof.Machine

/-! ### The command in progress is seen at the end of a command only -/

theorem sendPixel_setWork (w : Option Work) (pix : Idx) (s : State) :
    sendPixel pix (s.setWork w) = (sendPixel pix s).setWork w := (setWork_unseen w).sendPixel pix s

theorem latchSeq_setWork (w : Option Work) (s : State) : latchSeq (s.setWork w) = (latchSeq s).setWork w :=
  (setWork_unseen w).latchSeq s

/-- INIT ends with its store step (R86 step 6). -/
theorem finish_init {s : State} (h : s.work = none) (count : Idx) (buffered : Bool) (old : Idx) :
    finish (s.setWork (some (.init count buffered old))) = State.endCommand (initStore count buffered old s) := by
  have hw : (initStore count buffered old s).work = none := by rw [initStore_eq]; exact h
  rw [← setWork_self hw, initStore_eq]
  unfold finish
  simp only [State.setWork_work, initStore_eq]
  rfl

/-- Any other command ends as it is. -/
theorem finish_of_not_init {s : State} (h : s.work = none) {w : Work} (hw : ∀ n b old, w ≠ .init n b old) :
    finish (s.setWork (some w)) = State.endCommand s := by
  unfold finish
  split
  · next n b old hi => exact absurd (Option.some.inj hi) (hw n b old)
  · show State.endCommand (s.setWork none) = _
    rw [setWork_self h]

/-! ### From an accepted command to its end -/

theorem beginCommand_inPhase (s : State) {w : Work} (hw : ∀ i, w ≠ .quick i) :
    InPhase (s.beginCommand.setWork (some w)) :=
  ⟨rfl, fun i h => hw i (Option.some.inj h), rfl⟩

theorem initLine_inPhase (pin : Byte) (n : Idx) (s : State) {w : Work} (hw : ∀ i, w ≠ .quick i) :
    InPhase ((initLine pin n s.beginCommand).setWork (some w)) :=
  ⟨rfl, fun i h => hw i (Option.some.inj h), rfl⟩

theorem init_reaches {s : State} (h : s.work = none) (pin : Byte) (n : Idx) (buffered : Bool) :
    Reaches (enterPixel 0 ((initLine pin n s.beginCommand).setWork (some (.init n buffered s.count))))
      (State.endCommand (initStore n buffered s.count (latchSeq (sendPixel 0 (initLine pin n s.beginCommand))))) := by
  have p := initLine_inPhase pin n s (w := .init n buffered s.count) (by simp)
  have w := initPulse_wireOnly pin n s.beginCommand
  have pixel := pixel_reaches 0 _ p (by simp)
  have latch := latch_reaches _ ((sendPixel_wireOnly 0 _).inPhase p)
  rw [sendPixel_setWork] at pixel latch
  rw [latchSeq_setWork, finish_init (w.work.trans h)] at latch
  exact pixel.trans latch

theorem send1_reaches {s : State} (h : s.work = none) (c : Colour) :
    Reaches (enterPixel 0 ((s.beginCommand.setColour c).setWork (some .send1)))
      (State.endCommand (sendPixel 0 (s.beginCommand.setColour c))) := by
  have p : InPhase ((s.beginCommand.setColour c).setWork (some .send1)) := ⟨rfl, by simp, rfl⟩
  have pixel := pixel_reaches 0 _ p (by simp)
  rw [sendPixel_setWork] at pixel
  refine pixel.trans ?_
  have w := sendPixel_wireOnly 0 (s.beginCommand.setColour c)
  show Reaches (finish ((sendPixel 0 (s.beginCommand.setColour c)).setWork (some .send1))) _
  rw [finish_of_not_init (w.work.trans h) (by simp)]
  exact .refl _

/-- From the start of the latch that ends a LATCH or a SENDALL to the end of the command. -/
theorem lastLatch_reaches {s : State} {w : Work} (hp : InPhase (s.setWork (some w))) (h : s.work = none)
    (hw : ∀ n b old, w ≠ .init n b old) :
    Reaches (enterLatch (s.setWork (some w))) (State.endCommand (latchSeq s)) := by
  have latch := latch_reaches _ hp
  rwa [latchSeq_setWork, finish_of_not_init ((latchSeq_wireOnly s).work.trans h) hw] at latch

/-- Where the sequencer is after a SENDALL's walk: at the last position of the last pixel (R16). -/
theorem sendEntries_seq (n : Nat) (s : State) : (sendEntries (n + 1) s).seq = ⟨.pixel, BitVec.ofNat 16 n, 2, 0, .lo⟩ := by
  rw [sendEntries_succ]
  exact sendPixel_seq _ _

theorem sendAll_reaches {s : State} (h : s.work = none) (hn : s.count ≠ 0) :
    Reaches (enterEntry 0 s.beginCommand)
      (State.endCommand (latchSeq (sendEntries s.count.toNat s.beginCommand))) := by
  have p := beginCommand_inPhase s (w := .sendAll false) (by simp)
  obtain ⟨k, hk⟩ : ∃ k, s.count.toNat = k + 1 :=
    Nat.exists_eq_succ_of_ne_zero (fun h0 => hn (BitVec.eq_of_toNat_eq (by simpa using h0)))
  have walk := entries_reaches k _ p rfl (show k < s.count.toNat by omega)
  have frame := sendEntries_wireOnly (k + 1) s.beginCommand
  rw [sendEntries_setWork] at walk
  rw [hk]
  refine Reaches.trans walk ?_
  have hlast : (sendEntries (k + 1) s.beginCommand).seq.pix.toNat = k := by
    have := s.count.isLt
    rw [sendEntries_seq]
    simp only [BitVec.toNat_ofNat]
    omega
  have hcount : (sendEntries (k + 1) s.beginCommand).count = s.count := frame.count
  have hdone : pixelDone ((sendEntries (k + 1) s.beginCommand).setWork (some (.sendAll false))) =
      enterLatch ((sendEntries (k + 1) s.beginCommand).setWork (some (.sendAll false))) := by
    unfold pixelDone
    simp only [State.setWork_work, State.setWork_seq, State.setWork_count, hlast, hcount, hk]
    rw [if_neg (by omega)]
  rw [hdone]
  have p' : InPhase ((sendEntries (k + 1) s.beginCommand).setWork (some (.sendAll false))) :=
    ⟨frame.busy, by simp, frame.rsp⟩
  exact lastLatch_reaches p' (frame.work.trans h) (by simp)

/-- A command that drives no phase is made at the end of one clock period (log entry 17). -/
theorem quick_reaches (i : Instr) (s : State) :
    Reaches (s.beginCommand.setWork (some (.quick i))) (finishQuick i (s.beginCommand.setWork (some (.quick i)))) :=
  .step rfl rfl

/-- What a command that drives no phase comes to is what `exec` gives. -/
theorem finishQuick_completes {i : Instr} {s : State} (h : s.work = none) (hq : drivesNoPhase s i = true) :
    Completes s i (finishQuick i (s.beginCommand.setWork (some (.quick i)))) := by
  have hw : s.beginCommand.setWork none = s.beginCommand := setWork_self h
  cases i with
  | setAt index c =>
    have e : finishQuick (.setAt index c) (s.beginCommand.setWork (some (.quick (.setAt index c)))) =
        (storeSetAt (idxOperand s.params index) c (s.beginCommand.setWork none)).setBusy false := by
      unfold finishQuick
      simp only [storeSetAt_eq]
      rfl
    rw [e, hw]
    exact .setAt
  | setAll c =>
    have e : finishQuick (.setAll c) (s.beginCommand.setWork (some (.quick (.setAll c)))) =
        (storeSetAll c (s.beginCommand.setWork none)).setBusy false := by
      unfold finishQuick
      simp only [storeSetAll_eq]
      rfl
    rw [e, hw]
    exact .setAll
  | sendAll =>
    have e : finishQuick .sendAll (s.beginCommand.setWork (some (.quick .sendAll))) =
        State.endCommand (s.beginCommand.setWork none) := rfl
    rw [e, hw]
    exact .sendAllIgnored (by simpa [drivesNoPhase] using hq)
  | getAt index =>
    have e : finishQuick (.getAt index) (s.beginCommand.setWork (some (.quick (.getAt index)))) =
        ((s.beginCommand.setWork none).respond (some (getAtResponse (idxOperand s.params index) s))).setBusy false := rfl
    rw [e, hw]
    exact .getAt
  | init => cases hq
  | send1 => cases hq
  | latch => cases hq

/-- An accepted command comes to the state in which it completes. -/
theorem Accepts.reaches {i : Instr} {s a : State} (h : s.work = none) (ha : Accepts s i a) :
    ∃ t, Completes s i t ∧ Reaches a t := by
  cases ha with
  | init hr => exact ⟨_, .init hr, init_reaches h _ _ _⟩
  | send1 hc => exact ⟨_, .send1 hc, send1_reaches h _⟩
  | latch hc => exact ⟨_, .latch hc, lastLatch_reaches (beginCommand_inPhase s (by simp)) h (by simp)⟩
  | sendAllEmpty hb hz =>
    refine ⟨_, .sendAll hb, ?_⟩
    rw [hz]
    exact lastLatch_reaches (beginCommand_inPhase s (w := .sendAll false) (by simp)) h (by simp)
  | sendAll hb hn => exact ⟨_, .sendAll hb, sendAll_reaches h hn⟩
  | quick hq => exact ⟨_, finishQuick_completes h hq, quick_reaches i s⟩

theorem Accepts.busy {i : Instr} {s a : State} (ha : Accepts s i a) : a.busy = true := by
  cases ha with
  | init => exact (enterPixel_wireOnly 0 _).busy
  | send1 => exact (enterPixel_wireOnly 0 _).busy
  | latch => rfl
  | sendAllEmpty => rfl
  | sendAll => exact (enterPixel_wireOnly 0 _).busy
  | quick => rfl

/-- A command that completes is accepted. -/
theorem Completes.accepts {i : Instr} {s t : State} (h : Completes s i t) : ∃ a, Accepts s i a := by
  cases h with
  | init hr => exact ⟨_, .init hr⟩
  | send1 hc => exact ⟨_, .send1 hc⟩
  | latch hc => exact ⟨_, .latch hc⟩
  | sendAll hb =>
    by_cases hz : s.count = 0
    · exact ⟨_, .sendAllEmpty hb hz⟩
    · exact ⟨_, .sendAll hb hz⟩
  | sendAllIgnored hb => exact ⟨_, .quick (by simp [drivesNoPhase, hb])⟩
  | setAt => exact ⟨_, .quick rfl⟩
  | setAll => exact ⟨_, .quick rfl⟩
  | getAt => exact ⟨_, .quick rfl⟩

/-- The clocked block refuses what `exec` refuses, by the same reason (U1, U3, U4). -/
theorem exec_refused_iff {i : Instr} {s : State} {r : Refusal} : exec i s = .refused r ↔ accept i s = .refused r := by
  cases i with
  | init pin count buffered =>
    simp only [exec, execInit, accept]
    cases initRefusal pin (idxOperand s.params count) buffered s <;> simp
  | send1 c => cases hc : s.configured <;> simp [exec, execSend1, accept, hc]
  | latch => cases hc : s.configured <;> simp [exec, execLatch, accept, hc]
  | sendAll =>
    simp only [exec, execSendAll, accept]
    split_ifs <;> simp
  | setAt => simp [exec, execSetAt, accept]
  | setAll => simp [exec, execSetAll, accept]
  | getAt => simp [exec, execGetAt, accept]

/-- Settles O41: what completes is accepted, and what is accepted runs to the state in which it completes. -/
theorem clockedRunIsExec : Obligations.ClockedRunIsExec := by
  unfold Obligations.ClockedRunIsExec
  intro i s h
  refine ⟨fun t ht => ?_, fun r => exec_refused_iff⟩
  obtain ⟨a, ha⟩ := (completes_of_exec ht).accepts
  obtain ⟨u, hu, n, hn⟩ := ha.reaches h.noWork
  have htu : t = u := Host.Outcome.next.inj (ht.symm.trans (exec_of_completes hu))
  exact ⟨a, n, accept_of_accepts ha, ha.busy, hn.trans htu.symm⟩

end Sys2Proof.Machine
end

section
/-! PROOFS. What the clocked block keeps as it runs, and the port's registers inside their width (R22, R23, R33.6). -/

namespace Sys2Proof.Machine

/-! ### A register inside the port's width -/

/-- A port register fits if its bits from `PORT_W` up are 0. -/
theorem portFits_iff {p : Params} {v : PortBits} : portFits p v = true ↔ ∀ i, p.portW ≤ i → v.getLsbD i = false := by
  simp only [portFits, decide_eq_true_eq, BitVec.getLsbD]
  exact ⟨fun h i hi => Nat.testBit_lt_two_pow (h.trans_le (Nat.pow_le_pow_right (by omega) hi)),
    fun h => Nat.lt_pow_two_of_testBit _ h⟩

theorem portFits_or {p : Params} {v w : PortBits} (hv : portFits p v = true) (hw : portFits p w = true) :
    portFits p (v ||| w) = true :=
  portFits_iff.2 fun i hi => by simp [portFits_iff.1 hv i hi, portFits_iff.1 hw i hi]

theorem portFits_of_oneBit {p : Params} {m : PortBits} (h : oneBit p m = true) : portFits p m = true := by
  obtain ⟨pin, hpin, rfl⟩ := exists_pin_of_oneBit h
  exact (pinBit_fits hpin).2

/-- A register that changed only under a mask that fits still fits. -/
theorem portFits_of_outside {p : Params} {v w m : PortBits} (h : w &&& ~~~m = v &&& ~~~m) (hv : portFits p v = true)
    (hm : portFits p m = true) : portFits p w = true :=
  portFits_iff.2 fun i hi => by
    have hbit := congrArg (fun x : PortBits => x.getLsbD i) h
    simp only [BitVec.getLsbD_and, BitVec.getLsbD_not, portFits_iff.1 hv i hi, portFits_iff.1 hm i hi] at hbit
    by_cases hlt : i < 256
    · simpa [hlt] using hbit
    · exact BitVec.getLsbD_of_ge _ _ (by omega)

/-! ### The frame of a clock period -/

/-- Between `s` and `t` the block ran without accepting a command: the host's events to come, the line's configuration and the port
outside PINMASK are as they were. -/
structure RunKeeps (s t : State) : Prop where
  params : t.params = s.params
  host : t.host = s.host
  configured : t.configured = s.configured
  pinMask : t.pinMask = s.pinMask
  portDir : t.portDir = s.portDir
  outside : t.portOut &&& ~~~s.pinMask = s.portOut &&& ~~~s.pinMask

theorem RunKeeps.refl (s : State) : RunKeeps s s := ⟨rfl, rfl, rfl, rfl, rfl, rfl⟩

theorem RunKeeps.trans {s t u : State} (h : RunKeeps s t) (h' : RunKeeps t u) : RunKeeps s u :=
  ⟨h'.params.trans h.params, h'.host.trans h.host, h'.configured.trans h.configured, h'.pinMask.trans h.pinMask,
    h'.portDir.trans h.portDir, (h.pinMask ▸ h'.outside).trans h.outside⟩

theorem WireOnly.runKeeps {s t : State} (w : WireOnly s t) : RunKeeps s t :=
  ⟨w.params, w.host, w.configured, w.pinMask, w.portDir, w.outside⟩

theorem endPhase_runKeeps (ph : Phase) (s : State) : RunKeeps s (s.endPhase ph) := ⟨rfl, rfl, rfl, rfl, rfl, rfl⟩

theorem respond_runKeeps (r : Option RspWord) (s : State) : RunKeeps s (s.respond r) := ⟨rfl, rfl, rfl, rfl, rfl, rfl⟩

theorem setWork_runKeeps (w : Option Work) (s : State) : RunKeeps s (s.setWork w) := ⟨rfl, rfl, rfl, rfl, rfl, rfl⟩

theorem setColour_runKeeps (c : Colour) (s : State) : RunKeeps s (s.setColour c) := ⟨rfl, rfl, rfl, rfl, rfl, rfl⟩

theorem beginCommand_runKeeps (s : State) : RunKeeps s s.beginCommand := ⟨rfl, rfl, rfl, rfl, rfl, rfl⟩

theorem enterEntry_runKeeps (i : Idx) (s : State) : RunKeeps s (enterEntry i s) :=
  ((setWork_runKeeps _ s).trans (setColour_runKeeps _ _)).trans (enterPixel_wireOnly i _).runKeeps

theorem finish_runKeeps (s : State) : RunKeeps s (finish s) := by
  obtain ⟨m, b, e⟩ := finish_eq s
  rw [e]
  exact ⟨rfl, rfl, rfl, rfl, rfl, rfl⟩

theorem pixelDone_runKeeps (s : State) : RunKeeps s (pixelDone s) := by
  unfold pixelDone
  split
  · exact (enterLatch_wireOnly s).runKeeps
  · split_ifs
    · exact ⟨rfl, rfl, rfl, rfl, rfl, rfl⟩
    · exact enterEntry_runKeeps _ s
    · exact (enterLatch_wireOnly s).runKeeps
  · exact finish_runKeeps s

theorem afterPhase_runKeeps (s : State) : RunKeeps s (afterPhase s) := by
  unfold afterPhase
  split
  · exact (endPhase_runKeeps _ s).trans (finish_runKeeps _)
  · exact (endPhase_runKeeps _ s).trans (enterEntry_runKeeps _ _)
  · split_ifs
    · exact (endPhase_runKeeps _ s).trans (pixelDone_runKeeps _)
    · exact (endPhase_runKeeps _ s).trans (enterBit_wireOnly _).runKeeps

theorem phaseTick_runKeeps (p : Period) (s : State) : RunKeeps s (phaseTick p s) := by
  have timed : ∀ t : Timer, RunKeeps s (s.setTimer t) := fun t => ⟨rfl, rfl, rfl, rfl, rfl, rfl⟩
  unfold phaseTick
  simp only
  split
  · exact (timed _).trans (afterPhase_runKeeps _)
  · exact timed _

/-- A command that drives no phase moves no bit of the port at all. -/
theorem busyTick_quick {s : State} {i : Instr} (hw : s.work = some (.quick i)) (p : Period) :
    RunKeeps s (busyTick p s) ∧ (busyTick p s).portOut = s.portOut := by
  obtain ⟨m, r, q, -, e⟩ := finishQuick_eq i (s.respond none)
  unfold busyTick
  rw [hw]
  simp only [e]
  split
  · exact ⟨⟨rfl, rfl, rfl, rfl, rfl, rfl⟩, rfl⟩
  · exact ⟨⟨rfl, rfl, rfl, rfl, rfl, rfl⟩, rfl⟩

theorem busyTick_runKeeps (p : Period) (s : State) : RunKeeps s (busyTick p s) := by
  by_cases hq : ∃ i, s.work = some (.quick i)
  · obtain ⟨i, hw⟩ := hq
    exact (busyTick_quick hw p).1
  · unfold busyTick
    split
    · next i hw => exact absurd ⟨i, hw⟩ hq
    · exact (respond_runKeeps none s).trans (phaseTick_runKeeps p _)

/-- A step of a busy block is one clock period, after what the environment does in it was taken from the state's list. -/
theorem busyStep_eq (s : State) : ∃ p ps, busyStep s = busyTick p (s.setClock ps) := by
  unfold busyStep
  split
  · exact ⟨_, s.clock, rfl⟩
  · unfold takePeriod
    split
    · exact ⟨_, s.clock, rfl⟩
    · next p ps _ => exact ⟨p, ps, rfl⟩

/-! ### A running block's soundness -/

/-- A running block: the clocked invariant, and the port's registers inside their width. -/
structure RunSound (s : State) : Prop where
  clock : ClockInv s
  outFits : portFits s.params s.portOut = true
  dirFits : portFits s.params s.portDir = true

theorem RunSound.busyTick {s : State} (h : RunSound s) (hb : s.busy = true) (p : Period) :
    RunSound (Machine.busyTick p s) := by
  have keeps := busyTick_runKeeps p s
  refine ⟨busyTick_clockInv h.clock hb p, ?_, by rw [keeps.params, keeps.portDir]; exact h.dirFits⟩
  rw [keeps.params]
  by_cases hc : s.configured = true
  · exact portFits_of_outside keeps.outside h.outFits (portFits_of_oneBit (h.clock.onePin hc))
  · have ht : s.seq.top = .idle := by
      by_contra hne
      exact hc (h.clock.movingBusy hne).2.1
    obtain ⟨i, hw⟩ := h.clock.restingWork ht hb
    rw [(busyTick_quick hw p).2]
    exact h.outFits

theorem RunSound.busyStep {s : State} (h : RunSound s) (hb : s.busy = true) : RunSound (Machine.busyStep s) := by
  obtain ⟨p, ps, e⟩ := busyStep_eq s
  rw [e]
  have h' : RunSound (s.setClock ps) := ⟨h.clock.setClock ps, h.outFits, h.dirFits⟩
  exact h'.busyTick hb p

theorem RunSound.busyRun {s : State} (h : RunSound s) (n : Nat) : RunSound (Machine.busyRun n s) := by
  induction n generalizing s with
  | zero => exact h
  | succ n ih =>
    rw [Machine.busyRun]
    split_ifs with hb
    · exact ih (h.busyStep hb)
    · exact h

/-- A block that accepts a command is sound inside it. -/
theorem RunSound.accept {i : Instr} {s a : State} (h : RunSound s) (hb : s.busy = false)
    (ha : Machine.accept i s = .next a) : RunSound a := by
  have clock := accept_clockInv h.clock hb ha
  have same : RunKeeps s a → s.configured = true → RunSound a := fun k hc =>
    ⟨clock, k.params ▸ portFits_of_outside k.outside h.outFits (portFits_of_oneBit (h.clock.onePin hc)),
      by rw [k.params, k.portDir]; exact h.dirFits⟩
  cases accepts_of_accept ha with
  | @init pin count buffered hr =>
    have fits := (pinBit_fits (initRefusal_none.1 hr).1).2
    have w := enterPixel_wireOnly 0 ((initLine pin (idxOperand s.params count) s.beginCommand).setWork
      (some (.init (idxOperand s.params count) buffered s.count)))
    exact ⟨clock, by rw [w.params]; exact portFits_of_outside w.outside h.outFits fits,
      by rw [w.params, w.portDir]; exact portFits_or h.dirFits fits⟩
  | @send1 c hc =>
    have start := ((beginCommand_runKeeps s).trans (setColour_runKeeps c _)).trans (setWork_runKeeps (some .send1) _)
    exact same (start.trans (enterPixel_wireOnly 0 _).runKeeps) hc
  | latch hc =>
    have start := (beginCommand_runKeeps s).trans (setWork_runKeeps (some .latch) _)
    exact same (start.trans (enterLatch_wireOnly _).runKeeps) hc
  | sendAllEmpty hbuf =>
    have start := (beginCommand_runKeeps s).trans (setWork_runKeeps (some (.sendAll false)) _)
    exact same (start.trans (enterLatch_wireOnly _).runKeeps) (h.clock.storeConfigured hbuf)
  | sendAll hbuf =>
    exact same ((beginCommand_runKeeps s).trans (enterEntry_runKeeps 0 _)) (h.clock.storeConfigured hbuf)
  | quick => exact ⟨clock, h.outFits, h.dirFits⟩

/-- A reset of a sound block, running or idle, leaves the invariant (R120, R122). -/
theorem RunSound.warmReset {s : State} (h : RunSound s) : Inv s.warmReset := by
  have out : portFits s.params s.warmReset.portOut = true := by
    rw [State.warmReset_portOut]
    split_ifs with ht
    · exact h.outFits
    · have hc := (h.clock.movingBusy ht).2.1
      exact portFits_of_outside (s.drive_outside _) h.outFits (portFits_of_oneBit (h.clock.onePin hc))
  refine ⟨rfl, rfl, rfl, rfl, rfl, ?_, rfl, rfl, fun _ => rfl, ?_, out, h.dirFits, ?_, ?_, ?_, ?_, rfl⟩
  all_goals simp

theorem Inv.runSound {s : State} (h : Inv s) : RunSound s := ⟨invIsClockInv s h, h.outFits, h.dirFits⟩

end Sys2Proof.Machine
end

section
/-! PROOFS. Every step keeps the invariant between commands (R33). -/

namespace Sys2Proof.Machine

/-! ### What `Inv` does not look at -/

theorem Inv.setHost {s : State} (h : Inv s) (es : List HostEvent) : Inv (s.setHost es) :=
  ⟨h.idle, h.noWork, h.notInhibited, h.atRest, h.timerRest, h.storeConfigured, h.storeWithin, h.storeWf, h.storeAbsent,
    h.onePin, h.outFits, h.dirFits, h.countFits, h.pinIsOutput, h.lineLow, h.inhibited, h.realised⟩

theorem Inv.respond {s : State} (h : Inv s) (r : Option RspWord) : Inv (s.respond r) :=
  ⟨h.idle, h.noWork, h.notInhibited, h.atRest, h.timerRest, h.storeConfigured, h.storeWithin, h.storeWf, h.storeAbsent,
    h.onePin, h.outFits, h.dirFits, h.countFits, h.pinIsOutput, h.lineLow, h.inhibited, h.realised⟩

/-! ### The store's side -/

/-- The clauses of the invariant on the store (R28, R33.1, R25, log entry 10). -/
structure StoreSound (s : State) : Prop where
  within : s.store.within s.count.toNat = true
  wf : s.store.wf = true
  absent : s.buffered = false → s.store = []
  countFits : s.count.toNat < 2 ^ s.params.idxW

theorem Inv.storeSound {s : State} (h : Inv s) : StoreSound s := ⟨h.storeWithin, h.storeWf, h.storeAbsent, h.countFits⟩

theorem StoreSound.of_wireOnly {s t : State} (h : StoreSound s) (w : WireOnly s t) : StoreSound t :=
  ⟨by rw [w.store, w.count]; exact h.within, by rw [w.store]; exact h.wf, by rw [w.buffered, w.store]; exact h.absent,
    by rw [w.count, w.params]; exact h.countFits⟩

theorem Inv.beginCommand_storeSound {s : State} (h : Inv s) : StoreSound s.beginCommand :=
  ⟨h.storeWithin, h.storeWf, h.storeAbsent, h.countFits⟩

theorem storeSound_setColour {s : State} {c : Colour} : StoreSound (s.setColour c) ↔ StoreSound s :=
  ⟨fun h => ⟨h.within, h.wf, h.absent, h.countFits⟩, fun h => ⟨h.within, h.wf, h.absent, h.countFits⟩⟩

theorem StoreSound.storeSetAt {s : State} (h : StoreSound s) (index : Idx) (c : Colour) :
    StoreSound (Machine.storeSetAt index c s) := by
  unfold Machine.storeSetAt
  split_ifs with hi
  · obtain ⟨hb, hlt⟩ : s.buffered = true ∧ index < s.count := by simpa [State.holdsIndex] using hi
    exact ⟨Memory.write_within h.within hlt c, Memory.write_wf h.wf _ _, fun hb' => absurd (hb.symm.trans hb') (by decide),
      h.countFits⟩
  · exact h

theorem StoreSound.storeSetAll {s : State} (h : StoreSound s) (c : Colour) : StoreSound (Machine.storeSetAll c s) := by
  unfold Machine.storeSetAll
  split_ifs with hb
  · exact ⟨Memory.fill_within h.within c _ le_rfl, Memory.fill_wf h.wf _ _, fun hb' => absurd (hb.symm.trans hb') (by decide),
      h.countFits⟩
  · exact h

/-- INIT's store step, after COUNT was set: a store that is kept has the count it was allocated with (R43). -/
theorem StoreSound.initStore {s t : State} (h : StoreSound s) (hs : t.store = s.store) {count : Idx} (ht : t.count = count)
    (hn : count.toNat < 2 ^ t.params.idxW) (buffered : Bool) :
    StoreSound (Machine.initStore count buffered s.count t) := by
  rw [initStore_eq]
  by_cases hk : buffered = true ∧ t.buffered = true ∧ s.count = count ∧ t.params.reinitClears = false
  · rw [if_pos hk]
    obtain ⟨rfl, -, hc, -⟩ := hk
    refine ⟨?_, ?_, by simp, by simpa [ht] using hn⟩
    · simpa [hs, ht, ← hc] using h.within
    · simpa [hs] using h.wf
  · rw [if_neg hk]
    exact ⟨rfl, rfl, fun _ => rfl, by simpa [ht] using hn⟩

/-! ### The line's side -/

/-- The clauses of the invariant on the line and the traces, of a configured block that may begin a transmission. -/
structure LineSound (s : State) : Prop where
  configured : s.configured = true
  notInhibited : s.irqInhibit = false
  timerRest : s.timer = Timer.rest
  onePin : oneBit s.params s.pinMask = true
  outFits : portFits s.params s.portOut = true
  dirFits : portFits s.params s.portDir = true
  pinIsOutput : s.portDir &&& s.pinMask = s.pinMask
  inhibited : ∀ e ∈ s.trace, inhibitedOk s.params e = true
  realised : tracesAgree s.params s.trace s.wire = true

theorem InStep.tracesAgree {s t : State} (h : InStep s t) (hs : Machine.tracesAgree s.params s.trace s.wire = true) :
    Machine.tracesAgree s.params t.trace t.wire = true := by
  obtain ⟨es, us, ht, hw, hag⟩ := h
  rw [ht, hw]
  exact tracesAgree_append hs hag

/-- A piece of a transmission that appends events R33.5 allows. -/
theorem LineSound.of_sent {s t : State} {es : List Event} (h : LineSound s) (w : WireOnly s t)
    (hi : t.irqInhibit = false) (ht : t.timer = Timer.rest) (hk : InStep s t) (htr : t.trace = s.trace ++ es)
    (hes : ∀ e ∈ es, inhibitedOk s.params e = true) : LineSound t where
  configured := w.configured.trans h.configured
  notInhibited := hi
  timerRest := ht
  onePin := by rw [w.params, w.pinMask]; exact h.onePin
  outFits := by rw [w.params]; exact portFits_of_outside w.outside h.outFits (portFits_of_oneBit h.onePin)
  dirFits := by rw [w.params, w.portDir]; exact h.dirFits
  pinIsOutput := by rw [w.portDir, w.pinMask]; exact h.pinIsOutput
  inhibited := by
    rw [w.params, htr]
    exact fun e he => (List.mem_append.1 he).elim (h.inhibited e) (hes e)
  realised := by rw [w.params]; exact hk.tracesAgree h.realised

theorem LineSound.setColour {s : State} (h : LineSound s) (c : Colour) : LineSound (s.setColour c) :=
  ⟨h.configured, h.notInhibited, h.timerRest, h.onePin, h.outFits, h.dirFits, h.pinIsOutput, h.inhibited, h.realised⟩

/-- The inhibited events of a colour are the highs of its 0-bits (R53). -/
theorem pixelEvents_inhibitedOk (p : Params) (c : Colour) : ∀ e ∈ pixelEvents p c, inhibitedOk p e = true := by
  intro e he
  obtain ⟨v, -, hv⟩ := List.mem_flatMap.1 he
  cases v
  · simp only [bitEvents, Bool.false_eq_true, if_false, List.mem_cons, List.not_mem_nil, or_false] at hv
    rcases hv with rfl | rfl <;> simp [inhibitedOk]
  · simp only [bitEvents, if_true, List.mem_cons, List.not_mem_nil, or_false] at hv
    rcases hv with rfl | rfl <;> rfl

theorem LineSound.sendPixel {s : State} (h : LineSound s) (pix : Idx) :
    LineSound (Machine.sendPixel pix s) ∧ (Machine.sendPixel pix s).line = false := by
  have sent := sendPixel_sends pix s (ne_zero_of_oneBit h.onePin) h.notInhibited
  obtain ⟨hk, ht, hi⟩ := sendPixel_inStep pix s h.notInhibited h.timerRest
  exact ⟨h.of_sent (sendPixel_wireOnly pix s) hi ht hk sent.trace (pixelEvents_inhibitedOk _ _), sent.lineLow⟩

theorem LineSound.latchSeq {s : State} (h : LineSound s) :
    LineSound (Machine.latchSeq s) ∧ (Machine.latchSeq s).line = false := by
  have sent := latchSeq_sends s (ne_zero_of_oneBit h.onePin) h.notInhibited
  obtain ⟨hk, ht, hi⟩ := latchSeq_inStep s h.notInhibited
  exact ⟨h.of_sent (latchSeq_wireOnly s) hi ht hk sent.trace (by simp [latchEvent, inhibitedOk]), sent.lineLow⟩

theorem LineSound.sendGap {s : State} (h : LineSound s) (i : Nat) : LineSound (Machine.sendGap i s) := by
  unfold Machine.sendGap
  split_ifs
  · exact h.of_sent (hold_wireOnly .gap s) h.notInhibited (hold_timer_rest .gap s h.notInhibited)
      (hold_inStep .gap s (h.notInhibited.trans (by decide))) (State.hold_trace s .gap)
      (by simp [State.eventOf, inhibitedOk, h.notInhibited])
  · exact h

theorem LineSound.sendEntries {s : State} (h : LineSound s) (n : Nat) : LineSound (Machine.sendEntries n s) := by
  induction n with
  | zero => exact h
  | succ n ih =>
    rw [sendEntries_succ]
    exact (((ih.sendGap n).setColour _).sendPixel (BitVec.ofNat 16 n)).1

theorem Inv.lineSound {s : State} (h : Inv s) (hc : s.configured = true) : LineSound s.beginCommand :=
  ⟨hc, h.notInhibited, h.timerRest, h.onePin hc, h.outFits, h.dirFits, h.pinIsOutput hc, h.inhibited, h.realised⟩

/-- INIT's line configuration on a pin of the port (R86 steps 2 to 4). -/
theorem Inv.initLine {s : State} (h : Inv s) {pin : Byte} (hp : pin.toNat < s.params.portW) (n : Idx) :
    LineSound (Machine.initLine pin n s.beginCommand) where
  configured := rfl
  notInhibited := h.notInhibited
  timerRest := h.timerRest
  onePin := by simpa [Machine.initLine] using (pinBit_fits hp).1
  outFits := by simpa [Machine.initLine] using h.outFits
  dirFits := by simpa [Machine.initLine] using portFits_or h.dirFits (pinBit_fits hp).2
  pinIsOutput := by
    show (s.portDir ||| pinBit pin) &&& pinBit pin = pinBit pin
    ext i hi
    cases hbit : (pinBit pin)[i] <;> simp [hbit]
  inhibited := by simpa [Machine.initLine] using h.inhibited
  realised := by simpa [Machine.initLine] using h.realised

/-! ### The end of a command -/

/-- A transmission that ends with the line low leaves the invariant. -/
theorem LineSound.inv_endCommand {s : State} (h : LineSound s) (hl : s.line = false) (hst : StoreSound s)
    (hw : s.work = none) : Inv (State.endCommand s) :=
  ⟨rfl, hw, h.notInhibited, rfl, h.timerRest, fun _ => h.configured, hst.within, hst.wf, hst.absent, fun _ => h.onePin,
    h.outFits, h.dirFits, hst.countFits, fun _ => h.pinIsOutput, fun _ => hl, h.inhibited, h.realised⟩

/-- The line's side does not see INIT's store step. -/
theorem LineSound.initStore {s : State} (h : LineSound s) (n : Idx) (b : Bool) (old : Idx) :
    LineSound (Machine.initStore n b old s) := by
  rw [initStore_eq]
  exact ⟨h.configured, h.notInhibited, h.timerRest, h.onePin, h.outFits, h.dirFits, h.pinIsOutput, h.inhibited, h.realised⟩

theorem Inv.setStore {s : State} (h : Inv s) {m : Memory} (hm : StoreSound (s.setStore m)) : Inv (s.setStore m) :=
  ⟨h.idle, h.noWork, h.notInhibited, h.atRest, h.timerRest, h.storeConfigured, hm.within, hm.wf, hm.absent, h.onePin,
    h.outFits, h.dirFits, hm.countFits, h.pinIsOutput, h.lineLow, h.inhibited, h.realised⟩

theorem setBusy_self {s : State} {v : Bool} (h : s.busy = v) : s.setBusy v = s := by
  subst h
  rfl

/-- A command that writes the store and the response alone leaves the invariant. -/
theorem Inv.of_quick {s : State} (h : Inv s) {m : Memory} (hm : StoreSound (s.setStore m)) (r : Option RspWord) :
    Inv (((s.beginCommand.setStore m).respond r).setBusy false) := by
  have e : ((s.beginCommand.setStore m).respond r).setBusy false = (s.setStore m).respond r :=
    setBusy_self (s := (s.setStore m).respond r) h.idle
  rw [e]
  exact (h.setStore hm).respond r

theorem goto_self {s : State} {q : Seq} (h : s.seq = q) : s.goto q = s := by
  subst h
  rfl

/-- An accepted INIT leaves the invariant (R86). -/
theorem Inv.init {s : State} (h : Inv s) {pin : Byte} (hp : pin.toNat < s.params.portW) {n : Idx}
    (hn : n.toNat < 2 ^ s.params.idxW) (buffered : Bool) :
    Inv (State.endCommand (Machine.initStore n buffered s.count
      (Machine.latchSeq (Machine.sendPixel 0 (Machine.initLine pin n s.beginCommand))))) := by
  obtain ⟨latched, low⟩ := ((h.initLine hp n).sendPixel 0).1.latchSeq
  have w := initPulse_wireOnly pin n s.beginCommand
  refine (latched.initStore n buffered s.count).inv_endCommand ?_ ?_ ?_
  · rw [initStore_eq]
    exact low
  · exact h.storeSound.initStore w.store w.count (by rw [w.params]; exact hn) buffered
  · rw [initStore_eq]
    exact w.work.trans h.noWork

/-- Every command that completes keeps the invariant. -/
theorem exec_inv {i : Instr} {s t : State} (h : Inv s) (ht : exec i s = .next t) : Inv t := by
  cases completes_of_exec ht with
  | init hr => exact h.init (initRefusal_none.1 hr).1 (idxOperand_lt _ _) _
  | @send1 c hc =>
    obtain ⟨sent, low⟩ := ((h.lineSound hc).setColour c).sendPixel 0
    have w := sendPixel_wireOnly 0 (s.beginCommand.setColour c)
    have store := (storeSound_setColour (c := c)).2 h.beginCommand_storeSound
    exact sent.inv_endCommand low (store.of_wireOnly w) (w.work.trans h.noWork)
  | latch hc =>
    obtain ⟨latched, low⟩ := (h.lineSound hc).latchSeq
    have w := latchSeq_wireOnly s.beginCommand
    exact latched.inv_endCommand low (h.beginCommand_storeSound.of_wireOnly w) (w.work.trans h.noWork)
  | sendAll hb =>
    obtain ⟨latched, low⟩ := ((h.lineSound (h.storeConfigured hb)).sendEntries s.count.toNat).latchSeq
    have walk := sendEntries_wireOnly s.count.toNat s.beginCommand
    have w := latchSeq_wireOnly (sendEntries s.count.toNat s.beginCommand)
    have store := storeSound_setColour.1 (h.beginCommand_storeSound.of_wireOnly walk)
    exact latched.inv_endCommand low (store.of_wireOnly w) (w.work.trans (walk.work.trans h.noWork))
  | sendAllIgnored =>
    have e : State.endCommand s.beginCommand = ((s.beginCommand.setStore s.store).respond none).setBusy false := by
      rw [State.endCommand, goto_self (show s.beginCommand.seq = Seq.rest from h.atRest)]
      rfl
    rw [e]
    exact h.of_quick h.storeSound none
  | @setAt index c =>
    have store := h.storeSound.storeSetAt (idxOperand s.params index) c
    rw [storeSetAt_eq] at store ⊢
    exact h.of_quick store none
  | @setAll c =>
    have store := h.storeSound.storeSetAll c
    rw [storeSetAll_eq] at store ⊢
    exact h.of_quick store none
  | getAt => exact h.of_quick h.storeSound _

/-- A command cut short is reset from a sound running block. -/
theorem cutShort_inv {w : CmdWord} {n : Nat} {s t : State} (h : Inv s) (ht : cutShort w n s = .next t) : Inv t := by
  rcases cutShort_cases ht with rfl | ⟨i, a, -, ha, rfl⟩
  · exact h.runSound.warmReset
  · exact ((h.runSound.accept h.idle ha).busyRun n).warmReset

/-- Settles O36: by what an idle block's step can be, each kind of step keeping the invariant. -/
theorem invStep : Obligations.InvStep := by
  unfold Obligations.InvStep
  intro s t h ht
  obtain ⟨-, rfl⟩ | ⟨es, -, rfl⟩ | ⟨w, es, i, -, -, hx⟩ | ⟨w, es, op, -, -, rfl⟩ | ⟨w, n, es, -, hx⟩ :=
    step_cases h.idle ht
  · exact h.respond none
  · exact (h.setHost es).runSound.warmReset
  · exact exec_inv (h.setHost es) hx
  · exact (h.setHost es).respond none
  · exact cutShort_inv (h.setHost es) hx

end Sys2Proof.Machine
end

section
/-! PROOFS. What a step takes from the host (R45, R66), and what INIT makes of the store (R43). -/

namespace Sys2Proof.Machine

/-! ### The host's next word -/

/-- An idle block takes the host's next word and runs it (R45, R66). -/
theorem step_of_word {s : State} {w : CmdWord} {es : List HostEvent} (hb : s.busy = false) (hh : s.host = .word w :: es) :
    step s = runWord w (s.setHost es) := by
  simp [step, hb, hh]

/-- A word that decodes to a command runs it (R62). -/
theorem runWord_of_instr {w : CmdWord} {i : Instr} (hd : decode w = .instr i) (s : State) : runWord w s = exec i s := by
  simp [runWord, hd]

/-- Settles O5: the idle block takes the word, and the word runs the command it decodes to. -/
theorem stepRunsDecoded : Obligations.StepRunsDecoded := by
  unfold Obligations.StepRunsDecoded
  intro s w es i hb hh hd
  calc step s = runWord w (s.setHost es) := step_of_word hb hh
    _ = exec i (s.setHost es) := runWord_of_instr hd _

/-! ### INIT's store -/

/-- INIT leaves BUFFERED at its operand, and of the store its entries or none (R43, R86 step 6). -/
theorem exec_init_store {pin : Byte} {count : Idx} {buffered : Bool} {s t : State}
    (h : exec (.init pin count buffered) s = .next t) :
    t.buffered = buffered ∧ t.store =
      if buffered = true ∧ s.buffered = true ∧ s.count = idxOperand s.params count ∧ s.params.reinitClears = false then s.store
      else [] := by
  cases completes_of_exec h with
  | init =>
    have w := initPulse_wireOnly pin (idxOperand s.params count) s.beginCommand
    rw [initStore_eq, w.buffered, w.params, w.store]
    exact ⟨rfl, rfl⟩

/-- Settles O17: each entry is read from what INIT leaves of the store, and reads as black where it leaves none. -/
theorem initStoreLifeCycle : Obligations.InitStoreLifeCycle := by
  unfold Obligations.InitStoreLifeCycle
  intro pin count buffered s t h
  obtain ⟨hbuffered, hstore⟩ := exec_init_store h
  refine ⟨hbuffered, fun hb => by simp [hstore, hb], fun j => ?_⟩
  rw [hstore]
  split
  · rfl
  · rfl

end Sys2Proof.Machine
end

section
/-! PROOFS. The decoder and the encoder (R59 to R63): what a word decodes to, the fields of a canonical word, and a word under the mask
of its used bits. -/

namespace Sys2Proof
open Laws

/-! ### What a word decodes to -/

/-- The command each word decodes to, and by which `op`: the arms of `decode` that give a command (R61). -/
inductive Decodes (w : CmdWord) : Instr → Prop where
  | init (op : cmdOp w = 1) : Decodes w (.init (cmdPin w) (cmdIdx w) (cmdBuffered w))
  | send1 (op : cmdOp w = 2) : Decodes w (.send1 (cmdColour w))
  | latch (op : cmdOp w = 3) : Decodes w .latch
  | setAt (op : cmdOp w = 4) : Decodes w (.setAt (cmdIdx w) (cmdColour w))
  | setAll (op : cmdOp w = 5) : Decodes w (.setAll (cmdColour w))
  | sendAll (op : cmdOp w = 6) : Decodes w .sendAll
  | getAt (op : cmdOp w = 7) : Decodes w (.getAt (cmdIdx w))

theorem decodes_of_decode {w : CmdWord} {i : Instr} (h : decode w = .instr i) : Decodes w i := by
  unfold decode at h
  split at h <;> cases h
  case h_1 hop => exact .init (BitVec.eq_of_toNat_eq hop)
  case h_2 hop => exact .send1 (BitVec.eq_of_toNat_eq hop)
  case h_3 hop => exact .latch (BitVec.eq_of_toNat_eq hop)
  case h_4 hop => exact .setAt (BitVec.eq_of_toNat_eq hop)
  case h_5 hop => exact .setAll (BitVec.eq_of_toNat_eq hop)
  case h_6 hop => exact .sendAll (BitVec.eq_of_toNat_eq hop)
  case h_7 hop => exact .getAt (BitVec.eq_of_toNat_eq hop)

theorem decode_of_decodes {w : CmdWord} {i : Instr} (h : Decodes w i) : decode w = .instr i := by
  cases h with
  | init op | send1 op | latch op | setAt op | setAll op | sendAll op | getAt op => simp [decode, op]

/-- `decode` gives a command exactly where the word decodes to one, and that command. -/
theorem decode_eq_instr_iff {w : CmdWord} {i : Instr} : decode w = .instr i ↔ Decodes w i :=
  ⟨decodes_of_decode, decode_of_decodes⟩

/-- A word is reserved exactly where its `op` is 0 or 8 to 15, and then by that `op` (R62). -/
theorem decode_eq_reservedOp_iff {w : CmdWord} {op : BitVec 4} :
    decode w = .reservedOp op ↔ op = cmdOp w ∧ ((cmdOp w).toNat = 0 ∨ 8 ≤ (cmdOp w).toNat) := by
  constructor
  · intro h
    unfold decode at h
    split at h <;> cases h
    refine ⟨rfl, ?_⟩
    simp only [imp_false] at *
    omega
  · rintro ⟨rfl, hop⟩
    unfold decode
    split
    case h_8 => rfl
    all_goals omega

/-! ### The fields of a canonical word -/

/-- A field that is the top part of a concatenation. -/
theorem field_top {v n start : Nat} (hi : BitVec v) (lo : BitVec n) (h : start = n) :
    (hi ++ lo).extractLsb' start v = hi := by
  subst h
  rw [field_high _ _ le_rfl, Nat.sub_self, field_whole]

/-- The one-bit field `f` is the flag. -/
theorem flagBit_cmdBuffered (w : CmdWord) : flagBit (cmdBuffered w) = w.extractLsb' 40 1 := by
  have hw : cmdBuffered w = (w.extractLsb' 40 1).getLsbD 0 := by simp [cmdBuffered]
  rw [hw]
  generalize w.extractLsb' 40 1 = f
  revert f
  decide

theorem flagBit_injective : Function.Injective flagBit := by decide

theorem decodes_encode (i : Instr) : Decodes (encode i) i := by
  cases i with
  | init pin count buffered =>
    have h := Decodes.init (w := encode (.init pin count buffered)) (cmdOp_append _ _)
    have hp : cmdPin (encode (.init pin count buffered)) = pin := by
      simp (disch := omega) only [cmdPin, encode, field_low, field_whole]
    have hc : cmdIdx (encode (.init pin count buffered)) = count := by
      simp (disch := omega) only [cmdIdx, encode, field_low, field_top]
    have hb : cmdBuffered (encode (.init pin count buffered)) = buffered := flagBit_injective (by
      simp (disch := omega) only [flagBit_cmdBuffered, encode, field_low, field_top])
    rwa [hp, hc, hb] at h
  | send1 c =>
    have h := Decodes.send1 (w := encode (.send1 c)) (cmdOp_append _ _)
    have hc : cmdColour (encode (.send1 c)) = c := by
      simp (disch := omega) only [cmdColour, encode, field_low, packColour_fields]
    rwa [hc] at h
  | latch => exact .latch (cmdOp_append _ _)
  | setAt index c =>
    have h := Decodes.setAt (w := encode (.setAt index c)) (cmdOp_append _ _)
    have hi : cmdIdx (encode (.setAt index c)) = index := by
      simp (disch := omega) only [cmdIdx, encode, field_low, field_top]
    have hc : cmdColour (encode (.setAt index c)) = c := by
      simp (disch := omega) only [cmdColour, encode, field_low, packColour_fields]
    rwa [hi, hc] at h
  | setAll c =>
    have h := Decodes.setAll (w := encode (.setAll c)) (cmdOp_append _ _)
    have hc : cmdColour (encode (.setAll c)) = c := by
      simp (disch := omega) only [cmdColour, encode, field_low, packColour_fields]
    rwa [hc] at h
  | sendAll => exact .sendAll (cmdOp_append _ _)
  | getAt index =>
    have h := Decodes.getAt (w := encode (.getAt index)) (cmdOp_append _ _)
    have hi : cmdIdx (encode (.getAt index)) = index := by
      simp (disch := omega) only [cmdIdx, encode, field_low, field_top]
    rwa [hi] at h

/-- Settles O1: the canonical word's fields are the command's operands, and its `op` the command's. -/
theorem decodeEncode : Obligations.DecodeEncode := by
  unfold Obligations.DecodeEncode
  exact fun i => decode_eq_instr_iff.2 (decodes_encode i)

/-! ### A word under a mask of fields -/

/-- A mask cut in two fields cuts the word with it. -/
theorem and_append_mask {v n : Nat} (w : BitVec (v + n)) (hi : BitVec v) (lo : BitVec n) :
    w &&& (hi ++ lo) = (w.extractLsb' n v &&& hi) ++ (w.extractLsb' 0 n &&& lo) := by
  rw [← BitVec.and_append, BitVec.extractLsb'_append_extractLsb']

/-- A field of a low part is a field of the whole. -/
theorem field_of_low {n start len m : Nat} (w : BitVec n) (h : start + len ≤ m) :
    (w.extractLsb' 0 m).extractLsb' start len = w.extractLsb' start len := by
  ext i hi
  simp [show start + i < m by omega]

/-- The colour field, packed again, is the word's low 24 bits (D7). -/
theorem packColour_cmdColour (w : CmdWord) : packColour (cmdColour w) = w.extractLsb' 0 24 := by
  show w.extractLsb' 16 8 ++ (w.extractLsb' 8 8 ++ w.extractLsb' 0 8) = w.extractLsb' 0 (8 + (8 + 8))
  rw [BitVec.extractLsb'_append_extractLsb'_eq_extractLsb' (start₁ := 0) (start₂ := 8) rfl,
    BitVec.extractLsb'_append_extractLsb'_eq_extractLsb' (start₁ := 0) (start₂ := 16) rfl]

/-- INIT's pattern of R61. -/
theorem and_used_init {w : CmdWord} {op : BitVec 4} (h : cmdOp w = op) : w &&& 0xF1FFFF0000FF =
    op ++ ((0#3) ++ (flagBit (cmdBuffered w) ++ (cmdIdx w ++ ((0#16) ++ cmdPin w)))) := by
  subst h
  have mask : (0xF1FFFF0000FF : CmdWord) = BitVec.allOnes 4 ++
    (0#3 ++ (BitVec.allOnes 1 ++ (BitVec.allOnes 16 ++ (0#16 ++ BitVec.allOnes 8)))) := by decide
  have h := and_append_mask (v := 4) (n := 3 + (1 + (16 + (16 + 8)))) w (.allOnes 4)
    (0#3 ++ (BitVec.allOnes 1 ++ (BitVec.allOnes 16 ++ (0#16 ++ BitVec.allOnes 8))))
  simp (disch := omega) only [and_append_mask, field_of_low, BitVec.and_allOnes, BitVec.and_zero] at h
  rw [mask, flagBit_cmdBuffered]
  exact h

/-- SEND1's and SETALL's pattern of R61. -/
theorem and_used_colour {w : CmdWord} {op : BitVec 4} (h : cmdOp w = op) :
    w &&& 0xF00000FFFFFF = op ++ ((0#20) ++ packColour (cmdColour w)) := by
  subst h
  have mask : (0xF00000FFFFFF : CmdWord) = BitVec.allOnes 4 ++ (0#20 ++ BitVec.allOnes 24) := by decide
  have h := and_append_mask (v := 4) (n := 20 + 24) w (.allOnes 4) (0#20 ++ BitVec.allOnes 24)
  simp (disch := omega) only [and_append_mask, field_of_low, BitVec.and_allOnes, BitVec.and_zero] at h
  rw [mask, packColour_cmdColour]
  exact h

/-- LATCH's and SENDALL's pattern of R61. -/
theorem and_used_op {w : CmdWord} {op : BitVec 4} (h : cmdOp w = op) : w &&& 0xF00000000000 = op ++ (0#44) := by
  subst h
  have mask : (0xF00000000000 : CmdWord) = BitVec.allOnes 4 ++ 0#44 := by decide
  have h := and_append_mask (v := 4) (n := 44) w (.allOnes 4) 0#44
  rw [BitVec.and_allOnes, BitVec.and_zero] at h
  rw [mask]
  exact h

/-- SETAT's pattern of R61. -/
theorem and_used_setAt {w : CmdWord} {op : BitVec 4} (h : cmdOp w = op) :
    w &&& 0xF0FFFFFFFFFF = op ++ ((0#4) ++ (cmdIdx w ++ packColour (cmdColour w))) := by
  subst h
  have mask : (0xF0FFFFFFFFFF : CmdWord) =
    BitVec.allOnes 4 ++ (0#4 ++ (BitVec.allOnes 16 ++ BitVec.allOnes 24)) := by decide
  have h := and_append_mask (v := 4) (n := 4 + (16 + 24)) w (.allOnes 4) (0#4 ++ (BitVec.allOnes 16 ++ BitVec.allOnes 24))
  simp (disch := omega) only [and_append_mask, field_of_low, BitVec.and_allOnes, BitVec.and_zero] at h
  rw [mask, packColour_cmdColour]
  exact h

/-- GETAT's pattern of R61. -/
theorem and_used_getAt {w : CmdWord} {op : BitVec 4} (h : cmdOp w = op) :
    w &&& 0xF0FFFF000000 = op ++ ((0#4) ++ (cmdIdx w ++ (0#24))) := by
  subst h
  have mask : (0xF0FFFF000000 : CmdWord) = BitVec.allOnes 4 ++ (0#4 ++ (BitVec.allOnes 16 ++ 0#24)) := by decide
  have h := and_append_mask (v := 4) (n := 4 + (16 + 24)) w (.allOnes 4) (0#4 ++ (BitVec.allOnes 16 ++ 0#24))
  simp (disch := omega) only [and_append_mask, field_of_low, BitVec.and_allOnes, BitVec.and_zero] at h
  rw [mask]
  exact h

/-- Settles O2, command by command: under the command's mask the fields it reads are left, and zeros. -/
theorem encodeDecode : Obligations.EncodeDecode := by
  unfold Obligations.EncodeDecode
  intro w i h
  cases decode_eq_instr_iff.1 h with
  | init op =>
    rw [op]
    exact (and_used_init op).symm
  | send1 op =>
    rw [op]
    exact (and_used_colour op).symm
  | latch op =>
    rw [op]
    exact (and_used_op op).symm
  | setAt op =>
    rw [op]
    exact (and_used_setAt op).symm
  | setAll op =>
    rw [op]
    exact (and_used_colour op).symm
  | sendAll op =>
    rw [op]
    exact (and_used_op op).symm
  | getAt op =>
    rw [op]
    exact (and_used_getAt op).symm

/-- Settles O3: the used bits are the canonical word (O2), from which the command is read back (O1); a reserved word is one by its
`op`. -/
theorem unusedBitsIgnored : Obligations.UnusedBitsIgnored := by
  unfold Obligations.UnusedBitsIgnored
  refine ⟨fun w w' hop hbits => ?_, fun i => (encodeDecode _ i (decodeEncode i)).symm⟩
  cases hd : decode w with
  | instr i =>
    cases hd' : decode w' with
    | instr j =>
      have same : encode i = encode j := by rw [encodeDecode w i hd, encodeDecode w' j hd', hbits, hop]
      rw [← decodeEncode i, same, decodeEncode j]
    | reservedOp op =>
      have hr := decode_eq_reservedOp_iff.1 hd'
      rw [← hop] at hr
      rw [← hd, decode_eq_reservedOp_iff.2 hr]
  | reservedOp op =>
    have hr := decode_eq_reservedOp_iff.1 hd
    rw [hop] at hr
    exact (decode_eq_reservedOp_iff.2 hr).symm

/-- Settles O4: each word by evaluating the decoder on it. -/
theorem decodeWords : Obligations.DecodeWords := by
  unfold Obligations.DecodeWords
  decide

end Sys2Proof
end

section
/-! PROOFS. What the command port does with a word (R62, R66). -/

namespace Sys2Proof.Machine

/-- The `op` field as a number: the word's top four bits (R59). -/
theorem cmdOp_toNat (w : CmdWord) : (cmdOp w).toNat = w.toNat / 2 ^ 44 := by
  have hw := w.isLt
  rw [cmdOp, BitVec.extractLsb'_toNat, Nat.shiftRight_eq_div_pow]
  omega

/-- A reserved word is taken and changes nothing (R62). -/
theorem runWord_of_reservedOp {w : CmdWord} {op : BitVec 4} (hd : decode w = .reservedOp op) (s : State) :
    runWord w s = .next (s.respond none) := by
  simp [runWord, hd]

/-- Settles O6: an `op` of 0 or 8 to 15 is reserved, and a reserved word changes nothing. -/
theorem reservedWordIgnored : Obligations.ReservedWordIgnored := by
  unfold Obligations.ReservedWordIgnored
  intro s w es hb hh hop
  rw [← cmdOp_toNat] at hop
  calc step s = runWord w (s.setHost es) := step_of_word hb hh
    _ = .next ((s.setHost es).respond none) := runWord_of_reservedOp (decode_eq_reservedOp_iff.2 ⟨rfl, hop⟩) _

/-- Settles O45: the edge accepts the command, and an accepted command has begun. -/
theorem acceptedIsBusy : Obligations.AcceptedIsBusy := by
  unfold Obligations.AcceptedIsBusy
  intro inp i s t hr hv hb hd ht
  have ha : accept i (s.respond none) = .next t := by simpa [tick, hr, hv, hb, hd] using ht
  exact (accepts_of_accept ha).busy

end Sys2Proof.Machine
end

section
/-! PROOFS. The order of a colour's bits on the wire (R51). -/

namespace Sys2Proof.Machine

@[simp] theorem byteBits_length (v : Byte) : (byteBits v).length = 8 := rfl

/-- A byte is sent most significant bit first (R76). -/
theorem byteBits_getElem? (v : Byte) {j : Nat} (hj : j < 8) : (byteBits v)[j]? = some (v.getLsbD (7 - j)) := by
  interval_cases j <;> rfl

/-- Settles O8, byte by byte: green is the first 8 bits, red the next, blue the last. -/
theorem wireOrder : Obligations.WireOrder := by
  unfold Obligations.WireOrder
  intro c
  refine ⟨rfl, fun j hj => ?_⟩
  rw [wirebits, BitVec.getLsbD_append, BitVec.getLsbD_append]
  rcases (by omega : j < 8 ∨ (8 ≤ j ∧ j < 16) ∨ 16 ≤ j) with green | ⟨pastGreen, beforeBlue⟩ | blue
  · rw [List.append_assoc, List.getElem?_append_left (by simpa using green), byteBits_getElem? _ green, if_neg (by omega),
      if_neg (by omega), show 23 - j - 8 - 8 = 7 - j by omega]
  · rw [List.getElem?_append_left (by simpa using beforeBlue), List.getElem?_append_right (by simpa using pastGreen),
      byteBits_getElem? _ (by simp; omega), if_neg (by omega), if_pos (by omega), byteBits_length, show 23 - j - 8 = 7 - (j - 8) by omega]
  · rw [List.getElem?_append_right (by simpa using blue), byteBits_getElem? _ (by simp; omega), if_pos (by omega)]
    simp [show 23 - j = 7 - (j - 16) by omega]

end Sys2Proof.Machine
end

section
/-! PROOFS. The reference receiver on what the block puts on the wire (R58): the spans of a run of bits, and what the receiver reads from
them. -/

namespace Sys2Proof.Machine

/-! ### What the premises on the parameters give -/

/-- What `receiverPremises` says, in integers: R7 (d), the two widths of R72 the receiver looks at, and the bands apart. -/
theorem receiverPremises_bounds {p : Params} (h : receiverPremises p = true) :
    0 < p.fClk ∧ p.rxLatchNs < latchNs p ∧ p.t0hNs + p.tolNs + p.tolNs < p.t1hNs
      ∧ withinTolerance p p.t0hNs = true ∧ withinTolerance p p.t1hNs = true := by
  simp only [receiverPremises, paramsOk, clockValid, Bool.and_eq_true, decide_eq_true_eq, and_assoc] at h
  obtain ⟨-, -, hlatch, -, -, h0, -, h1, -, -, -, hbands⟩ := h
  refine ⟨?_, hlatch, by omega, h0, h1⟩
  simp only [withinTolerance, decide_eq_true_eq] at h0
  have := cycles_pos p p.t0hNs
  by_contra hf
  rw [show p.fClk = 0 by omega] at h0
  omega

/-- An inhibited event's span is exactly its count (R107). -/
theorem realises_inhibited {p : Params} {e : Event} {u : Span} (h : realises p e u = true) (hi : e.inh = true) :
    u.width p = cycles p e.dur * periodUnits := by
  unfold realises at h
  cases hph : u.phase <;> simp_all

/-- The span of a 1-bit's high is no shorter than its count (R107). -/
theorem realises_t1h {p : Params} {e : Event} {u : Span} (h : realises p e u = true) (hph : u.phase = .t1h)
    (hi : e.inh = false) :
    cycles p e.dur * periodUnits ≤ u.width p := by
  simp only [realises, hph, hi, Bool.false_eq_true, if_false, Bool.and_eq_true, decide_eq_true_eq] at h
  exact h.2.1

/-- A latch's span is no shorter than its count (R107). -/
theorem realises_latch {p : Params} {e : Event} {u : Span} (h : realises p e u = true) (hph : u.phase = .latch) :
    latchCycles p * periodUnits ≤ u.width p := by
  simp only [realises, hph, Bool.and_eq_true, decide_eq_true_eq] at h
  exact h.2.2

/-- A high as long as a 0-bit's count is read as 0 (R58, R72). -/
theorem readHigh_zero {p : Params} (hp : receiverPremises p = true) {u : Span}
    (hu : realises p ⟨true, p.t0hNs, true⟩ u = true) : readHigh p ⟨true, u.width p⟩ = some false := by
  obtain ⟨-, -, -, h0, -⟩ := receiverPremises_bounds hp
  have hw : u.width p = cycles p p.t0hNs * 1000000000 := by
    simpa [periodUnits] using realises_inhibited hu rfl
  simp only [withinTolerance, decide_eq_true_eq] at h0
  rw [readHigh, if_pos]
  simp only [hw, Nat.add_mul]
  exact ⟨h0.2, h0.1⟩

/-- A high no shorter than a 1-bit's count is read as 1, the bands being apart (R58, R72). -/
theorem readHigh_one {p : Params} (hp : receiverPremises p = true) {u : Span} (hph : u.phase = .t1h)
    (hu : realises p ⟨true, p.t1hNs, false⟩ u = true) : readHigh p ⟨true, u.width p⟩ = some true := by
  obtain ⟨hf, -, hbands, -, h1⟩ := receiverPremises_bounds hp
  have hw := realises_t1h hu hph rfl
  simp only [withinTolerance, periodUnits, decide_eq_true_eq] at h1 hw
  have hgap : (p.t0hNs + p.tolNs + p.tolNs) * p.fClk < p.t1hNs * p.fClk := Nat.mul_lt_mul_of_pos_right hbands hf
  simp only [Nat.add_mul] at hgap
  rw [readHigh, if_neg, if_pos]
  · simp only
    omega
  · simp only [Nat.add_mul]
    omega

/-- A latch is longer than the receiver's threshold (R7 (d), R107). -/
theorem rxLatch_lt_latch_width {p : Params} (hp : receiverPremises p = true) {u : Span} (hph : u.phase = .latch)
    (hu : realises p (latchEvent p) u = true) : p.rxLatchNs * p.fClk < u.width p := by
  obtain ⟨hf, hlatch, -⟩ := receiverPremises_bounds hp
  have hw := realises_latch hu hph
  have := Nat.mul_lt_mul_of_pos_right hlatch hf
  simp only [latchCycles, periodUnits] at hw
  omega

/-! ### What a `hold` puts on the wire -/

@[simp] theorem State.spanOf_phase (ph : Phase) (s : State) : (s.spanOf ph).phase = ph := by cases ph <;> rfl

@[simp] theorem State.spanOf_level (ph : Phase) (s : State) : (s.spanOf ph).level = s.line := by cases ph <;> rfl

/-- The span a `hold` adds: its phase, the line's level, and a realisation of its event. -/
theorem hold_span (ph : Phase) (s : State) (hi : s.irqInhibit = (ph == .t0h)) :
    ∃ u, (s.hold ph).wire = s.wire ++ [u] ∧ u.phase = ph ∧ u.level = s.line ∧ realises s.params (s.eventOf ph) u = true :=
  ⟨_, State.hold_wire ph s, by simp, by simp, hold_realises ph s hi⟩

/-! ### The spans of a run of bits -/

/-- Two spans are the symbol of a bit as the receiver reads it: a high that R58 reads as the bit, and a low. -/
structure BitSpans (p : Params) (v : Bool) (h l : Span) : Prop where
  high : h.level = true
  low : l.level = false
  highNoLatch : h.phase ≠ .latch
  lowNoLatch : l.phase ≠ .latch
  reads : readHigh p ⟨true, h.width p⟩ = some v

/-- Some spans are the symbols of some bits, in order. -/
inductive Carries (p : Params) : List Bool → List Span → Prop where
  | nil : Carries p [] []
  | cons {v : Bool} {h l : Span} {vs : List Bool} {us : List Span} (symbol : BitSpans p v h l) (rest : Carries p vs us) :
      Carries p (v :: vs) (h :: l :: us)

theorem Carries.append {p : Params} {vs ws : List Bool} {us xs : List Span} (h : Carries p vs us) (h' : Carries p ws xs) :
    Carries p (vs ++ ws) (us ++ xs) := by
  induction h with
  | nil => exact h'
  | cons symbol _ ih => exact .cons symbol ih

/-- From `s` to `t` the wire carried some bits. -/
def Sent (s t : State) (vs : List Bool) : Prop := ∃ us, t.wire = s.wire ++ us ∧ Carries s.params vs us

theorem Sent.trans {s t u : State} {vs ws : List Bool} (h : Sent s t vs) (hp : t.params = s.params) (h' : Sent t u ws) :
    Sent s u (vs ++ ws) := by
  obtain ⟨us, hw, hc⟩ := h
  obtain ⟨xs, hw', hc'⟩ := h'
  exact ⟨us ++ xs, by rw [hw', hw, List.append_assoc], hc.append (hp ▸ hc')⟩

/-- A high and a low held one after the other are the symbol of the bit the receiver reads from the high. -/
theorem symbol_sent {v : Bool} {s a b : State} {hi lo : Phase} (ha : a.wire = s.wire) (hal : a.line = true)
    (hai : a.irqInhibit = (hi == .t0h)) (hb : b.wire = (a.hold hi).wire) (hbl : b.line = false)
    (hbi : b.irqInhibit = (lo == .t0h)) (hhi : hi ≠ .latch) (hlo : lo ≠ .latch)
    (reads : ∀ u : Span, u.phase = hi → realises a.params (a.eventOf hi) u = true →
      readHigh s.params ⟨true, u.width s.params⟩ = some v) : Sent s (b.hold lo) [v] := by
  obtain ⟨h, hw, hph, hlevel, hreal⟩ := hold_span hi a hai
  obtain ⟨l, hw', hph', hlevel', -⟩ := hold_span lo b hbi
  exact ⟨[h, l], by simp [hw', hb, hw, ha],
    .cons ⟨hlevel.trans hal, hlevel'.trans hbl, hph ▸ hhi, hph' ▸ hlo, reads h hph hreal⟩ .nil⟩

/-- The block can send to the receiver: the parameters meet its premises, a pin is selected and the inhibit is released. -/
structure LineReady (s : State) : Prop where
  premises : receiverPremises s.params = true
  pinned : s.pinMask ≠ 0
  notInhibited : s.irqInhibit = false

theorem LineReady.of_wireOnly {s t : State} (h : LineReady s) (w : WireOnly s t) (hi : t.irqInhibit = false) : LineReady t :=
  ⟨by rw [w.params]; exact h.premises, by rw [w.pinMask]; exact h.pinned, hi⟩

theorem sendBit_sent (v : Bool) {s : State} (h : LineReady s) : LineReady (sendBit v s) ∧ Sent s (sendBit v s) [v] := by
  refine ⟨h.of_wireOnly (sendBit_wireOnly v s) (sendBit_sends v s h.pinned h.notInhibited).notInhibited, ?_⟩
  cases v
  · have high := State.line_drive (s.setInhibit true) h.pinned true
    have low := State.line_drive (((s.setInhibit true).drive true).hold .t0h) h.pinned false
    refine symbol_sent (a := (s.setInhibit true).drive true) (hi := .t0h) (lo := .t0l) rfl high rfl rfl low rfl
      (by decide) (by decide) fun u _ hu => ?_
    rw [State.eventOf, high] at hu
    exact readHigh_zero h.premises hu
  · have high := State.line_drive s h.pinned true
    have low := State.line_drive ((s.drive true).hold .t1h) h.pinned false
    refine symbol_sent (a := s.drive true) (hi := .t1h) (lo := .t1l) rfl high h.notInhibited rfl low h.notInhibited
      (by decide) (by decide) fun u hph hu => ?_
    rw [State.eventOf, high, State.drive_irqInhibit, h.notInhibited] at hu
    exact readHigh_one h.premises hph hu

theorem sendBits_sent (v : Byte) (bs : List (Fin 8)) {s : State} (h : LineReady s) :
    LineReady (sendBits v bs s) ∧ Sent s (sendBits v bs s) (bs.map fun (b : Fin 8) => v.getLsbD b.val) := by
  induction bs generalizing s with
  | nil => exact ⟨h, [], by simp [sendBits], .nil⟩
  | cons b bs ih =>
    obtain ⟨ready, sent⟩ := sendBit_sent (v.getLsbD b.val) h
    obtain ⟨ready', sent'⟩ := ih ready
    exact ⟨ready', sent.trans (sendBit_wireOnly _ s).params sent'⟩

theorem sendChannel_sent (k : Fin 3) {s : State} (h : LineReady s) :
    LineReady (sendChannel k s) ∧ Sent s (sendChannel k s) (byteBits (wireByte k s.x)) :=
  sendBits_sent _ bitOrder h

/-- PIXEL sends the 24 wire bits of the colour register file (R51, R77). -/
theorem sendPixel_sent (pix : Idx) {s : State} (h : LineReady s) :
    LineReady (sendPixel pix s) ∧ Sent s (sendPixel pix s) (wirebits s.x) := by
  have h0 : LineReady (s.goto (Seq.pixelStart pix)) := ⟨h.premises, h.pinned, h.notInhibited⟩
  obtain ⟨r0, green⟩ := sendChannel_sent 0 h0
  obtain ⟨r1, red⟩ := sendChannel_sent 1 r0
  obtain ⟨r2, blue⟩ := sendChannel_sent 2 r1
  have w0 := sendChannel_wireOnly 0 (s.goto (Seq.pixelStart pix))
  have w1 := w0.trans (sendChannel_wireOnly 1 _)
  rw [w0.x] at red
  rw [w1.x] at blue
  exact ⟨r2, (green.trans w0.params red).trans w1.params blue⟩

/-- LATCHSEQ adds one low, longer than the receiver's threshold (R80, R7). -/
theorem latchSeq_latched {s : State} (h : LineReady s) :
    ∃ u, (latchSeq s).wire = s.wire ++ [u] ∧ u.phase = .latch ∧ u.level = false
      ∧ s.params.rxLatchNs * s.params.fClk < u.width s.params := by
  have low := State.line_drive (s.goto Seq.latchHold) h.pinned false
  obtain ⟨u, hw, hph, hlevel, hu⟩ := hold_span .latch ((s.goto Seq.latchHold).drive false) (h.notInhibited.trans (by decide))
  rw [State.eventOf, low, State.drive_irqInhibit, State.goto_irqInhibit, h.notInhibited] at hu
  exact ⟨u, hw, hph, hlevel.trans low, rxLatch_lt_latch_width h.premises hph hu⟩

/-! ### Commands -/

theorem Inv.lineReady {s : State} (h : Inv s) (hc : s.configured = true) (hp : receiverPremises s.params = true) :
    LineReady s :=
  ⟨hp, ne_zero_of_oneBit (h.onePin hc), h.notInhibited⟩

/-- SEND1 sends its colour's wire bits (R78). -/
theorem exec_send1_sent {c : Colour} {s t : State} (h : LineReady s) (ht : exec (.send1 c) s = .next t) :
    LineReady t ∧ t.params = s.params ∧ Sent s t (wirebits c) := by
  obtain ⟨-, rfl⟩ := execSend1_next ht
  have h0 : LineReady (s.beginCommand.setColour c) := ⟨h.premises, h.pinned, h.notInhibited⟩
  obtain ⟨ready, sent⟩ := sendPixel_sent 0 h0
  exact ⟨⟨ready.premises, ready.pinned, ready.notInhibited⟩, (sendPixel_wireOnly 0 _).params, sent⟩

theorem execList_cons_next {i : Instr} {is : List Instr} {s t : State} (h : execList (i :: is) s = .next t) :
    ∃ u, exec i s = .next u ∧ execList is u = .next t := by
  rw [execList] at h
  split at h
  · next u hu => exact ⟨u, hu, h⟩
  · cases h
  · cases h

/-- An unbuffered frame sends the wire bits of its colours, then one latch (R68). -/
theorem unbufferedFrame_sent {cs : List Colour} {s t : State} (h : LineReady s)
    (ht : execList (unbufferedFrame cs) s = .next t) :
    ∃ us u, t.wire = s.wire ++ (us ++ [u]) ∧ Carries s.params (cs.flatMap wirebits) us ∧ u.phase = .latch
      ∧ u.level = false ∧ s.params.rxLatchNs * s.params.fClk < u.width s.params := by
  induction cs generalizing s with
  | nil =>
    obtain ⟨a, ha, hrest⟩ := execList_cons_next ht
    cases hrest
    obtain ⟨-, rfl⟩ := execLatch_next ha
    obtain ⟨u, hw, latched⟩ := latchSeq_latched (s := s.beginCommand) ⟨h.premises, h.pinned, h.notInhibited⟩
    exact ⟨[], u, hw, .nil, latched⟩
  | cons c cs ih =>
    obtain ⟨a, ha, hrest⟩ := execList_cons_next ht
    obtain ⟨ready, hp, us, hw, hc⟩ := exec_send1_sent h ha
    obtain ⟨xs, u, hw', hc', latched⟩ := ih ready hrest
    rw [hp] at hc' latched
    exact ⟨us ++ xs, u, by rw [hw', hw]; simp, hc.append hc', latched⟩

/-! ### The receiver -/

/-- A low under the threshold adds nothing. -/
theorem readLow_of_lt {p : Params} {n : Nat} (h : n < p.rxLatchNs * p.fClk) : readLow p ⟨false, n⟩ = [] := by
  rw [readLow, if_neg (by simp only; omega), if_neg (by simp only; omega)]

/-- A low over the threshold ends the frame. -/
theorem readLow_of_gt {p : Params} {n : Nat} (h : p.rxLatchNs * p.fClk < n) : readLow p ⟨false, n⟩ = [.latch] := by
  rw [readLow, if_pos h]

/-- The first pulse of some spans has the first span's level. -/
theorem normaliseWire_cons_head (p : Params) (u : Span) (us : List Span) :
    ∃ w qs, normaliseWire p (u :: us) = ⟨u.level, w⟩ :: qs := by
  rw [normaliseWire]
  split
  · exact ⟨_, _, rfl⟩
  · split_ifs with hl
    · exact ⟨_, _, by rw [hl]⟩
    · exact ⟨_, _, rfl⟩

/-- A span before one of the other level is a pulse of its own. -/
theorem normaliseWire_cons_of_ne (p : Params) {u v : Span} (us : List Span) (h : u.level ≠ v.level) :
    normaliseWire p (u :: v :: us) = ⟨u.level, u.width p⟩ :: normaliseWire p (v :: us) := by
  obtain ⟨w, qs, hq⟩ := normaliseWire_cons_head p v us
  rw [normaliseWire, hq]
  simp [h]

/-- A bit's two spans are two pulses, if what follows does not begin low. -/
theorem normaliseWire_symbol {p : Params} {v : Bool} {h l : Span} (symbol : BitSpans p v h l) {us : List Span}
    (next : ∀ u ∈ us.head?, u.level = true) :
    normaliseWire p (h :: l :: us) = ⟨true, h.width p⟩ :: ⟨false, l.width p⟩ :: normaliseWire p us := by
  rw [normaliseWire_cons_of_ne p us (by simp [symbol.high, symbol.low]), symbol.high]
  cases us with
  | nil => simp [normaliseWire, symbol.low]
  | cons u us =>
    have hu : u.level = true := next u rfl
    rw [normaliseWire_cons_of_ne p us (by simp [symbol.low, hu]), symbol.low]

/-- The spans of some bits begin with a high. -/
theorem Carries.head_high {p : Params} {vs : List Bool} {us : List Span} (h : Carries p vs us) :
    ∀ u ∈ us.head?, u.level = true := by
  cases h with
  | nil => simp
  | cons symbol _ => simp [symbol.high]

/-- No span of a bit is a latch. -/
theorem Carries.filter_no_latch {p : Params} {vs : List Bool} {us : List Span} (h : Carries p vs us) :
    (us.filter fun u => u.phase != .latch) = us := by
  induction h with
  | nil => rfl
  | cons symbol _ ih => simp [symbol.highNoLatch, symbol.lowNoLatch, ih]

/-- Every low of a normalised wire stays under the receiver's threshold (H2). -/
def ShortLows (p : Params) (qs : List Pulse) : Prop := ∀ q ∈ qs, q.level = true ∨ q.width < p.rxLatchNs * p.fClk

theorem Carries.shortLows {p : Params} {vs : List Bool} {us : List Span} (h : Carries p vs us)
    (short : lowsShort p us = true) : ShortLows p (normaliseWire p us) := by
  rw [lowsShort, h.filter_no_latch] at short
  simpa [ShortLows] using short

/-- A latch at the end is no low H2 speaks of. -/
theorem lowsShort_append_latch {p : Params} {us : List Span} {u : Span} (hu : u.phase = .latch) :
    lowsShort p (us ++ [u]) = lowsShort p us := by
  simp [lowsShort, hu]

theorem ShortLows.of_symbol {p : Params} {v : Bool} {h l : Span} {vs : List Bool} {us : List Span}
    (symbol : BitSpans p v h l) (rest : Carries p vs us) (short : ShortLows p (normaliseWire p (h :: l :: us))) :
    l.width p < p.rxLatchNs * p.fClk ∧ ShortLows p (normaliseWire p us) := by
  rw [normaliseWire_symbol symbol rest.head_high] at short
  simpa [ShortLows] using short

/-- The receiver on a bit whose low is short: the bit, and what follows. -/
theorem receive_symbol {p : Params} {v : Bool} {h l : Span} (symbol : BitSpans p v h l) {us : List Span}
    (next : ∀ u ∈ us.head?, u.level = true) (short : l.width p < p.rxLatchNs * p.fClk) :
    receive p (normaliseWire p (h :: l :: us)) = .bit (some v) :: receive p (normaliseWire p us) := by
  rw [normaliseWire_symbol symbol next]
  simp [receive, symbol.reads, readLow_of_lt short]

/-- The receiver on a bit and a latch: the low and the latch are one low, over the threshold (R54, R57, R58). -/
theorem receive_symbol_latch {p : Params} {v : Bool} {h l u : Span} (symbol : BitSpans p v h l) (hu : u.level = false)
    (long : p.rxLatchNs * p.fClk < u.width p) :
    receive p (normaliseWire p [h, l, u]) = [.bit (some v), .latch] := by
  have merged : normaliseWire p [l, u] = [⟨false, l.width p + u.width p⟩] := by simp [normaliseWire, symbol.low, hu]
  rw [normaliseWire_cons_of_ne p [u] (by simp [symbol.high, symbol.low]), merged, symbol.high]
  have exceeds : p.rxLatchNs * p.fClk < l.width p + u.width p := by omega
  simp [receive, symbol.reads, readLow_of_gt exceeds]

/-- The receiver reads the bits the wire carries. -/
theorem Carries.receive {p : Params} {vs : List Bool} {us : List Span} (h : Carries p vs us)
    (short : ShortLows p (normaliseWire p us)) :
    Machine.receive p (normaliseWire p us) = vs.map fun v => .bit (some v) := by
  induction h with
  | nil => rfl
  | cons symbol rest ih =>
    obtain ⟨low, lows⟩ := ShortLows.of_symbol symbol rest short
    rw [receive_symbol symbol rest.head_high low, ih lows, List.map_cons]

/-- The receiver reads the bits the wire carries, then the latch after them. -/
theorem Carries.receive_latch {p : Params} {vs : List Bool} {us : List Span} (h : Carries p vs us) (hv : vs ≠ [])
    (short : ShortLows p (normaliseWire p us)) {u : Span} (hu : u.level = false) (long : p.rxLatchNs * p.fClk < u.width p) :
    Machine.receive p (normaliseWire p (us ++ [u])) = (vs.map fun v => .bit (some v)) ++ [.latch] := by
  induction h with
  | nil => exact absurd rfl hv
  | cons symbol rest ih =>
    obtain ⟨low, lows⟩ := ShortLows.of_symbol symbol rest short
    cases rest with
    | nil => exact receive_symbol_latch symbol hu long
    | cons symbol' rest' =>
      rw [List.cons_append, List.cons_append, receive_symbol symbol (by simp [symbol'.high]) low, ih (by simp) lows]
      simp

/-! ### The two statements -/

/-- Settles O50: SEND1 puts the colour's wire bits on the wire, and the receiver reads the bits a wire of short lows carries. -/
theorem send1Received : Obligations.Send1Received := by
  unfold Obligations.Send1Received
  intro c s t us hinv hc hp ht hw short
  obtain ⟨-, -, xs, hw', carries⟩ := exec_send1_sent (hinv.lineReady hc hp) ht
  obtain rfl : us = xs := List.append_cancel_left (hw.symm.trans hw')
  exact carries.receive (carries.shortLows short)

/-- Settles O51: a frame puts its colours' wire bits on the wire and then a latch, which the receiver reads so. -/
theorem frameReceived : Obligations.FrameReceived := by
  unfold Obligations.FrameReceived
  intro cs s t us hinv hc hcs hp ht hw short
  obtain ⟨xs, u, hw', carries, hph, hlevel, long⟩ := unbufferedFrame_sent (hinv.lineReady hc hp) ht
  obtain rfl : us = xs ++ [u] := List.append_cancel_left (hw.symm.trans hw')
  rw [lowsShort_append_latch hph] at short
  have bits : cs.flatMap wirebits ≠ [] := by
    obtain ⟨c, cs, rfl⟩ := List.exists_cons_of_ne_nil hcs
    simp [wirebits, byteBits, bitOrder]
  rw [carries.receive_latch bits (carries.shortLows short) hlevel long, List.map_flatMap]

end Sys2Proof.Machine
end

section
/-! PROOFS. The pulse encoder's commands (spec/40_pulse_encoder.md): when SEND1 and LATCH complete, what they leave, and what they append
to TRACE. -/

namespace Sys2Proof.Machine

/-- Settles O13: both arms test CONFIGURED before anything else. -/
theorem transmitBeforeInitRefused : Obligations.TransmitBeforeInitRefused := by
  unfold Obligations.TransmitBeforeInitRefused
  intro c s hc
  exact ⟨if_pos hc, if_pos hc⟩

/-! ### The frame -/

theorem Inv.restState {s : State} (h : Inv s) : AtRest s := ⟨h.idle, h.notInhibited, h.atRest, h.timerRest⟩

/-- What a command leaves that writes the colour register file, transmits and ends (R78, R81): the colour it wrote, the line low, no
response, the block at rest, and everything else as it was. -/
theorem transmit_frame {i : Instr} {c : Colour} {s t : State} (h : Inv s) (hc : s.configured = true)
    (w : WireOnly (s.beginCommand.setColour c) t) (ht : exec i s = .next (State.endCommand t)) :
    t.x = c ∧ t.portOut = s.portOut &&& ~~~s.pinMask ∧ t.store = s.store ∧ t.rsp = none
      ∧ AtRest (State.endCommand t) ∧ KeepsLine s (State.endCommand t) := by
  have hinv : Inv (State.endCommand t) := exec_inv h ht
  have low : t.line = false := hinv.lineLow (w.configured.trans hc)
  have keeps : KeepsLine s (State.endCommand t) :=
    ⟨w.configured, w.buffered, w.portDir, w.pinMask, w.count, w.params, w.host, w.work, w.draws⟩
  have hout := portOut_of_low w low
  exact ⟨w.x, hout, w.store, w.rsp, hinv.restState, keeps⟩

/-- Settles O9: PIXEL's frame, and the line low by the invariant SEND1 leaves. -/
theorem send1Completes : Obligations.Send1Completes := by
  unfold Obligations.Send1Completes
  intro c s h hc
  have ht := exec_of_completes (.send1 (c := c) hc)
  obtain ⟨hx, hout, hstore, hrsp, rest, keeps⟩ := transmit_frame h hc (sendPixel_wireOnly 0 _) ht
  exact ⟨_, ht, hx, hout, hstore, fun j => congrArg (·.read j) hstore, hrsp, rest, keeps⟩

/-- Settles O12: LATCHSEQ's frame and its one event; a LATCH writes the colour register file with what it holds. -/
theorem latchCompletes : Obligations.LatchCompletes := by
  unfold Obligations.LatchCompletes
  intro s h hc
  have ht := exec_of_completes (.latch hc)
  have w : WireOnly (s.beginCommand.setColour s.x) (latchSeq s.beginCommand) := latchSeq_wireOnly s.beginCommand
  obtain ⟨hx, hout, hstore, hrsp, rest, keeps⟩ := transmit_frame h hc w ht
  have sent := latchSeq_sends s.beginCommand (ne_zero_of_oneBit (h.onePin hc)) h.notInhibited
  exact ⟨_, ht, sent.trace, hout, hx, hstore, fun j => congrArg (·.read j) hstore, hrsp, rest, keeps⟩

/-! ### The events of a colour -/

/-- A bit's symbol is a high and a low, their durations and the inhibit chosen by the bit (R52, R53). -/
theorem bitEvents_eq (p : Params) (v : Bool) :
    bitEvents p v = [⟨true, if v then p.t1hNs else p.t0hNs, !v⟩, ⟨false, if v then p.t1lNs else p.t0lNs, false⟩] := by
  cases v <;> rfl

theorem flatMap_bitEvents_length (p : Params) (vs : List Bool) : (vs.flatMap (bitEvents p)).length = 2 * vs.length := by
  induction vs with
  | nil => rfl
  | cons v vs ih => simp [bitEvents_eq, ih]; omega

/-- Bit `j` is on the wire as events `2 * j` and `2 * j + 1` (R79). -/
theorem flatMap_bitEvents_getElem? (p : Params) {vs : List Bool} {j : Nat} {v : Bool} (h : vs[j]? = some v) :
    (vs.flatMap (bitEvents p))[2 * j]? = some ⟨true, if v then p.t1hNs else p.t0hNs, !v⟩
      ∧ (vs.flatMap (bitEvents p))[2 * j + 1]? = some ⟨false, if v then p.t1lNs else p.t0lNs, false⟩ := by
  induction vs generalizing j with
  | nil => simp at h
  | cons w vs ih =>
    rw [List.flatMap_cons, bitEvents_eq]
    cases j with
    | zero =>
      obtain rfl : w = v := by simpa using h
      exact ⟨rfl, rfl⟩
    | succ j => exact ih h

@[simp] theorem traceNs_append (es fs : List Event) : traceNs (es ++ fs) = traceNs es + traceNs fs := by
  simp [traceNs]

/-- The durations of some bits' symbols, from the numbers of 1s and 0s (R56). -/
theorem traceNs_flatMap_bitEvents (p : Params) (vs : List Bool) :
    traceNs (vs.flatMap (bitEvents p)) =
      vs.count true * (p.t1hNs + p.t1lNs) + vs.count false * (p.t0hNs + p.t0lNs) := by
  induction vs with
  | nil => simp [traceNs]
  | cons v vs ih =>
    rw [List.flatMap_cons, traceNs_append, ih]
    cases v <;> simp [traceNs, bitEvents, Nat.add_mul] <;> omega

theorem wirebits_length (c : Colour) : (wirebits c).length = 24 := (wireOrder c).1

/-- The events of a colour last `dur(c)` (R56). -/
theorem traceNs_pixelEvents (p : Params) (c : Colour) : traceNs (pixelEvents p c) = pixelNs p c := by
  have counts := List.count_true_add_count_false (wirebits c)
  rw [wirebits_length] at counts
  rw [pixelEvents, traceNs_flatMap_bitEvents, pixelNs, ← counts, Nat.add_sub_cancel_left]

/-- Settles O10: SEND1 appends the symbols of its colour's wire bits. -/
theorem send1Events : Obligations.Send1Events := by
  unfold Obligations.Send1Events
  intro c s h hc
  have sent := sendPixel_sends 0 (s.beginCommand.setColour c) (ne_zero_of_oneBit (h.onePin hc)) h.notInhibited
  have len : (pixelEvents s.params c).length = 48 := by rw [pixelEvents, flatMap_bitEvents_length, wirebits_length]
  exact ⟨_, pixelEvents s.params c, exec_of_completes (.send1 hc), sent.trace, len,
    fun _ _ hv => flatMap_bitEvents_getElem? s.params hv, traceNs_pixelEvents s.params c⟩

/-! ### The store's state is not the encoder's -/

/-- The state with another store, COUNT and BUFFERED. -/
def State.withStore (m : Memory) (n : Idx) (b : Bool) (s : State) : State :=
  { s with store := m, count := n, buffered := b }

theorem withStore_unseen (m : Memory) (n : Idx) (b : Bool) : Unseen (State.withStore m n b) :=
  ⟨fun _ => rfl, fun _ _ => rfl, fun _ _ => rfl, fun _ _ => rfl, fun _ _ => rfl⟩

/-- Settles O14: the store's state is unseen by PIXEL and LATCHSEQ, and outside their frame. -/
theorem encoderIgnoresStore : Obligations.EncoderIgnoresStore := by
  unfold Obligations.EncoderIgnoresStore
  intro i c s t m n b hi ht
  change exec i (s.withStore m n b) = .next (t.withStore m n b) ∧ _
  have unseen := withStore_unseen m n b
  rcases hi with rfl | rfl
  · obtain ⟨hc, rfl⟩ := execSend1_next ht
    have w := sendPixel_wireOnly 0 (s.beginCommand.setColour c)
    have same := unseen.sendPixel 0 (s.beginCommand.setColour c)
    have done := exec_of_completes (.send1 (c := c) (s := s.withStore m n b) hc)
    exact ⟨done.trans (congrArg (fun u => Host.Outcome.next (State.endCommand u)) same), w.pinMask, w.portDir, w.count,
      w.buffered, w.store⟩
  · obtain ⟨hc, rfl⟩ := execLatch_next ht
    have w := latchSeq_wireOnly s.beginCommand
    have same := unseen.latchSeq s.beginCommand
    have done := exec_of_completes (.latch (s := s.withStore m n b) hc)
    exact ⟨done.trans (congrArg (fun u => Host.Outcome.next (State.endCommand u)) same), w.pinMask, w.portDir, w.count,
      w.buffered, w.store⟩

end Sys2Proof.Machine
end

section
/-! PROOFS. The interrupter and the clock rate change durations only (R70, R105, R108): a command run with another clock rate and other
periods, procedure by procedure. -/

namespace Sys2Proof.Machine

/-! ### What timing may change -/

/-- The state at another clock rate, with other periods to come, another timer and another realised trace. -/
def State.retime (f : Nat) (ps : List Period) (tm : Timer) (ws : List Span) (s : State) : State :=
  { s with params := { s.params with fClk := f }, clock := ps, timer := tm, wire := ws }

/-- `s'` is `s` at clock rate `f`: it differs besides in the periods to come, the timer and the widths of the realised trace at
most. -/
def Retimed (f : Nat) (s s' : State) : Prop :=
  ∃ ps tm ws, s' = s.retime f ps tm ws ∧ ws.map Span.untimed = s.wire.map Span.untimed

/-- One turn of SENDALL's walk: the gap, the colour read, the pixel (R93). -/
theorem sendEntry_eq (i : Nat) (s : State) :
    sendEntry i s =
      sendPixel (BitVec.ofNat 16 i) ((sendGap i s).setColour ((sendGap i s).memRead (BitVec.ofNat 16 i))) := rfl

theorem retimed_retime (f : Nat) (ps : List Period) (s : State) : Retimed f s (s.retime f ps s.timer s.wire) :=
  ⟨ps, s.timer, s.wire, rfl, rfl⟩

/-- A `hold` records its phase, the level and the sequencer position it began with (R107). -/
theorem State.hold_wire_untimed (ph : Phase) (s : State) :
    (s.hold ph).wire.map Span.untimed = s.wire.map Span.untimed ++ [(ph, s.line, s.seq)] := by
  have span : ∀ t : State, (t.spanOf ph).untimed = (ph, t.line, t.seq) := fun t => by cases ph <;> rfl
  rw [State.hold_wire, List.map_append, List.map_singleton, span]
  rfl

namespace Retimed

variable {f : Nat} {s s' : State}

/-- An update that neither reads nor writes what timing may change keeps the relation. -/
theorem map (h : Retimed f s s') (g : State → State) (same : ∀ ps tm ws, g (s.retime f ps tm ws) = (g s).retime f ps tm ws)
    (wire : (g s).wire = s.wire) : Retimed f (g s) (g s') := by
  obtain ⟨ps, tm, ws, rfl, hw⟩ := h
  exact ⟨ps, tm, ws, same ps tm ws, by rw [wire, hw]⟩

/-- A `hold` appends the same event, and a span of the same phase, level and sequencer position (R9, R107). -/
theorem hold (h : Retimed f s s') (ph : Phase) : Retimed f (s.hold ph) (s'.hold ph) := by
  obtain ⟨ps, tm, ws, rfl, hw⟩ := h
  refine ⟨_, _, ((s.retime f ps tm ws).hold ph).wire, rfl, ?_⟩
  rw [State.hold_wire_untimed, State.hold_wire_untimed, ← hw]
  rfl

theorem setInhibit (h : Retimed f s s') (v : Bool) : Retimed f (s.setInhibit v) (s'.setInhibit v) :=
  h.map _ (fun _ _ _ => rfl) rfl

theorem drive (h : Retimed f s s') (v : Bool) : Retimed f (s.drive v) (s'.drive v) := h.map _ (fun _ _ _ => rfl) rfl

theorem goto (h : Retimed f s s') (q : Seq) : Retimed f (s.goto q) (s'.goto q) := h.map _ (fun _ _ _ => rfl) rfl

theorem setColour (h : Retimed f s s') (c : Colour) : Retimed f (s.setColour c) (s'.setColour c) :=
  h.map _ (fun _ _ _ => rfl) rfl

theorem setBusy (h : Retimed f s s') (v : Bool) : Retimed f (s.setBusy v) (s'.setBusy v) := h.map _ (fun _ _ _ => rfl) rfl

theorem respond (h : Retimed f s s') (r : Option RspWord) : Retimed f (s.respond r) (s'.respond r) :=
  h.map _ (fun _ _ _ => rfl) rfl

theorem beginCommand (h : Retimed f s s') : Retimed f s.beginCommand s'.beginCommand := (h.setBusy true).respond none

theorem endCommand (h : Retimed f s s') : Retimed f s.endCommand s'.endCommand := (h.goto Seq.rest).setBusy false

theorem initLine (h : Retimed f s s') (pin : Byte) (n : Idx) : Retimed f (Machine.initLine pin n s) (Machine.initLine pin n s') :=
  h.map _ (fun _ _ _ => rfl) rfl

theorem initStore (h : Retimed f s s') (n : Idx) (b : Bool) (old : Idx) :
    Retimed f (Machine.initStore n b old s) (Machine.initStore n b old s') :=
  h.map _ (fun _ _ _ => by rw [initStore_eq, initStore_eq]; rfl) (by rw [initStore_eq]; rfl)

theorem storeSetAt (h : Retimed f s s') (index : Idx) (c : Colour) :
    Retimed f (Machine.storeSetAt index c s) (Machine.storeSetAt index c s') :=
  h.map _ (fun _ _ _ => by rw [storeSetAt_eq, storeSetAt_eq]; rfl) (by rw [storeSetAt_eq]; rfl)

theorem storeSetAll (h : Retimed f s s') (c : Colour) : Retimed f (Machine.storeSetAll c s) (Machine.storeSetAll c s') :=
  h.map _ (fun _ _ _ => by rw [storeSetAll_eq, storeSetAll_eq]; rfl) (by rw [storeSetAll_eq]; rfl)

/-! ### A transmission at another clock rate -/

theorem sendBit (h : Retimed f s s') (v : Bool) : Retimed f (Machine.sendBit v s) (Machine.sendBit v s') := by
  cases v
  · exact (((((h.setInhibit true).drive true).hold .t0h).drive false).setInhibit false).hold .t0l
  · exact (((h.drive true).hold .t1h).drive false).hold .t1l

theorem sendBits (h : Retimed f s s') (v : Byte) (bs : List (Fin 8)) :
    Retimed f (Machine.sendBits v bs s) (Machine.sendBits v bs s') := by
  induction bs generalizing s s' with
  | nil => exact h
  | cons b bs ih => exact ih (h.sendBit (v.getLsbD b.val))

theorem sendChannel (h : Retimed f s s') (k : Fin 3) : Retimed f (Machine.sendChannel k s) (Machine.sendChannel k s') := by
  have hx : s'.x = s.x := by
    obtain ⟨ps, tm, ws, rfl, -⟩ := h
    rfl
  unfold Machine.sendChannel
  rw [hx]
  exact h.sendBits _ bitOrder

theorem sendPixel (h : Retimed f s s') (pix : Idx) : Retimed f (Machine.sendPixel pix s) (Machine.sendPixel pix s') :=
  (((h.goto (Seq.pixelStart pix)).sendChannel 0).sendChannel 1).sendChannel 2

theorem latchSeq (h : Retimed f s s') : Retimed f (Machine.latchSeq s) (Machine.latchSeq s') :=
  ((h.goto Seq.latchHold).drive false).hold .latch

/-- Whether a gap is held depends on `GAP_NS`, not on the clock (R93). -/
theorem sendGap (h : Retimed f s s') (i : Nat) : Retimed f (Machine.sendGap i s) (Machine.sendGap i s') := by
  have hgap : s'.params.gapNs = s.params.gapNs := by
    obtain ⟨ps, tm, ws, rfl, -⟩ := h
    rfl
  unfold Machine.sendGap
  rw [hgap]
  split
  · exact h.hold .gap
  · exact h

theorem sendEntry (h : Retimed f s s') (i : Nat) : Retimed f (Machine.sendEntry i s) (Machine.sendEntry i s') := by
  have gap := h.sendGap i
  have hread : (Machine.sendGap i s').memRead (BitVec.ofNat 16 i) = (Machine.sendGap i s).memRead (BitVec.ofNat 16 i) := by
    obtain ⟨ps, tm, ws, e, -⟩ := gap
    rw [e]
    rfl
  rw [sendEntry_eq, sendEntry_eq, hread]
  exact (gap.setColour _).sendPixel _

theorem sendEntries (h : Retimed f s s') (n : Nat) : Retimed f (Machine.sendEntries n s) (Machine.sendEntries n s') := by
  induction n with
  | zero => exact h
  | succ n ih =>
    rw [sendEntries_succ, sendEntries_succ]
    exact ih.sendEntry n

end Retimed

/-! ### A command at another clock rate -/

/-- A command that completes does so at any clock rate and under any interrupts, in the same state but for timing. -/
theorem Completes.retimed {i : Instr} {s t : State} (h : Completes s i t) (f : Nat) (ps : List Period) :
    ∃ t', Completes (s.retime f ps s.timer s.wire) i t' ∧ Retimed f t t' := by
  have begun := (retimed_retime f ps s).beginCommand
  cases h with
  | init accepted => exact ⟨_, .init accepted, ((((begun.initLine _ _).sendPixel 0).latchSeq).initStore _ _ _).endCommand⟩
  | send1 configured => exact ⟨_, .send1 configured, ((begun.setColour _).sendPixel 0).endCommand⟩
  | latch configured => exact ⟨_, .latch configured, begun.latchSeq.endCommand⟩
  | setAt => exact ⟨_, .setAt, (begun.storeSetAt _ _).setBusy false⟩
  | setAll => exact ⟨_, .setAll, (begun.storeSetAll _).setBusy false⟩
  | sendAll buffered => exact ⟨_, .sendAll buffered, ((begun.sendEntries _).latchSeq).endCommand⟩
  | sendAllIgnored absent => exact ⟨_, .sendAllIgnored absent, begun.endCommand⟩
  | getAt => exact ⟨_, .getAt, (begun.respond _).setBusy false⟩

/-! ### The timer between commands -/

theorem sendGap_timer_rest (i : Nat) {s : State} (hi : s.irqInhibit = false) (ht : s.timer = Timer.rest) :
    (sendGap i s).timer = Timer.rest ∧ (sendGap i s).irqInhibit = false := by
  unfold sendGap
  split
  · exact ⟨hold_timer_rest .gap s hi, hi⟩
  · exact ⟨ht, hi⟩

/-- SENDALL's walk leaves the timer at rest and the inhibit released (R29, R106). -/
theorem sendEntries_timer_rest (n : Nat) {s : State} (hi : s.irqInhibit = false) (ht : s.timer = Timer.rest) :
    (sendEntries n s).timer = Timer.rest ∧ (sendEntries n s).irqInhibit = false := by
  induction n with
  | zero => exact ⟨ht, hi⟩
  | succ n ih =>
    obtain ⟨walked, released⟩ := ih
    obtain ⟨ht', hi'⟩ := sendGap_timer_rest n released walked
    rw [sendEntries_succ, sendEntry_eq]
    refine (sendPixel_inStep _ _ ?_ ?_).2
    · exact hi'
    · exact ht'

/-- A command begun with the timer at rest and the inhibit released ends with the timer at rest, at any clock rate (R29, R106). -/
theorem Completes.timer_rest {i : Instr} {s t : State} (h : Completes s i t) (hi : s.irqInhibit = false)
    (ht : s.timer = Timer.rest) : t.timer = Timer.rest := by
  cases h with
  | @init pin count =>
    have sent := (sendPixel_inStep 0 (initLine pin (idxOperand s.params count) s.beginCommand) hi ht).2
    rw [initStore_eq]
    exact (latchSeq_inStep _ sent.2).2.1
  | send1 => exact (sendPixel_inStep 0 (s.beginCommand.setColour _) hi ht).2.1
  | latch => exact (latchSeq_inStep s.beginCommand hi).2.1
  | setAt =>
    rw [storeSetAt_eq]
    exact ht
  | setAll =>
    rw [storeSetAll_eq]
    exact ht
  | sendAll =>
    have walked := sendEntries_timer_rest s.count.toNat (s := s.beginCommand) hi ht
    exact (latchSeq_inStep _ walked.2).2.1
  | sendAllIgnored => exact ht
  | getAt => exact ht

/-- No command writes the parameters (R26). -/
theorem Completes.params_eq {i : Instr} {s t : State} (h : Completes s i t) : t.params = s.params := by
  cases h with
  | @init pin count =>
    rw [initStore_eq]
    exact (initPulse_wireOnly pin (idxOperand s.params count) s.beginCommand).params
  | send1 => exact (sendPixel_wireOnly 0 (s.beginCommand.setColour _)).params
  | latch => exact (latchSeq_wireOnly s.beginCommand).params
  | setAt => rw [storeSetAt_eq]; rfl
  | setAll => rw [storeSetAll_eq]; rfl
  | sendAll => exact (latchSeq_wireOnly _).params.trans (sendEntries_wireOnly _ s.beginCommand).params
  | sendAllIgnored => rfl
  | getAt => rfl

/-- Settles O39: both runs complete, alike but for timing; each only appends to the realised trace, and both end with the timer at
rest. -/
theorem timingNotObserved : Obligations.TimingNotObserved := by
  unfold Obligations.TimingNotObserved
  intro i s t f ps h ht
  have done := completes_of_exec ht
  obtain ⟨_, done', qs, tm, ws, rfl, spans⟩ := done.retimed f ps
  have ht' := exec_of_completes done'
  obtain ⟨-, us, -, hus, -⟩ := traceOnlyGrows i s t ht
  obtain ⟨-, vs, -, hvs, -⟩ := traceOnlyGrows i _ _ ht'
  obtain rfl : ws = s.wire ++ vs := hvs
  obtain rfl : tm = t.timer :=
    (done'.timer_rest h.notInhibited h.timerRest).trans (done.timer_rest h.notInhibited h.timerRest).symm
  rw [hus, List.map_append, List.map_append] at spans
  simp only [State.retime, done.params_eq] at ht'
  exact ⟨us, vs, qs, hus, List.append_cancel_left spans, ht'⟩

end Sys2Proof.Machine
end

section
/-! PROOFS. Command lists (R45), what the commands other than INIT leave alone (R96), and the commands that drive no phase (R89, R91,
R97). -/

namespace Sys2Proof.Machine

/-! ### Command lists -/

theorem execList_cons_of_next {i : Instr} {s t : State} (h : exec i s = .next t) (is : List Instr) :
    execList (i :: is) s = execList is t := by
  rw [execList, h]

theorem execList_append_of_next {is : List Instr} {s t : State} (h : execList is s = .next t) (js : List Instr) :
    execList (is ++ js) s = execList js t := by
  induction is generalizing s with
  | nil =>
    cases h
    rfl
  | cons i is ih =>
    obtain ⟨u, hu, hrest⟩ := execList_cons_next h
    rw [List.cons_append, execList_cons_of_next hu]
    exact ih hrest

/-- What each command of some kind keeps, a list of such commands keeps. -/
theorem execList_keeps {P : State → Prop} {kind : Instr → Prop}
    (keeps : ∀ {i s t}, kind i → P s → exec i s = .next t → P t) {is : List Instr} {s t : State}
    (hk : ∀ i ∈ is, kind i) (hs : P s) (h : execList is s = .next t) : P t := by
  induction is generalizing s with
  | nil =>
    cases h
    exact hs
  | cons i is ih =>
    obtain ⟨u, hu, hrest⟩ := execList_cons_next h
    obtain ⟨hi, his⟩ := List.forall_mem_cons.1 hk
    exact ih his (keeps hi hs hu) hrest

theorem execList_inv {is : List Instr} {s t : State} (h : Inv s) (ht : execList is s = .next t) : Inv t :=
  execList_keeps (kind := fun _ => True) (fun _ => exec_inv) (fun _ _ => trivial) h ht

/-! ### The commands other than INIT -/

/-- A transmission, and what a command does before and after it, keep what only INIT may change. -/
theorem WireOnly.keepsLine {s t : State} {c : Colour} (w : WireOnly (s.beginCommand.setColour c) t) :
    KeepsLine s (State.endCommand t) :=
  ⟨w.configured, w.buffered, w.portDir, w.pinMask, w.count, w.params, w.host, w.work, w.draws⟩

/-- SENDALL's walk and its latch: the colour register file is left as the walk leaves it, and beside it only the line's side of the
state moved (R93). -/
theorem sendAll_wireOnly (n : Nat) (s : State) :
    WireOnly (s.setColour (sendEntries n s).x) (latchSeq (sendEntries n s)) :=
  WireOnly.trans ((sendEntries_wireOnly n s).recolour (sendEntries n s).x) (latchSeq_wireOnly _)

/-- Settles O30, command by command: a transmission's frame for what transmits, one replacement of the entries or of the response
for what does not. -/
theorem onlyInitConfigures : Obligations.OnlyInitConfigures := by
  unfold Obligations.OnlyInitConfigures
  intro i s t hi h
  cases completes_of_exec h with
  | init => cases hi
  | send1 => exact (sendPixel_wireOnly 0 _).keepsLine
  | latch => exact WireOnly.keepsLine (c := s.x) (latchSeq_wireOnly s.beginCommand)
  | sendAll => exact (sendAll_wireOnly _ s.beginCommand).keepsLine
  | setAt =>
    rw [storeSetAt_eq]
    exact ⟨rfl, rfl, rfl, rfl, rfl, rfl, rfl, rfl, rfl⟩
  | setAll =>
    rw [storeSetAll_eq]
    exact ⟨rfl, rfl, rfl, rfl, rfl, rfl, rfl, rfl, rfl⟩
  | sendAllIgnored | getAt => exact ⟨rfl, rfl, rfl, rfl, rfl, rfl, rfl, rfl, rfl⟩

theorem KeepsLine.refl (s : State) : KeepsLine s s := ⟨rfl, rfl, rfl, rfl, rfl, rfl, rfl, rfl, rfl⟩

theorem KeepsLine.trans {s t u : State} (h : KeepsLine s t) (h' : KeepsLine t u) : KeepsLine s u where
  configured := h'.configured.trans h.configured
  buffered := h'.buffered.trans h.buffered
  portDir := h'.portDir.trans h.portDir
  pinMask := h'.pinMask.trans h.pinMask
  count := h'.count.trans h.count
  params := h'.params.trans h.params
  host := h'.host.trans h.host
  work := h'.work.trans h.work
  draws := h'.draws.trans h.draws

theorem execList_keepsLine {is : List Instr} {s t : State} (his : ∀ i ∈ is, isInit i = false)
    (h : execList is s = .next t) : KeepsLine s t :=
  execList_keeps (P := KeepsLine s) (fun hi hs ht => hs.trans (onlyInitConfigures _ _ _ hi ht)) his (.refl s) h

/-! ### Commands that drive no phase -/

/-- A command on an idle block that drives no phase leaves nothing of itself but the entries and the response it wrote (R19). -/
theorem quick_eq {s : State} (hb : s.busy = false) (m : Memory) (r : Option RspWord) :
    ({ s with busy := true, store := m, rsp := r } : State).setBusy false = { s with store := m, rsp := r } :=
  setBusy_self (s := { s with store := m, rsp := r }) hb

/-- The range test as the spec writes it (R40). -/
theorem State.holdsIndex_iff {s : State} {index : Idx} :
    s.holdsIndex index = true ↔ s.buffered = true ∧ index.toNat < s.count.toNat := by
  simp [State.holdsIndex, BitVec.lt_def]

theorem exec_setAt {s : State} (hb : s.busy = false) (index : Idx) (c : Colour) :
    exec (.setAt index c) s = .next { s with
      store := if s.holdsIndex (idxOperand s.params index) = true then s.store.write (idxOperand s.params index).toNat c
        else s.store
      rsp := none } := by
  rw [exec_of_completes .setAt, storeSetAt_eq]
  exact congrArg Host.Outcome.next (quick_eq hb _ _)

theorem exec_setAll {s : State} (hb : s.busy = false) (c : Colour) :
    exec (.setAll c) s = .next { s with
      store := if s.buffered = true then s.store.fill s.count.toNat c else s.store
      rsp := none } := by
  rw [exec_of_completes .setAll, storeSetAll_eq]
  exact congrArg Host.Outcome.next (quick_eq hb _ _)

theorem exec_getAt {s : State} (hb : s.busy = false) (index : Idx) :
    exec (.getAt index) s = .next { s with rsp := some (getAtResponse (idxOperand s.params index) s) } := by
  rw [exec_of_completes .getAt]
  exact congrArg Host.Outcome.next (quick_eq hb _ _)

/-- Settles O27: with no store SENDALL begins and ends, at the sequencer's resting value. -/
theorem sendAllUnbuffered : Obligations.SendAllUnbuffered := by
  unfold Obligations.SendAllUnbuffered
  intro s h hb
  rw [exec_of_completes (.sendAllIgnored hb), State.endCommand, goto_self (show s.beginCommand.seq = Seq.rest from h.atRest)]
  exact congrArg Host.Outcome.next (quick_eq h.idle _ _)

/-- Settles O20: a read after the one write, or with no write at all. -/
theorem setAtCompletes : Obligations.SetAtCompletes := by
  unfold Obligations.SetAtCompletes
  intro index c s h
  refine ⟨_, exec_setAt h.idle index c, fun j => ?_⟩
  by_cases held : s.holdsIndex (idxOperand s.params index) = true
  · obtain ⟨hb, hlt⟩ := State.holdsIndex_iff.1 held
    rw [if_pos held, Memory.read_write h.storeWf]
    simp [hb, hlt]
  · rw [if_neg held, if_neg fun ⟨hb, hlt, _⟩ => held (State.holdsIndex_iff.2 ⟨hb, hlt⟩)]

/-- Settles O22: a read after a fill, or with no store. -/
theorem setAllCompletes : Obligations.SetAllCompletes := by
  unfold Obligations.SetAllCompletes
  intro c s h
  refine ⟨_, exec_setAll h.idle c, fun j => ?_⟩
  by_cases hb : s.buffered = true
  · rw [if_pos hb, Memory.read_fill h.storeWf]
    simp [hb]
  · simp [hb]

/-- SETAT at 0 to `n - 1` in order, none past COUNT: the entries are filled up to `n`, or there is no store (R91). -/
theorem execList_setAts {s : State} (h : Inv s) (hr : s.rsp = none) (c : Colour) {n : Nat} (hn : n ≤ s.count.toNat) :
    execList ((List.range n).map fun i => Instr.setAt (BitVec.ofNat 16 i) c) s =
      .next { s with store := if s.buffered = true then s.store.fill n c else s.store, rsp := none } := by
  induction n with
  | zero =>
    rw [← hr]
    simp [Memory.fill, execList]
  | succ n ih =>
    have index : (BitVec.ofNat 16 n).toNat = n := Nat.mod_eq_of_lt (by have := s.count.isLt; omega)
    have operand : idxOperand s.params (BitVec.ofNat 16 n) = BitVec.ofNat 16 n :=
      idxOperand_of_lt (by have := h.countFits; omega)
    rw [List.range_succ, List.map_append, execList_append_of_next (ih (by omega)), List.map_singleton,
      execList_cons_of_next (exec_setAt (by exact h.idle) _ c)]
    simp only [operand, index, execList, State.holdsIndex_iff, Memory.fill_succ]
    by_cases hb : s.buffered = true
    · simp [hb, show n < s.count.toNat by omega]
    · simp [hb]

/-- Settles O23: both fill the entries up to COUNT. -/
theorem setAllIsSetAts : Obligations.SetAllIsSetAts := by
  unfold Obligations.SetAllIsSetAts
  intro c s h hr
  rw [exec_setAll h.idle, execList_setAts h hr c le_rfl]

/-! ### The response -/

theorem rspOf_valid (v : Bool) (c : Colour) : (rspOf v c).getLsbD 24 = v := by
  rw [rspOf, BitVec.getLsbD_append]
  exact flagBit_get v

/-- The channels of a response, in their places (R65). -/
theorem rspOf_fields (v : Bool) (c : Colour) :
    (rspOf v c).extractLsb' 16 8 = c.r ∧ (rspOf v c).extractLsb' 8 8 = c.g ∧ (rspOf v c).extractLsb' 0 8 = c.b := by
  obtain ⟨hr, hg, hb⟩ := packColour_fields c
  refine ⟨?_, ?_, ?_⟩
  · rw [rspOf, field_low _ _ (by omega), hr]
  · rw [rspOf, field_low _ _ (by omega), hg]
  · rw [rspOf, field_low _ _ (by omega), hb]

theorem rspOf_true (c : Colour) : rspOf true c = 1#1 ++ c.r ++ c.g ++ c.b := by
  show (1#1 ++ (c.r ++ (c.g ++ c.b)) : BitVec (1 + (8 + (8 + 8)))) = (1#1 ++ c.r ++ c.g ++ c.b : BitVec (1 + 8 + 8 + 8))
  rw [BitVec.append_assoc, BitVec.append_assoc]
  rfl

theorem getAtResponse_of_holds {s : State} {index : Idx} (hb : s.buffered = true) (hlt : index.toNat < s.count.toNat) :
    getAtResponse index s = rspOf true (s.store.read index.toNat) :=
  if_pos (State.holdsIndex_iff.2 ⟨hb, hlt⟩)

/-- Settles O24: the response is the entry's, or all zero where the range test fails. -/
theorem getAtCompletes : Obligations.GetAtCompletes := by
  unfold Obligations.GetAtCompletes
  intro index s h
  refine ⟨_, exec_getAt h.idle index, fun ⟨hb, hlt⟩ => ?_, fun absent => ?_⟩
  · rw [getAtResponse_of_holds hb hlt]
    exact ⟨rspOf_valid true _, rspOf_fields true _⟩
  · have fails : ¬ s.holdsIndex (idxOperand s.params index) = true := fun held => by
      obtain ⟨hb, hlt⟩ := State.holdsIndex_iff.1 held
      rcases absent with ha | hge
      · exact absurd (hb.symm.trans ha) (by decide)
      · omega
    rw [getAtResponse, if_neg fails]
    rfl

end Sys2Proof.Machine
end

section
/-! PROOFS. INIT (R86 to R88): its refusals, what it leaves, a second one with the same operands, and one that names another pin. -/

namespace Sys2Proof.Machine

/-- INIT is refused for the reason its first step finds (R86 step 1). -/
theorem exec_init_refused {pin : Byte} {count : Idx} {buffered : Bool} {s : State} {r : Refusal}
    (h : initRefusal pin (idxOperand s.params count) buffered s = some r) : exec (.init pin count buffered) s = .refused r := by
  simp [exec, execInit, h]

/-- Settles O15: the pin is tested first, then the count of a buffered INIT. -/
theorem initRefused : Obligations.InitRefused := by
  unfold Obligations.InitRefused
  intro pin count buffered s
  constructor
  · intro hpin
    exact exec_init_refused (if_pos hpin)
  · intro hpin hb hcount
    exact exec_init_refused ((if_neg (Nat.not_le.2 hpin)).trans (if_pos (by simp [hb, hcount])))

/-! ### What INIT leaves -/

/-- What an INIT that completes leaves of the state but for the line, the store and the trace (R86 steps 2 to 4). -/
structure InitLeaves (pin : Byte) (count : Idx) (s t : State) : Prop where
  pinMask : t.pinMask = pinBit pin
  count : t.count = idxOperand s.params count
  portDir : t.portDir = s.portDir ||| pinBit pin
  configured : t.configured = true
  x : t.x = Colour.black
  rsp : t.rsp = none
  params : t.params = s.params
  host : t.host = s.host
  work : t.work = s.work
  draws : t.draws = s.draws

theorem exec_init_leaves {pin : Byte} {count : Idx} {buffered : Bool} {s t : State}
    (h : exec (.init pin count buffered) s = .next t) : InitLeaves pin count s t := by
  cases completes_of_exec h with
  | init =>
    have w := initPulse_wireOnly pin (idxOperand s.params count) s.beginCommand
    rw [initStore_eq]
    exact ⟨w.pinMask, w.count, w.portDir, w.configured, w.x, w.rsp, w.params, w.host, w.work, w.draws⟩

/-- The blanking pulse is the 24 0-bits of black (R68, R86 step 4). -/
theorem initEvents_eq (p : Params) : initEvents p = pixelEvents p Colour.black ++ [latchEvent p] := rfl

/-- INIT appends its blanking pulse and a latch, and leaves the new pin's line low and every other port bit as it was. -/
theorem exec_init_pulse {pin : Byte} {count : Idx} {buffered : Bool} {s t : State} (hi : s.irqInhibit = false)
    (h : exec (.init pin count buffered) s = .next t) :
    t.trace = s.trace ++ initEvents s.params ∧ t.portOut = s.portOut &&& ~~~pinBit pin := by
  cases completes_of_exec h with
  | init =>
    have pulse := sendPixel_sends 0 (initLine pin (idxOperand s.params count) s.beginCommand) (pinBit_ne_zero pin) hi
    have w := sendPixel_wireOnly 0 (initLine pin (idxOperand s.params count) s.beginCommand)
    have latched := latchSeq_sends _ (by rw [w.pinMask]; exact pinBit_ne_zero pin) pulse.notInhibited
    have sent := (pulse.trans latched).trace
    have low := portOut_of_low (initPulse_wireOnly pin (idxOperand s.params count) s.beginCommand) latched.lineLow
    rw [w.params] at sent
    rw [initStore_eq, initEvents_eq]
    exact ⟨sent, low⟩

/-- Settles O16: an INIT without a refusal completes, and its transmission's frame says what it leaves. -/
theorem initCompletes : Obligations.InitCompletes := by
  unfold Obligations.InitCompletes
  intro pin count buffered s h hpin hcount
  have ht := exec_of_completes (.init (initRefusal_none.2 ⟨hpin, hcount⟩))
  have leaves := exec_init_leaves ht
  obtain ⟨htrace, hout⟩ := exec_init_pulse h.notInhibited ht
  exact ⟨_, ht, leaves.pinMask, leaves.count, leaves.portDir, hout, leaves.configured, (exec_init_store ht).1, leaves.x, htrace,
    leaves.rsp, (exec_inv h ht).restState, leaves.params, leaves.host, leaves.work, leaves.draws⟩

/-! ### A second INIT with the same operands -/

/-- An INIT that finds BUFFERED and COUNT as its operands have them keeps the store, unless `REINIT_CLEARS` (R43). -/
theorem exec_init_keeps_store {pin : Byte} {count : Idx} {buffered : Bool} {s t : State} (h : Inv s)
    (hb : s.buffered = buffered) (hn : s.count = idxOperand s.params count) (hr : s.params.reinitClears = false)
    (ht : exec (.init pin count buffered) s = .next t) : t.store = s.store := by
  rw [(exec_init_store ht).2]
  cases buffered with
  | true => simp [hb, hn, hr]
  | false => simp [h.storeAbsent hb]

/-- Settles O18: the commands between the two INITs keep what the first left, and the second writes the same again. -/
theorem initIdempotent : Obligations.InitIdempotent := by
  unfold Obligations.InitIdempotent
  intro pin count buffered s t u v is h ht his hu hv
  have first := exec_init_leaves ht
  have keeps := execList_keepsLine his hu
  have second := exec_init_leaves hv
  have hinv : Inv u := execList_inv (exec_inv h ht) hu
  have hb : t.buffered = buffered := (exec_init_store ht).1
  have params : u.params = s.params := keeps.params.trans first.params
  refine ⟨second.pinMask.trans first.pinMask.symm, ?_, ?_, second.configured.trans first.configured.symm,
    (exec_init_store hv).1.trans hb.symm, fun hr => ?_, ?_⟩
  · rw [second.count, first.count, params]
  · rw [second.portDir, keeps.portDir, first.portDir, BitVec.or_assoc, BitVec.or_self]
  · exact exec_init_keeps_store hinv (keeps.buffered.trans hb) (by rw [keeps.count, first.count, params])
      (by rw [params, hr]) hv
  · rw [(exec_init_pulse hinv.notInhibited hv).1, params]

/-! ### An INIT that names another pin -/

theorem pinBit_getLsbD (pin k : Byte) : (pinBit pin).getLsbD k.toNat = decide (pin = k) := by
  rw [BitVec.getLsbD, pinBit_toNat, Nat.testBit_two_pow]
  simp [BitVec.toNat_inj]

/-- The pin is an output, low, and not the one PINMASK selects (R88). -/
structure Released (old : Byte) (s : State) : Prop where
  output : s.portDir.getLsbD old.toNat = true
  low : s.portOut.getLsbD old.toNat = false
  unselected : s.pinMask.getLsbD old.toNat = false

/-- A command moves no port bit that PINMASK does not select after it, and clears no direction bit (O32): an output that is low and
not selected is released. -/
theorem released_of_exec {old : Byte} {i : Instr} {s t : State} (hdir : s.portDir.getLsbD old.toNat = true)
    (hlow : s.portOut.getLsbD old.toNat = false) (ht : t.pinMask.getLsbD old.toNat = false) (h : exec i s = .next t) :
    Released old t := by
  obtain ⟨hout, hdir'⟩ := otherPortBitsKept i s t h
  refine ⟨?_, ?_, ht⟩
  · rcases hdir' with e | e <;> simp [e, hdir]
  · have bit := congrArg (fun v : PortBits => v.getLsbD old.toNat) hout
    have hlt : old.toNat < 256 := old.isLt
    simpa only [BitVec.getLsbD_and, BitVec.getLsbD_not, ht, hlow, hlt, decide_true, Bool.not_false, Bool.and_true] using bit

/-- The pin INIT selects is the one it names. -/
theorem exec_init_unselects {old pin : Byte} {count : Idx} {buffered : Bool} {s t : State} (hne : pin ≠ old)
    (h : exec (.init pin count buffered) s = .next t) : t.pinMask.getLsbD old.toNat = false := by
  rw [(exec_init_leaves h).pinMask, pinBit_getLsbD]
  exact decide_eq_false hne

/-- A released pin stays so under every command that does not name it (R88). -/
theorem Released.exec {old : Byte} {i : Instr} {s t : State} (hi : namesPin old i = false) (h : Released old s)
    (ht : Machine.exec i s = .next t) : Released old t := by
  refine released_of_exec h.output h.low ?_ ht
  cases i with
  | init pin => exact exec_init_unselects (by simpa [namesPin] using hi) ht
  | send1 | latch | setAt | setAll | sendAll | getAt =>
    rw [(onlyInitConfigures _ s t rfl ht).pinMask]
    exact h.unselected

/-- The pin of a configured block is an output and low (R33.2, R33.4). -/
theorem Inv.selected_pin {s : State} (h : Inv s) (hc : s.configured = true) {pin : Byte} (hp : s.pinMask = pinBit pin) :
    s.portDir.getLsbD pin.toNat = true ∧ s.portOut.getLsbD pin.toNat = false := by
  have hdir := congrArg (fun v : PortBits => v.getLsbD pin.toNat) (h.pinIsOutput hc)
  have hlow : s.portOut &&& s.pinMask = 0 := by simpa [State.line] using h.lineLow hc
  have hbit := congrArg (fun v : PortBits => v.getLsbD pin.toNat) hlow
  rw [hp] at hdir hbit
  simp only [BitVec.getLsbD_and, pinBit_getLsbD, decide_true, Bool.and_true] at hdir hbit
  exact ⟨hdir, hbit.trans (by simp)⟩

/-- Settles O19: the INIT releases the old pin, and every command after it keeps it released. -/
theorem initLeavesOldPin : Obligations.InitLeavesOldPin := by
  unfold Obligations.InitLeavesOldPin
  intro old pin count buffered s t u is h hc _ hmask hne ht his hu
  obtain ⟨hdir, hlow⟩ := h.selected_pin hc hmask
  have released : Released old t := released_of_exec hdir hlow (exec_init_unselects hne ht) ht
  have still : Released old u := execList_keeps Released.exec his released hu
  exact ⟨still.output, still.low⟩

end Sys2Proof.Machine
end

section
/-! PROOFS. An entry of the store between a SETAT and a GETAT (R90). -/

namespace Sys2Proof.Machine

/-- There is a store of `count` entries in canonical form, whose entry at `index` is `c`. -/
structure HoldsEntry (p : Params) (index count : Idx) (c : Colour) (s : State) : Prop where
  params : s.params = p
  buffered : s.buffered = true
  count : s.count = count
  wf : s.store.wf = true
  entry : s.store.read index.toNat = c

/-- A command other than INIT keeps the entry if it does not write it. -/
theorem HoldsEntry.of_keepsLine {p : Params} {index count : Idx} {c : Colour} {i : Instr} {s t : State}
    (h : HoldsEntry p index count c s) (k : KeepsLine s t) (ht : exec i s = .next t)
    (hread : t.store.read index.toNat = s.store.read index.toNat) : HoldsEntry p index count c t :=
  ⟨k.params.trans h.params, k.buffered.trans h.buffered, k.count.trans h.count, storeStaysCanonical i s t h.wf ht,
    hread.trans h.entry⟩

/-- A SETAT at another index leaves the entry (R38). -/
theorem exec_setAt_read_of_ne {j index : Idx} {c : Colour} {s t : State} (hwf : s.store.wf = true)
    (hne : idxOperand s.params j ≠ index) (ht : exec (.setAt j c) s = .next t) :
    t.store.read index.toNat = s.store.read index.toNat := by
  cases completes_of_exec ht with
  | setAt =>
    rw [storeSetAt_eq]
    show Memory.read (if _ then _ else _) _ = _
    split
    · exact (Memory.read_write hwf _ _ c).trans (if_neg fun e => hne (BitVec.eq_of_toNat_eq e.symm))
    · rfl

/-- A command that spares the entry keeps it (R90). -/
theorem HoldsEntry.exec {p : Params} {index count : Idx} {c : Colour} {i : Instr} {s t : State}
    (hi : sparesEntry p index count i = true) (h : HoldsEntry p index count c s) (ht : Machine.exec i s = .next t) :
    HoldsEntry p index count c t := by
  have unwritten : isInit i = false → t.store = s.store → HoldsEntry p index count c t := fun hinit hstore =>
    h.of_keepsLine (onlyInitConfigures i s t hinit ht) ht (by rw [hstore])
  cases i with
  | init pin n buffered =>
    obtain ⟨⟨rfl, hn⟩, hr⟩ : (buffered = true ∧ idxOperand p n = count) ∧ p.reinitClears = false := by
      simpa [sparesEntry] using hi
    have leaves := exec_init_leaves ht
    obtain ⟨hb, hstore⟩ := exec_init_store ht
    rw [if_pos ⟨rfl, h.buffered, by rw [h.count, h.params, hn], by rw [h.params, hr]⟩] at hstore
    exact ⟨leaves.params.trans h.params, hb, by rw [leaves.count, h.params, hn], by rw [hstore]; exact h.wf,
      by rw [hstore]; exact h.entry⟩
  | setAt j d =>
    have hne : idxOperand s.params j ≠ index := by simpa [sparesEntry, h.params] using hi
    exact h.of_keepsLine (onlyInitConfigures _ s t rfl ht) ht (exec_setAt_read_of_ne h.wf hne ht)
  | setAll => cases hi
  | send1 | latch | sendAll | getAt => exact unwritten rfl (by simpa [isInit] using (whoWrites _ s t ht).2)

/-- Settles O21: the SETAT writes the entry, every command that spares it keeps it, and the GETAT reads it. -/
theorem setAtThenGetAt : Obligations.SetAtThenGetAt := by
  unfold Obligations.SetAtThenGetAt
  intro index c s t u is h hb hlt ht his hu
  have written : HoldsEntry s.params (idxOperand s.params index) s.count c t := by
    obtain ⟨m, hm, hread⟩ := setAtCompletes index c s h
    cases hm.symm.trans ht
    exact ⟨rfl, hb, rfl, storeStaysCanonical _ s _ h.storeWf ht, by simp [hread, hb, hlt]⟩
  have held : HoldsEntry s.params (idxOperand s.params index) s.count c u := execList_keeps HoldsEntry.exec his written hu
  have hinv : Inv u := execList_inv (exec_inv h ht) hu
  refine ⟨_, exec_getAt hinv.idle index, ?_⟩
  rw [held.params, getAtResponse_of_holds held.buffered (by rw [held.count]; exact hlt), held.entry, rspOf_true]

end Sys2Proof.Machine
end

section
/-! PROOFS. SENDALL (R93 to R95): what it leaves, what it appends to TRACE, and the unbuffered frame it stands for. -/

namespace Sys2Proof.Machine

/-! ### The frame -/

/-- After the walk's turn for entry `n` the colour register file holds that entry (R93). -/
theorem sendEntries_succ_x {n : Nat} (hn : n < 2 ^ 16) (s : State) : (sendEntries (n + 1) s).x = s.store.read n := by
  have index : (BitVec.ofNat 16 n).toNat = n := Nat.mod_eq_of_lt hn
  have kept : (sendEntries n s).store = s.store := (sendEntries_wireOnly n s).store
  rw [sendEntries_succ, (sendEntry_wireOnly n _).2, index, kept]

/-- The colour register file after the walk: the last entry, or as before if there was none (R93). -/
theorem sendEntries_count_x (s : State) :
    (sendEntries s.count.toNat s).x = if s.count = 0 then s.x else s.store.read (s.count.toNat - 1) := by
  by_cases h0 : s.count = 0
  · rw [if_pos h0, h0]
    rfl
  · have pos : s.count.toNat ≠ 0 := fun e => h0 (BitVec.eq_of_toNat_eq e)
    obtain ⟨n, hn⟩ := Nat.exists_eq_succ_of_ne_zero pos
    rw [if_neg h0, hn]
    exact sendEntries_succ_x (by have := s.count.isLt; omega) s

/-- Settles O25: the frame of the walk and its latch, with the colour the walk ends with. -/
theorem sendAllCompletes : Obligations.SendAllCompletes := by
  unfold Obligations.SendAllCompletes
  intro s h hb
  have ht := exec_of_completes (.sendAll hb)
  obtain ⟨hx, hout, hstore, hrsp, rest, keeps⟩ :=
    transmit_frame h (h.storeConfigured hb) (sendAll_wireOnly s.count.toNat s.beginCommand) ht
  exact ⟨_, ht, hx.trans (sendEntries_count_x s.beginCommand), hout, hstore, fun j => congrArg (·.read j) hstore, hrsp, rest,
    keeps⟩

/-! ### The events of a list of colours -/

/-- The events before the pixel of entry `i`: a gap's, unless it is the first (R93). -/
def eventsBefore (p : Params) (i : Nat) : List Event := if 0 < i then gapEvents p else []

/-- One more colour adds a gap, unless it is the first, and its pixel (R94). -/
theorem colourEvents_concat (p : Params) (cs : List Colour) (c : Colour) :
    colourEvents p (cs ++ [c]) = colourEvents p cs ++ (eventsBefore p cs.length ++ pixelEvents p c) := by
  induction cs with
  | nil => rfl
  | cons d cs ih =>
    cases cs with
    | nil => simp [colourEvents, eventsBefore]
    | cons e cs => simpa [colourEvents, eventsBefore] using ih

theorem pixelEvents_length (p : Params) (c : Colour) : (pixelEvents p c).length = 48 := by
  rw [pixelEvents, flatMap_bitEvents_length, wirebits_length]

theorem gapEvents_length (p : Params) : (gapEvents p).length = if 0 < p.gapNs then 1 else 0 := by
  unfold gapEvents
  split <;> rfl

/-- The gap events last `GAP_NS`, also where there are none. -/
theorem traceNs_gapEvents (p : Params) : traceNs (gapEvents p) = p.gapNs := by
  unfold gapEvents
  split_ifs with hg
  · simp [traceNs]
  · simp [traceNs]
    omega

theorem colourEvents_length (p : Params) (cs : List Colour) :
    (colourEvents p cs).length = 48 * cs.length + (if 0 < p.gapNs then cs.length - 1 else 0) := by
  induction cs with
  | nil => simp [colourEvents]
  | cons c cs ih =>
    cases cs with
    | nil => simp [colourEvents, pixelEvents_length]
    | cons d cs =>
      rw [colourEvents, List.length_append, List.length_append, ih, pixelEvents_length, gapEvents_length]
      simp only [List.length_cons]
      split_ifs <;> omega

theorem traceNs_colourEvents (p : Params) (cs : List Colour) :
    traceNs (colourEvents p cs) = (cs.map (pixelNs p)).sum + (cs.length - 1) * p.gapNs := by
  induction cs with
  | nil => simp [colourEvents, traceNs]
  | cons c cs ih =>
    cases cs with
    | nil => simp [colourEvents, traceNs_pixelEvents]
    | cons d cs =>
      rw [colourEvents, traceNs_append, traceNs_append, ih, traceNs_pixelEvents, traceNs_gapEvents]
      simp only [List.map_cons, List.sum_cons, List.length_cons, Nat.add_sub_cancel, Nat.succ_mul]
      omega

/-- With no gap the events of some colours are those of each in turn (R95). -/
theorem colourEvents_of_no_gap {p : Params} (hg : p.gapNs = 0) (cs : List Colour) :
    colourEvents p cs = cs.flatMap (pixelEvents p) := by
  induction cs with
  | nil => rfl
  | cons c cs ih =>
    cases cs with
    | nil => simp [colourEvents]
    | cons d cs => simp [colourEvents, gapEvents, hg, ih]

/-! ### What the walk appends -/

/-- The gap before entry `i` is a low of `GAP_NS` that interrupts may enter (R93). -/
theorem sendGap_sends (i : Nat) {s : State} (hi : s.irqInhibit = false) (hl : s.line = false) :
    Sends s (sendGap i s) (eventsBefore s.params i) := by
  unfold sendGap eventsBefore gapEvents
  by_cases h0 : 0 < i
  · by_cases hg : 0 < s.params.gapNs
    · rw [if_pos ⟨h0, hg⟩, if_pos h0, if_pos hg]
      exact ⟨by simp [State.eventOf, nominalNs, hi, hl], hi, hl⟩
    · rw [if_neg fun h => hg h.2, if_pos h0, if_neg hg]
      exact ⟨by simp, hi, hl⟩
  · rw [if_neg fun h => h0 h.1, if_neg h0]
    exact ⟨by simp, hi, hl⟩

/-- One turn of the walk appends the gap before its entry and the entry's pixel (R93). -/
theorem sendEntry_sends {i : Nat} (hlt : i < 2 ^ 16) {s : State} (hp : s.pinMask ≠ 0) (hi : s.irqInhibit = false)
    (hl : s.line = false) :
    Sends s (sendEntry i s) (eventsBefore s.params i ++ pixelEvents s.params (s.store.read i)) := by
  have index : (BitVec.ofNat 16 i).toNat = i := Nat.mod_eq_of_lt hlt
  have gap := sendGap_sends i hi hl
  have w := sendGap_wireOnly i s
  have colour : (sendGap i s).memRead (BitVec.ofNat 16 i) = s.store.read i := by rw [State.memRead, index, w.store]
  have pixel := sendPixel_sends (BitVec.ofNat 16 i) ((sendGap i s).setColour (s.store.read i))
    (by rw [State.setColour_pinMask, w.pinMask]; exact hp) gap.notInhibited
  rw [State.setColour_params, State.setColour_x, w.params] at pixel
  rw [sendEntry_eq, colour]
  exact gap.trans ⟨pixel.trace, pixel.notInhibited, pixel.lineLow⟩

/-- The walk over the first `n` entries appends their colours' events (R93, R94). -/
theorem sendEntries_sends {n : Nat} (hn : n ≤ 2 ^ 16) {s : State} (hp : s.pinMask ≠ 0) (hi : s.irqInhibit = false)
    (hl : s.line = false) :
    Sends s (sendEntries n s) (colourEvents s.params ((List.range n).map fun i => s.store.read i)) := by
  induction n with
  | zero => exact ⟨by simp [sendEntries, colourEvents], hi, hl⟩
  | succ n ih =>
    have walked := ih (by omega)
    have w := sendEntries_wireOnly n s
    have params : (sendEntries n s).params = s.params := w.params
    have store : (sendEntries n s).store = s.store := w.store
    have pinned : (sendEntries n s).pinMask = s.pinMask := w.pinMask
    have turn := sendEntry_sends (i := n) (by omega) (pinned ▸ hp) walked.notInhibited walked.lineLow
    rw [params, store] at turn
    rw [sendEntries_succ, List.range_succ, List.map_append, List.map_singleton, colourEvents_concat, List.length_map,
      List.length_range]
    exact walked.trans turn

/-- SENDALL on a Buffered store appends its entries' events and a latch (R94). -/
theorem exec_sendAll_trace {s t : State} (h : Inv s) (hb : s.buffered = true) (ht : exec .sendAll s = .next t) :
    t.trace = s.trace ++ (colourEvents s.params s.entries ++ [latchEvent s.params]) := by
  have hc := h.storeConfigured hb
  have hp : s.pinMask ≠ 0 := ne_zero_of_oneBit (h.onePin hc)
  cases completes_of_exec ht with
  | sendAllIgnored absent => exact absurd (hb.symm.trans absent) (by decide)
  | sendAll =>
    have walk := sendEntries_sends (n := s.count.toNat) (s := s.beginCommand) s.count.isLt.le hp
      h.notInhibited (h.lineLow hc)
    have w := sendEntries_wireOnly s.count.toNat s.beginCommand
    have params : (sendEntries s.count.toNat s.beginCommand).params = s.params := w.params
    have pinned : (sendEntries s.count.toNat s.beginCommand).pinMask = s.pinMask := w.pinMask
    have latched := latchSeq_sends _ (pinned ▸ hp) walk.notInhibited
    rw [params] at latched
    exact (walk.trans latched).trace

/-- Settles O26: the events of the entries and a latch, counted and added up. -/
theorem sendAllEvents : Obligations.SendAllEvents := by
  unfold Obligations.SendAllEvents
  intro s h hb
  have ht := exec_of_completes (.sendAll hb)
  have entries : s.entries.length = s.count.toNat := by simp [State.entries]
  have latch : traceNs [latchEvent s.params] = latchNs s.params := by simp [traceNs, latchEvent]
  refine ⟨_, _, ht, exec_sendAll_trace h hb ht, rfl, ?_, ?_⟩
  · rw [List.length_append, colourEvents_length, entries, List.length_singleton]
  · rw [traceNs_append, traceNs_colourEvents, entries, latch]

/-! ### The frame of SEND1s and a LATCH -/

/-- SEND1 appends its colour's events (R79). -/
theorem exec_send1_trace {c : Colour} {s t : State} (h : Inv s) (ht : exec (.send1 c) s = .next t) :
    t.trace = s.trace ++ pixelEvents s.params c := by
  obtain ⟨hc, rfl⟩ := execSend1_next ht
  exact (sendPixel_sends 0 (s.beginCommand.setColour c) (ne_zero_of_oneBit (h.onePin hc)) h.notInhibited).trace

/-- An unbuffered frame completes on a configured block, and appends its colours' events and a latch (R68). -/
theorem unbufferedFrame_trace (cs : List Colour) {s : State} (h : Inv s) (hc : s.configured = true) :
    ∃ u, execList (unbufferedFrame cs) s = .next u
      ∧ u.trace = s.trace ++ (cs.flatMap (pixelEvents s.params) ++ [latchEvent s.params]) := by
  induction cs generalizing s with
  | nil =>
    obtain ⟨t, ht, htrace, -⟩ := latchCompletes s h hc
    exact ⟨t, execList_cons_of_next ht [], htrace⟩
  | cons c cs ih =>
    have ht := exec_of_completes (.send1 (c := c) hc)
    have keeps := onlyInitConfigures _ s _ rfl ht
    obtain ⟨u, hu, htrace⟩ := ih (exec_inv h ht) (keeps.configured.trans hc)
    refine ⟨u, (execList_cons_of_next ht _).trans hu, ?_⟩
    rw [htrace, exec_send1_trace h ht, keeps.params]
    simp

/-- Settles O28: with no gap both append the entries' events, each in turn, and a latch. -/
theorem sendAllIsSends : Obligations.SendAllIsSends := by
  unfold Obligations.SendAllIsSends
  intro s t h hb hg ht
  obtain ⟨u, hu, htrace⟩ := unbufferedFrame_trace s.entries h (h.storeConfigured hb)
  exact ⟨u, hu, by rw [htrace, exec_sendAll_trace h hb ht, colourEvents_of_no_gap hg]⟩

end Sys2Proof.Machine
end

section
/-! PROOFS. What a step can refuse (R100, R102). -/

namespace Sys2Proof.Machine

/-- INIT is refused for its pin or for its store's size alone (R86 step 1). -/
theorem initRefusal_some {pin : Byte} {count : Idx} {buffered : Bool} {s : State} {r : Refusal}
    (h : initRefusal pin count buffered s = some r) : r = .pinOutOfRange ∨ r = .storeTooLarge := by
  unfold initRefusal at h
  split_ifs at h
  · exact .inl (Option.some.inj h).symm
  · exact .inr (Option.some.inj h).symm

/-- A command is refused as U1, U3 or U4. -/
theorem exec_refused_cases {i : Instr} {s : State} {r : Refusal} (h : exec i s = .refused r) :
    r = .storeTooLarge ∨ r = .pinOutOfRange ∨ r = .notConfigured := by
  cases i with
  | init pin count buffered =>
    cases hr : initRefusal pin (idxOperand s.params count) buffered s with
    | none =>
      rw [exec_of_completes (.init hr)] at h
      cases h
    | some r' =>
      rw [exec_init_refused hr] at h
      cases h
      rcases initRefusal_some hr with rfl | rfl
      · exact .inr (.inl rfl)
      · exact .inl rfl
  | send1 c =>
    cases hc : s.configured
    · rw [(transmitBeforeInitRefused c s hc).1] at h
      cases h
      exact .inr (.inr rfl)
    · rw [exec_of_completes (.send1 hc)] at h
      cases h
  | latch =>
    cases hc : s.configured
    · rw [(transmitBeforeInitRefused .black s hc).2] at h
      cases h
      exact .inr (.inr rfl)
    · rw [exec_of_completes (.latch hc)] at h
      cases h
  | setAt | setAll | sendAll | getAt => cases h

/-- What a command cut short refuses, the command refuses: a reserved word is refused by neither. -/
theorem cutShort_refused {w : CmdWord} {n : Nat} {s : State} {r : Refusal} (h : cutShort w n s = .refused r) :
    ∃ i, exec i s = .refused r := by
  unfold cutShort at h
  split at h
  · cases h
  · next i hd =>
    split at h <;> cases h
    next ha => exact ⟨i, exec_refused_iff.2 ha⟩

/-- A step refuses only what a command refuses: waiting, a reset, a clock period and a reserved word do not. -/
theorem step_refused {s : State} {r : Refusal} (h : step s = .refused r) : ∃ i u, exec i u = .refused r := by
  unfold step at h
  split_ifs at h
  split at h
  · cases h
  · cases h
  · next w es hh =>
    unfold runWord at h
    split at h
    · next i hd => exact ⟨i, _, h⟩
    · cases h
  · next w n es hh =>
    obtain ⟨i, hi⟩ := cutShort_refused h
    exact ⟨i, _, hi⟩

/-- Settles O7: there is no fault to raise, and a refused step is a refused command. -/
theorem onlyTheSpecsRefusals : Obligations.OnlyTheSpecsRefusals := by
  unfold Obligations.OnlyTheSpecsRefusals
  intro s
  refine ⟨nofun, fun r h => ?_⟩
  obtain ⟨i, u, hi⟩ := step_refused h
  exact exec_refused_cases hi

end Sys2Proof.Machine
end

section
/-! PROOFS. What interrupt service does to the realised trace of a command (R105 to R108): the two traces grow in step, and what each
kind of phase says of its span. -/

namespace Sys2Proof.Machine

/-! ### Traces that agree, event for event -/

/-- Two traces agree exactly where they are equally long and each span realises its event (R107). -/
theorem tracesAgree_iff_forall₂ {p : Params} {es : List Event} {us : List Span} :
    tracesAgree p es us = true ↔ List.Forall₂ (fun e u => realises p e u = true) es us := by
  induction es generalizing us with
  | nil => cases us <;> simp [tracesAgree]
  | cons e es ih => cases us <;> simp [tracesAgree, ih]

theorem tracesAgree_of_append {p : Params} {es fs : List Event} {us vs : List Span}
    (h : tracesAgree p (es ++ fs) (us ++ vs) = true) (h' : tracesAgree p es us = true) : tracesAgree p fs vs = true := by
  rw [tracesAgree_iff_forall₂] at h h' ⊢
  have rest := List.forall₂_drop_append _ _ _ h
  rwa [← h'.length_eq, List.drop_left] at rest

/-- A command appends to both traces in step: they agree before it and after it (R33, R107). -/
theorem exec_inStep {i : Instr} {s t : State} (h : Inv s) (ht : exec i s = .next t) : InStep s t := by
  obtain ⟨es, us, htrace, hwire, -⟩ := traceOnlyGrows i s t ht
  have agree := (exec_inv h ht).realised
  rw [(completes_of_exec ht).params_eq, htrace, hwire] at agree
  exact ⟨es, us, htrace, hwire, tracesAgree_of_append agree h.realised⟩

/-! ### What a realised event says of its span -/

theorem realises_level {p : Params} {e : Event} {u : Span} (h : realises p e u = true) : u.level = e.level := by
  simp only [realises, Bool.and_eq_true, beq_iff_eq] at h
  exact h.1.1

theorem periodUnits_pos : 0 < periodUnits := by norm_num [periodUnits]

/-- A bit phase that is not inhibited lasts no less than its count, in whole periods (R107). -/
theorem realises_open_bitPhase {p : Params} {e : Event} {u : Span} (h : realises p e u = true)
    (hb : isBitPhase u.phase = true) (hi : e.inh = false) :
    cycles p e.dur * periodUnits ≤ u.width p ∧ periodUnits ∣ u.width p := by
  unfold realises at h
  rw [Nat.dvd_iff_mod_eq_zero]
  cases hph : u.phase <;> rw [hph] at h hb
  case latch | gap => cases hb
  all_goals
    simp only [hi, Bool.false_eq_true, if_false, Bool.and_eq_true, decide_eq_true_eq, beq_iff_eq] at h
    exact h.2

/-- A bit phase lasts its count and a whole number of periods, none if it is inhibited (R107). -/
theorem realises_bitPhase {p : Params} {e : Event} {u : Span} (h : realises p e u = true)
    (hb : isBitPhase u.phase = true) : ∃ k, u.width p = (cycles p e.dur + k) * periodUnits := by
  cases hi : e.inh
  · obtain ⟨least, n, hn⟩ := realises_open_bitPhase h hb hi
    rw [hn, Nat.mul_comm] at least
    obtain ⟨k, rfl⟩ := Nat.exists_eq_add_of_le (Nat.le_of_mul_le_mul_left least periodUnits_pos)
    exact ⟨k, hn.trans (Nat.mul_comm _ _)⟩
  · exact ⟨0, by rw [Nat.add_zero, realises_inhibited h hi]⟩

/-- A gap lasts at least its nominal time (R107). -/
theorem realises_gap {p : Params} {e : Event} {u : Span} (h : realises p e u = true) (hph : u.phase = .gap) :
    p.gapNs * p.fClk ≤ u.width p := by
  simp only [realises, hph, nominalNs, Bool.and_eq_true, beq_iff_eq, decide_eq_true_eq] at h
  obtain ⟨⟨-, hdur⟩, -, least⟩ := h
  rwa [hdur] at least

theorem inhibitedOk_of_inh {p : Params} {e : Event} (h : inhibitedOk p e = true) (hi : e.inh = true) :
    e.level = true ∧ e.dur = p.t0hNs := by
  simpa [inhibitedOk, hi] using h

/-- Settles O37: what a command appends is in step (R107), and by the invariant it leaves the inhibited events are the highs of
`T0H_NS` (R33.5). -/
theorem inhibitedNeverStretched : Obligations.InhibitedNeverStretched := by
  unfold Obligations.InhibitedNeverStretched
  intro i s t h ht
  obtain ⟨es, us, htrace, hwire, agree⟩ := exec_inStep h ht
  have paired := tracesAgree_iff_forall₂.1 agree
  refine ⟨es, us, htrace, hwire, paired.length_eq, fun e u hm => ?_⟩
  have real : realises s.params e u = true := (List.forall₂_iff_zip.1 paired).2 hm
  have mem : e ∈ t.trace := htrace ▸ List.mem_append_right _ (List.of_mem_zip hm).1
  have allowed := (exec_inv h ht).inhibited e mem
  rw [(completes_of_exec ht).params_eq] at allowed
  refine ⟨realises_level real, fun hi => ?_, realises_bitPhase real, realises_latch real, realises_gap real⟩
  obtain ⟨high, dur⟩ := inhibitedOk_of_inh allowed hi
  exact ⟨high, dur ▸ realises_inhibited real hi⟩

/-! ### Deferred service -/

/-- An inhibited bit phase of as many periods as the schedule lists takes the whole schedule, and defers each of its stalls
(R106). -/
theorem Timer.run_inhibited_defers (ps : List Period) (t : Timer) (h : 0 < t.tmr) (hl : ps.length = t.tmr) :
    (Timer.run true true ps t).1.pending = t.pending + (ps.filter (·.stall)).length
      ∧ (Timer.run true true ps t).2 = [] := by
  induction ps generalizing t with
  | nil => exact absurd hl h.ne
  | cons p ps ih =>
    rw [List.length_cons] at hl
    have tmr : (t.period true p).tmr = ps.length := by simp [Timer.period, Period.honoured]; omega
    have pending : (t.period true p).pending + (ps.filter (·.stall)).length =
        t.pending + ((p :: ps).filter (·.stall)).length := by
      cases hs : p.stall
      · simp [Timer.period, Period.honoured, hs]
      · simp [Timer.period, Period.honoured, hs]
        omega
    have ends : (t.period true p).over true true p = true ↔ ps = [] := by
      simp [Timer.over, Period.honoured, tmr]
    rw [Timer.run]
    split_ifs with ho
    · obtain rfl := ends.1 ho
      exact ⟨by simpa using pending, rfl⟩
    · obtain ⟨deferred, taken⟩ := ih (t.period true p) (tmr ▸ List.length_pos_of_ne_nil (mt ends.2 ho)) tmr.symm
      exact ⟨deferred.trans pending, taken⟩

/-- The low phase of a 0-bit that no schedule disturbs lasts its count and the service deferred to it (R106). -/
theorem hold_t0l_serves {s : State} (hi : s.irqInhibit = false) (hc : s.clock = []) :
    ((s.startPhase .t0l).runPhase .t0l).timer.elapsed = cycles s.params s.params.t0lNs + s.timer.pending := by
  have pos := cycles_pos s.params s.params.t0lNs
  simp only [State.runPhase_timer, State.startPhase_timer, State.startPhase_irqInhibit, State.startPhase_clock, hi, hc,
    Timer.load_open, Timer.run, phaseCycles, nominalNs]
  omega

/-- The high phase of a 0-bit under a schedule of its own length: its count of periods, each stall deferred and the schedule used up
(R105, R106). -/
theorem hold_t0h_defers {s : State} (hi : s.irqInhibit = true) (hl : s.clock.length = cycles s.params s.params.t0hNs) :
    ((s.startPhase .t0h).runPhase .t0h).timer.elapsed = cycles s.params s.params.t0hNs
      ∧ (s.hold .t0h).timer.pending = s.timer.pending + (s.clock.filter (·.stall)).length
      ∧ (s.hold .t0h).clock = [] := by
  have pos := cycles_pos s.params s.params.t0hNs
  have lasts := (Timer.run_inhibited s.clock ⟨cycles s.params s.params.t0hNs, s.timer.pending, 0, 0, 0⟩ pos).1
  have defers := Timer.run_inhibited_defers s.clock ⟨cycles s.params s.params.t0hNs, s.timer.pending, 0, 0, 0⟩ pos hl
  rw [Nat.zero_add] at lasts
  rw [State.hold_timer, State.hold_clock]
  simp only [State.runPhase_timer, State.runPhase_clock, State.startPhase_timer, State.startPhase_irqInhibit,
    State.startPhase_clock, hi, Timer.load_inhibited, phaseCycles, nominalNs, isBitPhase]
  exact ⟨lasts, defers⟩

/-- A 0-bit at its rising edge: the inhibit set and the line high (R74). -/
def State.bit0Rise (s : State) : State := (s.setInhibit true).drive true

/-- A 0-bit at its falling edge: the high phase held, the line low and the inhibit released (R74, D13). -/
def State.bit0Fall (s : State) : State := ((s.bit0Rise.hold .t0h).drive false).setInhibit false

theorem State.bit0Fall_params (s : State) : s.bit0Fall.params = s.params := by simp [State.bit0Fall, State.bit0Rise]

theorem bit0_eq_hold (s : State) : bit0 s = s.bit0Fall.hold .t0l := rfl

theorem bit0_wire (s : State) :
    (bit0 s).wire = s.wire ++ [((s.bit0Rise.startPhase .t0h).runPhase .t0h).spanOf .t0h,
      ((s.bit0Fall.startPhase .t0l).runPhase .t0l).spanOf .t0l] := by
  have fall : s.bit0Fall.wire = s.wire ++ [((s.bit0Rise.startPhase .t0h).runPhase .t0h).spanOf .t0h] :=
    State.hold_wire .t0h s.bit0Rise
  rw [bit0_eq_hold, State.hold_wire, fall, List.append_assoc, List.singleton_append]

/-- The low phase of a 0-bit begins with the stalls of the high phase deferred and no schedule left, where the schedule is as long as
the high phase. -/
theorem bit0Fall_owes {s : State} (ht : s.timer.pending = 0) (hl : s.clock.length = cycles s.params s.params.t0hNs) :
    s.bit0Fall.timer.pending = (s.clock.filter (·.stall)).length ∧ s.bit0Fall.clock = [] := by
  obtain ⟨-, deferred, taken⟩ := hold_t0h_defers (s := s.bit0Rise) rfl hl
  have rise : s.bit0Rise.timer.pending = 0 := ht
  rw [rise, Nat.zero_add] at deferred
  exact ⟨deferred, taken⟩

/-- Settles O38: the high phase defers its stalls and uses the schedule up, so the low phase is loaded with them and not disturbed. -/
theorem deferredServiceServed : Obligations.DeferredServiceServed := by
  unfold Obligations.DeferredServiceServed
  intro s ps _ ht hl
  set u : State := { s with clock := ps }
  have lasts := (hold_t0h_defers (s := u.bit0Rise) rfl hl).1
  obtain ⟨owed, taken⟩ := bit0Fall_owes (s := u) (congrArg Timer.pending ht) hl
  have served := hold_t0l_serves (s := u.bit0Fall) rfl taken
  have rest : (bit0 u).timer = Timer.rest := hold_timer_rest .t0l u.bit0Fall rfl
  rw [owed, State.bit0Fall_params] at served
  exact ⟨_, _, bit0_wire u, lasts, served, congrArg Timer.pending rest⟩

end Sys2Proof.Machine
end

section
/-! PROOFS. The machine before its first INIT (R124), the cycle counts at the sample clocks (R135), and what a reset leaves of a command in
progress (R120, R122). -/

namespace Sys2Proof.Machine

/-! ### Before the first INIT -/

/-- There is no store before the first INIT (R33.1). -/
theorem Inv.no_store {s : State} (h : Inv s) (hc : s.configured = false) : s.buffered = false :=
  Bool.eq_false_iff.2 fun hb => absurd (h.storeConfigured hb) (by simp [hc])

/-- No index is in range of a store that does not exist (R40, IC1). -/
theorem State.holdsIndex_of_absent {s : State} (hb : s.buffered = false) (index : Idx) : s.holdsIndex index = false := by
  simp [State.holdsIndex, hb]

/-- With no store GETAT answers an all-zero response (R97, IC1). -/
theorem getAtResponse_of_absent {s : State} (hb : s.buffered = false) (index : Idx) : getAtResponse index s = 0 := by
  rw [getAtResponse, State.holdsIndex_of_absent hb]
  rfl

/-- Settles O29: before the first INIT there is no store, so the store's commands find nothing to read or write, and the transmissions
are refused; an INIT in range completes and a reserved word is ignored, as in any state. -/
theorem beforeInit : Obligations.BeforeInit := by
  unfold Obligations.BeforeInit
  intro s h hc
  have absent := h.no_store hc
  refine ⟨fun pin count buffered hpin hcount => ?_, fun index c => ?_, fun c => ?_, sendAllUnbuffered s h absent,
    fun index => ?_, fun c => (transmitBeforeInitRefused c s hc).1, (transmitBeforeInitRefused .black s hc).2,
    fun w es hop => reservedWordIgnored _ w es h.idle rfl hop.symm⟩
  · have ht := exec_of_completes (.init (initRefusal_none.2 ⟨hpin, hcount⟩))
    exact ⟨_, ht, (exec_init_leaves ht).configured, (exec_init_store ht).1⟩
  · rw [exec_setAt h.idle, State.holdsIndex_of_absent absent]
    rfl
  · rw [exec_setAll h.idle, absent]
    rfl
  · rw [exec_getAt h.idle, getAtResponse_of_absent absent]

/-! ### The cycle counts -/

/-- Settles O40: the ten rows are closed arithmetic. -/
theorem cycleTable : Obligations.CycleTable := by
  unfold Obligations.CycleTable
  decide

/-! ### What a reset leaves -/

/-- A reset leaves the reset state, from any state (R32, R120). -/
theorem warmReset_isReset (s : State) : IsReset s.warmReset :=
  ⟨⟨rfl, rfl, rfl, rfl⟩, rfl, rfl, rfl, rfl, rfl, rfl, rfl, rfl⟩

/-- A reset moves no port bit outside PINMASK (R120, U2). -/
theorem warmReset_outside (s : State) : s.warmReset.portOut &&& ~~~s.pinMask = s.portOut &&& ~~~s.pinMask := by
  rw [State.warmReset_portOut]
  split_ifs
  · rfl
  · exact s.drive_outside _

/-- Settles O46: the edge is `warmReset`, which drives the line only where a transmission is cut short. -/
theorem resetEdge : Obligations.ResetEdge := by
  unfold Obligations.ResetEdge
  intro inp s hr
  exact ⟨s.warmReset, if_pos hr, warmReset_isReset s, rfl, rfl, warmReset_outside s, fun idle => if_pos idle⟩

/-! ### A reset while a command is in progress -/

theorem busyStep_runKeeps (s : State) : RunKeeps s (busyStep s) := by
  obtain ⟨p, ps, e⟩ := busyStep_eq s
  have taken : RunKeeps s (s.setClock ps) := ⟨rfl, rfl, rfl, rfl, rfl, rfl⟩
  rw [e]
  exact taken.trans (busyTick_runKeeps p _)

theorem busyRun_runKeeps (n : Nat) (s : State) : RunKeeps s (busyRun n s) := by
  induction n generalizing s with
  | zero => exact .refl s
  | succ n ih =>
    rw [busyRun]
    split_ifs
    · exact (busyStep_runKeeps s).trans (ih _)
    · exact .refl s

/-- Accepting a command takes nothing from the host, changes no parameter and clears no direction bit (R23, R66). -/
theorem Accepts.frame {i : Instr} {s a : State} (h : Accepts s i a) :
    a.host = s.host ∧ a.params = s.params ∧ a.portDir &&& s.portDir = s.portDir := by
  have begun (w : Option Work) : RunKeeps s (s.beginCommand.setWork w) := ⟨rfl, rfl, rfl, rfl, rfl, rfl⟩
  have same {t : State} (k : RunKeeps s t) : t.host = s.host ∧ t.params = s.params ∧ t.portDir &&& s.portDir = s.portDir :=
    ⟨k.host, k.params, by rw [k.portDir, BitVec.and_self]⟩
  cases h with
  | @init pin count buffered =>
    have w := enterPixel_wireOnly 0 ((initLine pin (idxOperand s.params count) s.beginCommand).setWork
      (some (.init (idxOperand s.params count) buffered s.count)))
    have dir : (s.portDir ||| pinBit pin) &&& s.portDir = s.portDir := by
      ext i hi
      simp +contextual
    exact ⟨w.host, w.params, by rw [w.portDir]; exact dir⟩
  | send1 => exact same (((begun _).trans (setColour_runKeeps _ _)).trans (enterPixel_wireOnly 0 _).runKeeps)
  | latch => exact same ((begun _).trans (enterLatch_wireOnly _).runKeeps)
  | sendAllEmpty => exact same ((begun _).trans (enterLatch_wireOnly _).runKeeps)
  | sendAll => exact same ((beginCommand_runKeeps s).trans (enterEntry_runKeeps 0 _))
  | quick => exact same (begun _)

/-- Settles O47: the step ends in a reset, of the state the block has come to where the word was accepted. -/
theorem resetAbandons : Obligations.ResetAbandons := by
  unfold Obligations.ResetAbandons
  intro s t w n es hb hh ht
  have cut : cutShort w n (s.setHost es) = .next t := by simpa [step, hb, hh] using ht
  rcases cutShort_cases cut with rfl | ⟨i, a, -, ha, rfl⟩
  · exact ⟨warmReset_isReset _, rfl, rfl, BitVec.and_self⟩
  · obtain ⟨host, params, dir⟩ := (accepts_of_accept ha).frame
    have run := busyRun_runKeeps n a
    refine ⟨warmReset_isReset _, run.host.trans host, run.params.trans params, ?_⟩
    rw [State.warmReset_portDir, run.portDir]
    exact dir

end Sys2Proof.Machine
end
